-- ==== Sys2Proof/Word.lean ====
section
/-! DEFINITION. The register word: every register is 32 bits wide (spec 10_state R10, 20_memory R41), bit 0 least
significant (00_scope R6). -/

namespace Sys2Proof

/-- A register word, `bits32` of 00_scope R7. -/
abbrev Word := BitVec 32

end Sys2Proof
end

