-- ==== Sys2Proof/Config.lean ====
section
/-! DEFINITION. The implementation parameters P1 to P16 of 00_scope R4. Those the spec gives a value are constants here.
Those it leaves OPEN (P3 to P7, P13, P16) are the fields of `Params`, an argument of the model (10_state R28). P1 (BASE)
is dropped, as 20_memory R40 allows (log entry 20), and P15 (ALT_CLOCK) is the free fall of the counter (log entry 7). -/

namespace Sys2Proof.Config

/-- The OPEN parameters of 00_scope R4. -/
structure Params where
  /-- P3 RESTART_MAGIC -/
  restartMagic : BitVec 16
  /-- P4 PUSH_PULL_MAGIC -/
  pushPullMagic : BitVec 8
  /-- P5 OPEN_DRAIN_MAGIC -/
  openDrainMagic : BitVec 8
  /-- P6 ACTIVE_HIGH_MAGIC -/
  activeHighMagic : BitVec 8
  /-- P7 ACTIVE_LOW_MAGIC -/
  activeLowMagic : BitVec 8
  /-- P13 DEFAULT_TIMEOUT_S -/
  defaultTimeoutS : Nat
  /-- P16 ENABLE_RELOADS -/
  enableReloads : Bool
  deriving DecidableEq, Repr

/-- The commonly known values 93_implementation_defined G2, G3, G4, which spec/opcode_table.json uses in its match
values (PRESUMED, log entry 1, unsafe), with ENABLE_RELOADS false (DESIGN CHOICE, log entry 2, unsafe). -/
def Params.known : Params where
  restartMagic := 0x4755#16
  pushPullMagic := 0xA8#8
  openDrainMagic := 0x8A#8
  activeHighMagic := 0xA5#8
  activeLowMagic := 0x5A#8
  defaultTimeoutS := 30
  enableReloads := false

/-- The hypothesis on the parameters that 00_scope R4 makes a model carry: the four selector bytes are pairwise
distinct. -/
abbrev Params.Distinct (p : Params) : Prop :=
  p.pushPullMagic ≠ p.openDrainMagic ∧ p.activeHighMagic ≠ p.activeLowMagic ∧
  p.pushPullMagic ≠ p.activeHighMagic ∧ p.pushPullMagic ≠ p.activeLowMagic ∧
  p.openDrainMagic ≠ p.activeHighMagic ∧ p.openDrainMagic ≠ p.activeLowMagic

/-- P8, the fixed 1 MHz rate. -/
def ticksPerSecond : Nat := 1000000
/-- P9, the longest timeout the hardware represents, in milliseconds. -/
def maxHwHeartbeatMs : Nat := 4294967
/-- P10, 128 ms in ticks. -/
def forceResetTicks : Nat := 128 * (ticksPerSecond / 1000)
/-- P11, the floor of the wait of force_reset, in microseconds. -/
def forceResetBlockUs : Nat := 1000000
/-- P12, the ceiling of the 12-bit duration field. -/
def durationMax : Nat := 4095
/-- P14, the word of the disabling write of the arm sequence (92_eei_decisions D12, 90_conflicts C5). -/
def startDisableWord : Word := 0#32

/-- The free values (log entries 6 and 7): each draw applies it to a fresh number. Nothing constrains it. -/
opaque freeWord : Nat → Word

end Sys2Proof.Config
end

