-- ==== Sys2Proof/Syntax.lean ====
section
/-! DEFINITION. The instructions of the block: one constructor of `Instr` per row of spec/opcode_table.json (30_encoding
R75), with the operands of that row, and the packets a host presents (30_encoding R60, R71). -/

namespace Sys2Proof

/-- The five registers (10_state R10). The RegisterInterface can name no other (20_memory R44). -/
inductive Reg where
  | status | reloadValue | restart | ctrl | resetWidth
  deriving DecidableEq, Repr

/-- `reset_scope` of the configuration (10_state R22). -/
inductive ScopeName where
  | cpu | soc | system
  deriving DecidableEq, Repr

/-- `ResolvedConfiguration` (10_state R22), with the resolver's defaults. `externalSignal` has no stated default. -/
structure ResolvedConfiguration where
  resetScope : ScopeName := .system
  externalSignal : Bool
  pushPull : Bool := false
  activeHigh : Bool := false
  pulseDurationTicks : Option Nat := none
  deriving DecidableEq, Repr

/-- The rows of the opcode map (30_encoding R75). -/
inductive Instr where
  | rdStatus
  | rdReloadValue
  | rdRestart
  | rdCtrl
  | rdResetWidth
  | wrStatus (v : Word)
  | wrReloadValue (v : Word)
  | wrRestartMagic
  | wrRestartOther (v : Word)
  | wrCtrl (v : Word)
  | wrResetWidthPushPull (zero dur : BitVec 12)
  | wrResetWidthOpenDrain (zero dur : BitVec 12)
  | wrResetWidthActiveHigh (zero dur : BitVec 12)
  | wrResetWidthActiveLow (zero dur : BitVec 12)
  | wrResetWidthOther (v : Word)
  | attach (cfg : ResolvedConfiguration)
  | start (timeoutSeconds : Nat)
  | stop
  | ping
  | setTimeout (timeoutSeconds : Nat)
  | forceReset
  | currentTimeout
  | maxTimeout
  | validatePulseDuration (d : Option Nat)
  | configureResetSignal (cfg : ResolvedConfiguration)
  | setDriveMode (pushPull : Bool)
  | setPolarity (activeHigh : Bool)
  | time
  | expire
  deriving DecidableEq, Repr

/-- The level of a row (column 1 of 30_encoding R75). -/
inductive Level where
  | bus | cmd | agent
  deriving DecidableEq, Repr

/-- The argument of an operation (30_encoding R71). -/
inductive Arg where
  | nothing
  | seconds (n : Nat)
  | config (cfg : ResolvedConfiguration)
  | flag (b : Bool)
  | ticks (d : Option Nat)
  deriving DecidableEq, Repr

/-- What a host presents: a packed transaction (30_encoding R60) in six bytes (log entry 16), or the pair `(op, arg)`
of 30_encoding R71 with the index in one byte (log entry 15). -/
inductive Packet where
  | bus (w : BitVec 48)
  | cmd (op : BitVec 8) (arg : Arg)
  deriving DecidableEq, Repr

/-- Why a packet is no instruction. -/
inductive DecodeError where
  /-- a bit above bit 40 of a packed transaction is set (30_encoding R60) -/
  | strayBits
  /-- the offset is none of the five (20_memory R44, 93_implementation_defined U10) -/
  | hole (off : BitVec 8)
  /-- no row has this index (30_encoding R75) -/
  | noSuchOperation (op : BitVec 8)
  /-- the argument is not of the operation's kind (30_encoding R71) -/
  | wrongArgument (op : BitVec 8)
  deriving DecidableEq, Repr

end Sys2Proof
end

