-- ==== Sys2Proof/WellFormed.lean ====
section
/-! DEFINITION. When a term of `Instr` is an instruction of the opcode map: the OTHER rows hold only the words that the
MAGIC rows do not match (30_encoding R75), and configure_reset_signal takes a configuration whose duration has passed
validation (42_reset_signal R131). -/

namespace Sys2Proof

/-- Whether `sel` is one of the four selector bytes (30_encoding R67). -/
def isMagicSelector (p : Config.Params) (sel : BitVec 8) : Bool :=
  sel == p.pushPullMagic || sel == p.openDrainMagic || sel == p.activeHighMagic || sel == p.activeLowMagic

/-- Whether a pulse duration passes 42_reset_signal R130. -/
def durationFits : Option Nat → Bool
  | none => true
  | some n => decide (n ≤ Config.durationMax)

/-- Well-formedness of an instruction, for given parameters. -/
def Instr.wellFormed (p : Config.Params) : Instr → Bool
  | .wrRestartOther v => v != p.restartMagic.setWidth 32
  | .wrResetWidthOther v => !isMagicSelector p (v.extractLsb' 24 8)
  | .configureResetSignal cfg => durationFits cfg.pulseDurationTicks
  | .rdStatus | .rdReloadValue | .rdRestart | .rdCtrl | .rdResetWidth
  | .wrStatus _ | .wrReloadValue _ | .wrRestartMagic | .wrCtrl _
  | .wrResetWidthPushPull _ _ | .wrResetWidthOpenDrain _ _
  | .wrResetWidthActiveHigh _ _ | .wrResetWidthActiveLow _ _
  | .attach _ | .start _ | .stop | .ping | .setTimeout _ | .forceReset
  | .currentTimeout | .maxTimeout | .validatePulseDuration _
  | .setDriveMode _ | .setPolarity _ | .time | .expire => true

/-- The level of an instruction (30_encoding R75). -/
def Instr.level : Instr → Level
  | .rdStatus | .rdReloadValue | .rdRestart | .rdCtrl | .rdResetWidth
  | .wrStatus _ | .wrReloadValue _ | .wrRestartMagic | .wrRestartOther _ | .wrCtrl _
  | .wrResetWidthPushPull _ _ | .wrResetWidthOpenDrain _ _
  | .wrResetWidthActiveHigh _ _ | .wrResetWidthActiveLow _ _ | .wrResetWidthOther _ => .bus
  | .attach _ | .start _ | .stop | .ping | .setTimeout _ | .forceReset
  | .currentTimeout | .maxTimeout | .validatePulseDuration _
  | .configureResetSignal _ | .setDriveMode _ | .setPolarity _ => .cmd
  | .time | .expire => .agent

/-- The level of a packet. -/
def Packet.level : Packet → Level
  | .bus _ => .bus
  | .cmd _ _ => .cmd

end Sys2Proof
end

