-- ==== Sys2Proof/Decode.lean ====
section
/-! DEFINITION. The decoder of a packet, total, and the encoder, both from the tables of 30_encoding (R60 to R71, R75),
with the register offsets (10_state R10) and the bit fields they use. -/

namespace Sys2Proof

/-- The byte offset of a register (10_state R10). -/
def regOffset : Reg → BitVec 8
  | .status => 0x00#8
  | .reloadValue => 0x04#8
  | .restart => 0x08#8
  | .ctrl => 0x0C#8
  | .resetWidth => 0x18#8

/-- The register at an offset; the other offsets are holes (20_memory R44). -/
def regAt (off : BitVec 8) : Option Reg :=
  if off = 0x00#8 then some .status
  else if off = 0x04#8 then some .reloadValue
  else if off = 0x08#8 then some .restart
  else if off = 0x0C#8 then some .ctrl
  else if off = 0x18#8 then some .resetWidth
  else none

/-- RESTART_WORD (30_encoding R66): the magic value zero-extended to 32 bits. -/
def restartWord (p : Config.Params) : Word := p.restartMagic.setWidth 32

/-! Fields of a RESET_WIDTH write, format RWW (30_encoding R67). -/

/-- SEL, bits 31:24. -/
def selField (v : Word) : BitVec 8 := v.extractLsb' 24 8
/-- Bits 23:12, written as 0. -/
def zeroField (v : Word) : BitVec 12 := v.extractLsb' 12 12
/-- DUR, bits 11:0. -/
def durField (v : Word) : BitVec 12 := v.extractLsb' 0 12
/-- The word with the three fields of format RWW. -/
def rwwWord (sel : BitVec 8) (zero dur : BitVec 12) : Word := sel ++ zero ++ dur

/-! Fields of a packed transaction, format BUS (30_encoding R60). -/

/-- dir, bit 40: 1 for a write. -/
def busDir (w : BitVec 48) : Bool := w.getLsbD 40
/-- off, bits 39:32. -/
def busOff (w : BitVec 48) : BitVec 8 := w.extractLsb' 32 8
/-- data, bits 31:0. -/
def busData (w : BitVec 48) : Word := w.extractLsb' 0 32
/-- Bits 47:41 of the six bytes, no part of the format (log entry 16). -/
def busStray (w : BitVec 48) : BitVec 7 := w.extractLsb' 41 7
/-- The packed form of a transaction. -/
def busWord (dir : Bool) (r : Reg) (data : Word) : BitVec 48 :=
  0#7 ++ BitVec.ofBool dir ++ regOffset r ++ data

/-- The read row of a register; the data field is the response and is not decoded. -/
def decodeRead : Reg → Instr
  | .status => .rdStatus
  | .reloadValue => .rdReloadValue
  | .restart => .rdRestart
  | .ctrl => .rdCtrl
  | .resetWidth => .rdResetWidth

/-- The write row of RESET_WIDTH that a word's selector names (30_encoding R75, 40_register_interface R101). -/
def decodeResetWidth (p : Config.Params) (v : Word) : Instr :=
  if selField v = p.pushPullMagic then .wrResetWidthPushPull (zeroField v) (durField v)
  else if selField v = p.openDrainMagic then .wrResetWidthOpenDrain (zeroField v) (durField v)
  else if selField v = p.activeHighMagic then .wrResetWidthActiveHigh (zeroField v) (durField v)
  else if selField v = p.activeLowMagic then .wrResetWidthActiveLow (zeroField v) (durField v)
  else .wrResetWidthOther v

/-- The write row of a register and word; the MAGIC rows come before the OTHER rows (30_encoding R75). -/
def decodeWrite (p : Config.Params) (v : Word) : Reg → Instr
  | .status => .wrStatus v
  | .reloadValue => .wrReloadValue v
  | .restart => if v = restartWord p then .wrRestartMagic else .wrRestartOther v
  | .ctrl => .wrCtrl v
  | .resetWidth => decodeResetWidth p v

/-- Decoding of format BUS. -/
def decodeBus (p : Config.Params) (w : BitVec 48) : Except DecodeError Instr :=
  if busStray w ≠ 0#7 then .error .strayBits
  else match regAt (busOff w) with
    | none => .error (.hole (busOff w))
    | some r => .ok (if busDir w then decodeWrite p (busData w) r else decodeRead r)

/-- The operation of a row whose argument is a number of seconds. -/
def takeSeconds (op : BitVec 8) (f : Nat → Instr) : Arg → Except DecodeError Instr
  | .seconds n => .ok (f n)
  | .nothing | .config _ | .flag _ | .ticks _ => .error (.wrongArgument op)

/-- The operation of a row whose argument is a configuration. -/
def takeConfig (op : BitVec 8) (f : ResolvedConfiguration → Instr) : Arg → Except DecodeError Instr
  | .config c => .ok (f c)
  | .nothing | .seconds _ | .flag _ | .ticks _ => .error (.wrongArgument op)

/-- The operation of a row whose argument is a boolean. -/
def takeFlag (op : BitVec 8) (f : Bool → Instr) : Arg → Except DecodeError Instr
  | .flag b => .ok (f b)
  | .nothing | .seconds _ | .config _ | .ticks _ => .error (.wrongArgument op)

/-- The operation of a row whose argument is an optional number of ticks. -/
def takeTicks (op : BitVec 8) (f : Option Nat → Instr) : Arg → Except DecodeError Instr
  | .ticks d => .ok (f d)
  | .nothing | .seconds _ | .config _ | .flag _ => .error (.wrongArgument op)

/-- The operation of a row with no argument. -/
def takeNothing (op : BitVec 8) (i : Instr) : Arg → Except DecodeError Instr
  | .nothing => .ok i
  | .seconds _ | .config _ | .flag _ | .ticks _ => .error (.wrongArgument op)

/-- Decoding of format CMD: the index table of 30_encoding R75. -/
def decodeCmd (op : BitVec 8) (arg : Arg) : Except DecodeError Instr :=
  match op.toNat with
  | 0 => takeConfig op .attach arg
  | 1 => takeSeconds op .start arg
  | 2 => takeNothing op .stop arg
  | 3 => takeNothing op .ping arg
  | 4 => takeSeconds op .setTimeout arg
  | 5 => takeNothing op .forceReset arg
  | 6 => takeNothing op .currentTimeout arg
  | 7 => takeNothing op .maxTimeout arg
  | 8 => takeTicks op .validatePulseDuration arg
  | 9 => takeConfig op .configureResetSignal arg
  | 10 => takeFlag op .setDriveMode arg
  | 11 => takeFlag op .setPolarity arg
  | _ => .error (.noSuchOperation op)

/-- The decoder, total on packets. -/
def decode (p : Config.Params) : Packet → Except DecodeError Instr
  | .bus w => decodeBus p w
  | .cmd op arg => decodeCmd op arg

/-- A read transaction as a packet, its response field zero. -/
def encodeRead (r : Reg) : Option Packet := some (.bus (busWord false r 0#32))
/-- A write transaction as a packet. -/
def encodeWrite (r : Reg) (v : Word) : Option Packet := some (.bus (busWord true r v))
/-- A tagged RESET_WIDTH write as a packet. -/
def encodeTagged (sel : BitVec 8) (zero dur : BitVec 12) : Option Packet := encodeWrite .resetWidth (rwwWord sel zero dur)

/-- The encoder. The two AGENT rows are decoded from nothing and have no packet (30_encoding R75). -/
def encode (p : Config.Params) : Instr → Option Packet
  | .rdStatus => encodeRead .status
  | .rdReloadValue => encodeRead .reloadValue
  | .rdRestart => encodeRead .restart
  | .rdCtrl => encodeRead .ctrl
  | .rdResetWidth => encodeRead .resetWidth
  | .wrStatus v => encodeWrite .status v
  | .wrReloadValue v => encodeWrite .reloadValue v
  | .wrRestartMagic => encodeWrite .restart (restartWord p)
  | .wrRestartOther v => encodeWrite .restart v
  | .wrCtrl v => encodeWrite .ctrl v
  | .wrResetWidthPushPull zero dur => encodeTagged p.pushPullMagic zero dur
  | .wrResetWidthOpenDrain zero dur => encodeTagged p.openDrainMagic zero dur
  | .wrResetWidthActiveHigh zero dur => encodeTagged p.activeHighMagic zero dur
  | .wrResetWidthActiveLow zero dur => encodeTagged p.activeLowMagic zero dur
  | .wrResetWidthOther v => encodeWrite .resetWidth v
  | .attach cfg => some (.cmd 0#8 (.config cfg))
  | .start n => some (.cmd 1#8 (.seconds n))
  | .stop => some (.cmd 2#8 .nothing)
  | .ping => some (.cmd 3#8 .nothing)
  | .setTimeout n => some (.cmd 4#8 (.seconds n))
  | .forceReset => some (.cmd 5#8 .nothing)
  | .currentTimeout => some (.cmd 6#8 .nothing)
  | .maxTimeout => some (.cmd 7#8 .nothing)
  | .validatePulseDuration d => some (.cmd 8#8 (.ticks d))
  | .configureResetSignal cfg => some (.cmd 9#8 (.config cfg))
  | .setDriveMode b => some (.cmd 10#8 (.flag b))
  | .setPolarity b => some (.cmd 11#8 (.flag b))
  | .time => none
  | .expire => none

/-- The operand of zeros of an operation index (log entry 15): zero seconds, no duration, false, and the resolver's
defaults for a configuration. -/
def zeroArg (op : Nat) : Arg :=
  match op with
  | 0 | 9 => .config { externalSignal := false }
  | 1 | 4 => .seconds 0
  | 8 => .ticks none
  | 10 | 11 => .flag false
  | _ => .nothing

/-- The packet whose table bits are `w`: one byte or less is an operation index with an operand of zeros, up to six
bytes is a packed transaction. -/
def packetOf (nbits w : Nat) : Option Packet :=
  if nbits = 0 then none
  else if nbits ≤ 8 then
    if w < 2 ^ 8 then some (.cmd (BitVec.ofNat 8 w) (zeroArg w)) else none
  else if nbits ≤ 48 then
    if w < 2 ^ 48 then some (.bus (BitVec.ofNat 48 w)) else none
  else none

/-- The instruction the decoder reads from a table word, with the table's own magic values. -/
def decodeTableWord (nbits w : Nat) : Option Instr :=
  match packetOf nbits w with
  | none => none
  | some pk =>
    match decode Config.Params.known pk with
    | .ok i => some i
    | .error _ => none

end Sys2Proof
end

