-- ==== Sys2Proof/Machine/State.lean ====
section
/-! DEFINITION. The state of the block (10_state), the reasons a step can stop, and the state after reset. The device half,
the controller half and the hidden bookkeeping are the spec's. The fields from `iface` to `free` are the inputs of the
step relation (10_state R28) and the free values, held as plain data because a step takes nothing but a state. -/

namespace Sys2Proof.Machine

/-- Why the machine stops, where the spec enables no step. -/
inductive Fault where
  /-- Any instruction, and any step, in a state whose watchdog has expired (60_exceptions R166, U14). Safe. -/
  | terminal
  /-- TIME while an expiry is due (43_counter R145). Safe. -/
  | timeDisabled
  /-- EXPIRE while no expiry is due (43_counter R147). Safe. -/
  | expireDisabled
  /-- An operation other than attach while there is no controller (70_reset_and_hazards R186, log entry 8). Safe. -/
  | notAttached
  /-- A call or a raw transaction while an operation has not returned (60_exceptions R173, log entry 11). Safe. -/
  | callBlocked
  deriving DecidableEq, Repr

/-- Why an instruction has no meaning. -/
inductive Refusal where
  /-- An arm of `exec` not written yet. Safe. -/
  | notModelled (mnemonic : String)
  /-- A packet that is no instruction (20_memory R44, 30_encoding R60, R71; log entry 26). Safe. -/
  | undecodable (e : DecodeError)
  /-- WR_STATUS on the device (40_register_interface R97, U8). Safe. -/
  | statusReadOnly
  /-- A RESTART write of any word but RESTART_WORD on the device (40_register_interface R108, U1). Safe. -/
  | restartNotMagic
  /-- A CTRL write on the device with SCOPE = 11 or a bit of 31:7 set (40_register_interface R100, U5). Safe. -/
  | ctrlReserved
  /-- A CTRL write on the device with EN = 1 and CLK1M = 0 (40_register_interface R100, U6). Safe. -/
  | ctrlClockSource
  /-- A CTRL write on the device with EN = 1, RST = 0 and INTR = 0 (40_register_interface R100, U7). Safe. -/
  | ctrlNoAction
  /-- A RESET_WIDTH write on the device with an unknown selector (40_register_interface R106, U2, U3). Safe. -/
  | resetWidthSelector
  /-- A tagged RESET_WIDTH write on the device with bits 23:12 not zero (40_register_interface R101, U4). Safe. -/
  | resetWidthZeroField
  /-- configure_reset_signal with a duration that validation rejects (42_reset_signal R131, log entry 17). Safe. -/
  | pulseNotValidated
  /-- attach when there is a controller already (41_controller R110, U19, log entry 10). Safe. -/
  | secondAttach
  deriving DecidableEq, Repr

/-- The part of the system an expiry resets (60_exceptions R162). `notDefined` is the SCOPE value 11, which the spec does
not define and which only an initial state can hold (log entry 14). -/
inductive ResetScope where
  | soc | fullChip | cpuOnly | notDefined
  deriving DecidableEq, Repr

/-- One external reset pulse (60_exceptions R164). -/
structure Pulse where
  ticks : BitVec 12
  activeHigh : Bool
  pushPull : Bool
  deriving DecidableEq, Repr

/-- The ExpiryRecord of 10_state R23. `unspecified` is an expiry with neither RST nor INTR (60_exceptions R165 d); it
still carries the pulse of R164 (log entry 14). -/
inductive ExpiryRecord where
  | actions (reset : Option ResetScope) (interrupt : Bool) (pulse : Option Pulse)
  | unspecified (pulse : Option Pulse)
  deriving DecidableEq, Repr

/-- The device half, `dev` (10_state R11 to R16, R23, R25). RESTART holds no state (R13). -/
structure Device where
  /-- dev.counter, read through STATUS (R11) -/
  counter : Word
  /-- dev.reload, RELOAD_VALUE (R12) -/
  reload : Word
  /-- dev.ctrl, CTRL (R14, R15) -/
  ctrl : Word
  /-- dev.rw_dur (R16) -/
  rwDur : BitVec 12
  /-- dev.rw_drive: true is push-pull (R16) -/
  rwDrive : Bool
  /-- dev.rw_pol: true is active-high (R16) -/
  rwPol : Bool
  /-- dev.expired (R23) -/
  expired : Option ExpiryRecord
  /-- the interrupt line (R25) -/
  irqLine : Bool
  /-- the external pulse output (R25) -/
  extPulse : Option Pulse
  deriving DecidableEq, Repr

/-- The controller half (10_state R18). It exists from a successful attach on (70_reset_and_hazards R186). -/
structure Controller where
  /-- ctl.ctrl, the mirror of the desired CTRL word -/
  ctrl : Word
  /-- ctl.timeout, in seconds -/
  timeout : Nat
  /-- ctl.max_hw_heartbeat_ms -/
  maxHwHeartbeatMs : Nat
  deriving DecidableEq, Repr

/-- The operations, for the sequencer position (10_state R17). -/
inductive OpName where
  | attach | start | stop | ping | setTimeout | forceReset
  | configureResetSignal | setDriveMode | setPolarity
  deriving DecidableEq, Repr

/-- One transaction of an operation's fixed sequence, with its operands (41_controller R110 to R116, 42_reset_signal R131
to R133). The words it carries are worked out when it is made. -/
inductive Action where
  /-- attach: read CTRL, and re-issue start with this timeout if EN is found set (41_controller R110, step 3) -/
  | takeOver (timeoutSeconds : Nat)
  /-- arm, line 1: the mirror gets EN, and CTRL the disabling word (41_controller R111) -/
  | disable
  /-- write RELOAD_VALUE (41_controller R111, R115) -/
  | load (count : Word)
  /-- the magic write (41_controller R111, R114, R115) -/
  | restart
  /-- write the mirror to CTRL (41_controller R111, R113) -/
  | writeMirror
  /-- read RESET_WIDTH; the local word gets the supplied duration, else the one read (42_reset_signal R131, R132, R133) -/
  | fetchDuration (supplied : Option Nat)
  /-- the tagged drive-mode write of the local word (42_reset_signal R131, R132) -/
  | tagDrive (pushPull : Bool)
  /-- the tagged polarity write of the local word (42_reset_signal R131, R133) -/
  | tagPolarity (activeHigh : Bool)
  deriving DecidableEq, Repr

/-- ctl.seq (10_state R17): idle, or the operation in progress, how many transactions it has made, and those still to make
(log entry 29). With none left it is the wait of force_reset (41_controller R116). -/
inductive Seq where
  | idle
  | running (op : OpName) (made : Nat) (todo : List Action)
  deriving DecidableEq, Repr

/-- One entry of the trace (20_memory R54). -/
inductive Transaction where
  /-- `R off -> v` -/
  | read (r : Reg) (v : Word)
  /-- `W off <- v` -/
  | write (r : Reg) (v : Word)
  deriving DecidableEq, Repr

/-- What a call gives back (40_register_interface R90, 41_controller R117, R118, R121, 60_exceptions R160, R173). -/
inductive CallResult where
  | ok
  | word (v : Word)
  | number (n : Nat)
  | configurationError (n : Nat)
  deriving DecidableEq, Repr

/-- The RegisterInterface handed in (10_state R28): the device, or the recording fake of 40_register_interface R107. -/
inductive Interface where
  | device | fake
  deriving DecidableEq, Repr

/-- The five-entry table of the recording fake (40_register_interface R107). -/
structure FakeStore where
  status : Word
  reloadValue : Word
  restart : Word
  ctrl : Word
  resetWidth : Word
  deriving DecidableEq, Repr

/-- Who moves next: the counter agent, or the one issuer of transactions and calls (10_state R27, log entry 5). -/
inductive Mover where
  | counter | issuer
  deriving DecidableEq, Repr

/-- The free values the next draws give (log entries 6 and 7), and the number of the next fresh one. -/
structure FreeBits where
  /-- the word of the next RELOAD_VALUE read (U11) -/
  reloadRead : Word
  /-- the word of the next RESTART read (U9) -/
  restartRead : Word
  /-- bits 31:1 of the next CTRL read (U12) -/
  ctrlRead : BitVec 31
  /-- bits 29:12 of the next RESET_WIDTH read (U13) -/
  rwRead : BitVec 18
  /-- where the counter falls to at the next tick with CLK1M = 0, before its bound (U6) -/
  fall : Word
  /-- what `Config.freeWord` is applied to next -/
  next : Nat
  deriving DecidableEq, Repr

/-- The state of the machine. -/
structure State where
  /-- the device -/
  dev : Device
  /-- the controller, none before attach -/
  ctl : Option Controller
  /-- ctl.seq -/
  seq : Seq
  /-- the local word of the running operation (10_state R21) -/
  latch : Word
  /-- ctl.block_us (10_state R23 d) -/
  blockUs : Nat
  /-- the trace, oldest first (20_memory R54) -/
  trace : List Transaction
  /-- what the last call gave back; none while it has not returned, and after a write, which gives nothing -/
  result : Option CallResult
  /-- the RegisterInterface handed in -/
  iface : Interface
  /-- the table of the recording fake -/
  store : FakeStore
  /-- the OPEN parameters (00_scope R4); no step changes them -/
  par : Config.Params
  /-- the host's coming calls and transactions (10_state R28) -/
  inbox : List Packet
  /-- the schedule of the agents (10_state R27) -/
  moves : List Mover
  /-- the free values -/
  free : FreeBits
  deriving DecidableEq, Repr

/-- The outcome of an instruction or a part of one. -/
abbrev Answer := Host.Outcome State Fault Refusal

/-- The state before attach. The device fields the spec leaves arbitrary (10_state R25) are zero here (DESIGN CHOICE, log
entry 3, unsafe); the OPEN parameters are the commonly known ones (PRESUMED, log entries 1 and 2, unsafe). The free values
are the first draws of the opaque `Config.freeWord` (log entries 6 and 7). -/
def State.reset : State where
  dev := {
    counter := 0#32, reload := 0#32, ctrl := 0#32, rwDur := 0#12, rwDrive := false, rwPol := false,
    expired := none, irqLine := false, extPulse := none }
  ctl := none
  seq := .idle
  latch := 0#32
  blockUs := 0
  trace := []
  result := none
  iface := .device
  store := { status := 0#32, reloadValue := 0#32, restart := 0#32, ctrl := 0#32, resetWidth := 0#32 }
  par := Config.Params.known
  inbox := []
  moves := []
  free := {
    reloadRead := Config.freeWord 0
    restartRead := Config.freeWord 1
    ctrlRead := (Config.freeWord 2).setWidth 31
    rwRead := (Config.freeWord 3).setWidth 18
    fall := Config.freeWord 4
    next := 5 }

end Sys2Proof.Machine
end

