-- ==== Sys2Proof/Machine/Operands.lean ====
section
/-! DEFINITION. The encoders and decoders of register words (30_encoding R62 to R70) and the register forms of both
RegisterInterfaces: what a read returns and where the fake keeps a word. -/

namespace Sys2Proof.Machine

/-- `word32` of 00_scope R7, used only below 2^32. -/
def word32 (n : Nat) : Word := BitVec.ofNat 32 n

/-- `reload_of` of 30_encoding R64: the cap comes between the two products, over unbounded naturals. -/
def reloadOf (timeoutSeconds : Nat) : Word :=
  word32 (min (timeoutSeconds * 1000) Config.maxHwHeartbeatMs * 1000)

/-- FORCE_RESET_WORD of 30_encoding R65. -/
def forceResetWord : Word := word32 Config.forceResetTicks

/-- DUR_MASK of 30_encoding R69. -/
def durMask : Word := 0x00000FFF#32

/-- `enc_rw` of 30_encoding R67: the duration in the low bits, the selector in the upper byte. -/
def encRw (dur : Word) (sel : BitVec 8) : Word := dur ||| (sel.setWidth 32 <<< 24)

/-- `dec_rw` of 30_encoding R69: duration, drive-mode flag, polarity flag. -/
def decRw (w : Word) : BitVec 12 × Bool × Bool := (w.extractLsb' 0 12, w.getLsbD 30, w.getLsbD 31)

/-- `sel_drive` of 30_encoding R68. -/
def selDrive (p : Config.Params) (pushPull : Bool) : BitVec 8 :=
  if pushPull then p.pushPullMagic else p.openDrainMagic

/-- `sel_pol` of 30_encoding R68. -/
def selPol (p : Config.Params) (activeHigh : Bool) : BitVec 8 :=
  if activeHigh then p.activeHighMagic else p.activeLowMagic

/-- The duration configure_reset_signal writes (42_reset_signal R131, line 2): the supplied one, else the one read. -/
def chosenDuration (d : Option Nat) (read : Word) : Word :=
  match d with
  | none => read &&& durMask
  | some n => word32 n

/-- What the device returns on a read (40_register_interface R92 to R96); the bits the spec leaves open are the free
values. -/
def deviceRead (r : Reg) (d : Device) (f : FreeBits) : Word :=
  match r with
  | .status => d.counter
  | .reloadValue => f.reloadRead
  | .restart => f.restartRead
  | .ctrl => f.ctrlRead ++ BitVec.ofBool (d.ctrl.getLsbD 0)
  | .resetWidth => BitVec.ofBool d.rwPol ++ BitVec.ofBool d.rwDrive ++ f.rwRead ++ d.rwDur

/-- A read of the device draws new values for the bits it left open (log entry 6). -/
def redraw (r : Reg) (f : FreeBits) : FreeBits :=
  match r with
  | .status => f
  | .reloadValue => { f with reloadRead := Config.freeWord f.next, next := f.next + 1 }
  | .restart => { f with restartRead := Config.freeWord f.next, next := f.next + 1 }
  | .ctrl => { f with ctrlRead := (Config.freeWord f.next).setWidth 31, next := f.next + 1 }
  | .resetWidth => { f with rwRead := (Config.freeWord f.next).setWidth 18, next := f.next + 1 }

/-- What the fake returns on a read (40_register_interface R107). -/
def fakeRead (r : Reg) (t : FakeStore) : Word :=
  match r with
  | .status => t.status
  | .reloadValue => t.reloadValue
  | .restart => t.restart
  | .ctrl => t.ctrl
  | .resetWidth => t.resetWidth

/-- What a write leaves in the fake (40_register_interface R107). -/
def fakeWrite (r : Reg) (v : Word) (t : FakeStore) : FakeStore :=
  match r with
  | .status => { t with status := v }
  | .reloadValue => { t with reloadValue := v }
  | .restart => { t with restart := v }
  | .ctrl => { t with ctrl := v }
  | .resetWidth => { t with resetWidth := v }

end Sys2Proof.Machine
end

