-- ==== Sys2Proof/Machine/Flags.lean ====
section
/-! DEFINITION. The CTRL word (10_state R15, 30_encoding R61): its masks, its fields, the words the device accepts, the
word the configuration asks for, and what an expiry does with it (60_exceptions R162 to R165). The block has no arithmetic
flags (10_state R20). -/

namespace Sys2Proof.Machine

/-! Masks of 30_encoding R61. -/

/-- EN, bit 0. -/
def maskEn : Word := 0x00000001#32
/-- RST, bit 1. -/
def maskRst : Word := 0x00000002#32
/-- EXT, bit 3. -/
def maskExt : Word := 0x00000008#32
/-- CLK1M, bit 4. -/
def maskClk1m : Word := 0x00000010#32

/-! Fields of 30_encoding R61. -/

/-- EN: counting. -/
def ctrlEn (w : Word) : Bool := w.getLsbD 0
/-- RST: reset on expiry. -/
def ctrlRst (w : Word) : Bool := w.getLsbD 1
/-- INTR: interrupt on expiry. -/
def ctrlIntr (w : Word) : Bool := w.getLsbD 2
/-- EXT: external pulse on expiry. -/
def ctrlExt (w : Word) : Bool := w.getLsbD 3
/-- CLK1M: the 1 MHz clock source. -/
def ctrlClk1m (w : Word) : Bool := w.getLsbD 4
/-- SCOPE, bit 6 first (92_eei_decisions D11). -/
def ctrlScope (w : Word) : BitVec 2 := w.extractLsb' 5 2
/-- Bits 31:7, reserved. -/
def ctrlReservedBits (w : Word) : BitVec 25 := w.extractLsb' 7 25

/-- `enc_scope` of 30_encoding R62. -/
def encScope : ScopeName → Word
  | .soc => 0x00000000#32
  | .system => 0x00000020#32
  | .cpu => 0x00000040#32

/-- `enc_ctrl_flags` of 30_encoding R63; EN is not part of it. -/
def encCtrlFlags (cfg : ResolvedConfiguration) : Word :=
  maskRst ||| maskClk1m ||| encScope cfg.resetScope ||| (if cfg.externalSignal then maskExt else 0#32)

/-- The requires of 40_register_interface R100, in its order: why the device refuses a CTRL word, or none (log entry 28
on the order). -/
def ctrlRefusal (v : Word) : Option Refusal :=
  if ctrlReservedBits v ≠ 0#25 ∨ ctrlScope v = 0b11#2 then some .ctrlReserved
  else if ctrlEn v && !ctrlClk1m v then some .ctrlClockSource
  else if ctrlEn v && !ctrlRst v && !ctrlIntr v then some .ctrlNoAction
  else none

/-- The part of the system SCOPE names (60_exceptions R162). -/
def scopeOf (w : Word) : ResetScope :=
  if ctrlScope w = 0b00#2 then .soc
  else if ctrlScope w = 0b01#2 then .fullChip
  else if ctrlScope w = 0b10#2 then .cpuOnly
  else .notDefined

/-- The pulse an expiry drives, if EXT asks for one (60_exceptions R164). -/
def pulseOf (d : Device) : Option Pulse :=
  if ctrlExt d.ctrl then some { ticks := d.rwDur, activeHigh := d.rwPol, pushPull := d.rwDrive } else none

/-- The actions of an expiry (60_exceptions R162 to R165): each is taken when its own bit is set; with neither RST nor
INTR the record is `unspecified`. -/
def expiryActions (d : Device) : ExpiryRecord :=
  if !ctrlRst d.ctrl && !ctrlIntr d.ctrl then .unspecified (pulseOf d)
  else .actions (if ctrlRst d.ctrl then some (scopeOf d.ctrl) else none) (ctrlIntr d.ctrl) (pulseOf d)

/-- The controller state of 10_state R20: Armed exactly when bit 0 of the mirror is set. -/
def Controller.armed (c : Controller) : Bool := ctrlEn c.ctrl

end Sys2Proof.Machine
end

