-- ==== Sys2Proof/Machine/Ops.lean ====
section
/-! DEFINITION. The shared operations: the counter agent's two steps, the one expiry (the place of taking an exception,
60_exceptions R166; there is no return from it, R167), the configuration error, the two primitives of the
RegisterInterface, and the sequencer: the transactions of an operation one controller step each, with the counter agent's
turns between them. -/

namespace Sys2Proof.Machine

/-! ## The counter agent -/

/-- An expiry is due: the enabling condition of EXPIRE (43_counter R147), which is what disables TIME (R145). The fake
has no counter (40_register_interface R107). -/
def expiryDue (s : State) : Bool :=
  s.iface == .device && s.dev.expired.isNone && ctrlEn s.dev.ctrl && s.dev.counter == 0#32

/-- The counter's part of TIME (43_counter R145, first two lines). With CLK1M = 0 it falls to any value not above where
it stands (R151, log entry 7). -/
def tickCounter (s : State) : State :=
  if s.iface == .device && ctrlEn s.dev.ctrl then
    if ctrlClk1m s.dev.ctrl then
      if s.dev.counter = 0#32 then s
      else { s with dev := { s.dev with counter := s.dev.counter - 1#32 } }
    else
      { s with
        dev := { s.dev with
          counter := if s.free.fall.toNat ≤ s.dev.counter.toNat then s.free.fall else s.dev.counter }
        free := { s.free with fall := Config.freeWord s.free.next, next := s.free.next + 1 } }
  else s

/-- The caller's part of TIME (43_counter R145, third line). -/
def tickCaller (s : State) : State := { s with blockUs := s.blockUs - 1 }

/-- One microsecond passes: TIME (43_counter R145). -/
def passMicrosecond (s : State) : State := tickCaller (tickCounter s)

/-- The expiry is taken: EXPIRE (43_counter R147, 60_exceptions R162 to R166). Nothing is saved and nothing runs; the
record, the interrupt line and the pulse output are all that changes. -/
def takeExpiry (s : State) : State :=
  { s with dev := { s.dev with
      expired := some (expiryActions s.dev)
      irqLine := s.dev.irqLine || ctrlIntr s.dev.ctrl
      extPulse := if ctrlExt s.dev.ctrl then pulseOf s.dev else s.dev.extPulse } }

/-- The counter agent's turn: the one of EXPIRE and TIME that is enabled. -/
def counterTurn (s : State) : State := if expiryDue s then takeExpiry s else passMicrosecond s

/-- Turns as a schedule gives them, up to the issuer's next turn or an expiry (41_controller R120, log entry 5). -/
def runTurns : List Mover → State → State
  | [], s => { s with moves := [] }
  | .issuer :: ms, s => { s with moves := ms }
  | .counter :: ms, s =>
    if (counterTurn s).dev.expired.isSome then { counterTurn s with moves := ms }
    else runTurns ms (counterTurn s)

/-- What happens between two transactions of one operation (20_memory R50, 41_controller R120). -/
def lapse (s : State) : State := runTurns s.moves s

/-! ## Entering -/

/-- A call or a raw transaction can enter: the watchdog has not expired (60_exceptions R166) and no operation is running
(60_exceptions R173). -/
def hostTurn (s : State) (k : State → Answer) : Answer :=
  if s.dev.expired.isSome then .fault .terminal
  else if s.seq ≠ .idle then .fault .callBlocked
  else k s

/-- As `hostTurn`, for every operation but attach: before attach none can be called (70_reset_and_hazards R186, log
entry 8). -/
def controllerTurn (s : State) (k : Controller → State → Answer) : Answer :=
  hostTurn s fun s =>
    match s.ctl with
    | none => .fault .notAttached
    | some c => k c s

/-- The configuration error (60_exceptions R160): the caller gets the number and nothing else changes. -/
def raiseConfigurationError (n : Nat) (s : State) : State := { s with result := some (.configurationError n) }

/-- `validate_pulse_duration` (42_reset_signal R130): the offending number, if there is one. -/
def durationError (d : Option Nat) : Option Nat :=
  match d with
  | none => none
  | some n => if Config.durationMax < n then some n else none

/-! ## The RegisterInterface -/

/-- The sequencer has made one more transaction (10_state R17). A raw transaction has no sequencer. -/
def advance : Seq → Seq
  | .idle => .idle
  | .running op k todo => .running op (k + 1) todo

/-- What a read returns through the RegisterInterface handed in. -/
def response (r : Reg) (s : State) : Word :=
  match s.iface with
  | .device => deviceRead r s.dev s.free
  | .fake => fakeRead r s.store

/-- What a read leaves: an entry of the trace, new open bits, and no other change of the device (40_register_interface
R90, 20_memory R46). -/
def noteRead (r : Reg) (s : State) : State :=
  { s with
    trace := s.trace ++ [.read r (response r s)]
    seq := advance s.seq
    free := match s.iface with
      | .device => redraw r s.free
      | .fake => s.free }

/-- `reg_read` inside an operation: the word goes to the operation's local word. -/
def readLocal (r : Reg) (s : State) : State := { noteRead r s with latch := response r s }

/-- `reg_write` of a row (40_register_interface R91): the device answers by the row's rule, the fake stores the word
(R107), and the trace gets its entry. -/
def rowWrite (r : Reg) (v : Word) (row : Device → Except Refusal Device) (s : State) : Answer :=
  match s.iface with
  | .device =>
    match row s.dev with
    | .ok d => .next { s with dev := d, trace := s.trace ++ [.write r v], seq := advance s.seq }
    | .error e => .refused e
  | .fake => .next { s with store := fakeWrite r v s.store, trace := s.trace ++ [.write r v], seq := advance s.seq }

/-! The device's rows (40_register_interface R97 to R106, R108). -/

/-- WR_STATUS (R97). -/
def devWriteStatus (_ : Device) : Except Refusal Device := .error .statusReadOnly

/-- WR_RELOAD_VALUE (R98): the counter is not touched. -/
def devWriteReloadValue (v : Word) (d : Device) : Except Refusal Device := .ok { d with reload := v }

/-- WR_RESTART.MAGIC (R99): the counter is reloaded; EN is not set. -/
def devRestart (d : Device) : Except Refusal Device := .ok { d with counter := d.reload }

/-- WR_RESTART.OTHER (R108). -/
def devRestartOther (_ : Device) : Except Refusal Device := .error .restartNotMagic

/-- WR_CTRL (R100), with P16 ENABLE_RELOADS deciding whether enabling reloads (43_counter R152). -/
def devWriteCtrl (p : Config.Params) (v : Word) (d : Device) : Except Refusal Device :=
  match ctrlRefusal v with
  | some e => .error e
  | none => .ok { d with
      ctrl := v
      counter := if !ctrlEn d.ctrl && ctrlEn v && p.enableReloads then d.reload else d.counter }

/-- The common part of the tagged writes (R101): bits 23:12 are zero, and the duration is stored. -/
def devTagged (zero dur : BitVec 12) (field : Device → Device) (d : Device) : Except Refusal Device :=
  if zero ≠ 0#12 then .error .resetWidthZeroField else .ok (field { d with rwDur := dur })

/-- WR_RESET_WIDTH.PUSH_PULL (R102). -/
def devPushPull (zero dur : BitVec 12) (d : Device) : Except Refusal Device :=
  devTagged zero dur (fun d => { d with rwDrive := true }) d

/-- WR_RESET_WIDTH.OPEN_DRAIN (R103). -/
def devOpenDrain (zero dur : BitVec 12) (d : Device) : Except Refusal Device :=
  devTagged zero dur (fun d => { d with rwDrive := false }) d

/-- WR_RESET_WIDTH.ACTIVE_HIGH (R104). -/
def devActiveHigh (zero dur : BitVec 12) (d : Device) : Except Refusal Device :=
  devTagged zero dur (fun d => { d with rwPol := true }) d

/-- WR_RESET_WIDTH.ACTIVE_LOW (R105). -/
def devActiveLow (zero dur : BitVec 12) (d : Device) : Except Refusal Device :=
  devTagged zero dur (fun d => { d with rwPol := false }) d

/-- WR_RESET_WIDTH.OTHER (R106). -/
def devResetWidthOther (_ : Device) : Except Refusal Device := .error .resetWidthSelector

/-- WR_RESET_WIDTH (R101): the selector dispatches to one row. -/
def devWriteResetWidth (p : Config.Params) (v : Word) (d : Device) : Except Refusal Device :=
  if selField v = p.pushPullMagic then devPushPull (zeroField v) (durField v) d
  else if selField v = p.openDrainMagic then devOpenDrain (zeroField v) (durField v) d
  else if selField v = p.activeHighMagic then devActiveHigh (zeroField v) (durField v) d
  else if selField v = p.activeLowMagic then devActiveLow (zeroField v) (durField v) d
  else devResetWidthOther d

/-- `device_write`: the rule of the register and the word (40_register_interface R91). -/
def deviceWrite (p : Config.Params) (r : Reg) (v : Word) (d : Device) : Except Refusal Device :=
  match r with
  | .status => devWriteStatus d
  | .reloadValue => devWriteReloadValue v d
  | .restart => if v = restartWord p then devRestart d else devRestartOther d
  | .ctrl => devWriteCtrl p v d
  | .resetWidth => devWriteResetWidth p v d

/-- `reg_write` inside an operation (40_register_interface R91). -/
def regWrite (r : Reg) (v : Word) (s : State) : Answer := rowWrite r v (deviceWrite s.par r v) s

/-- A raw read by the holder of the RegisterInterface (60_exceptions R168): the word is given back. -/
def busRead (r : Reg) (s : State) : Answer :=
  hostTurn s fun s => .next { noteRead r s with result := some (.word (response r s)) }

/-- A raw write by the holder of the RegisterInterface: nothing is given back. -/
def busWrite (r : Reg) (v : Word) (row : Device → Except Refusal Device) (s : State) : Answer :=
  hostTurn s fun s => rowWrite r v row { s with result := none }

/-! ## The sequencer -/

/-- The arm sequence (41_controller R111): disable, reload value, restart, and CTRL last. -/
def armProgram (count : Word) : List Action := [.disable, .load count, .restart, .writeMirror]

/-- The sequence of configure_reset_signal (42_reset_signal R131): one read, then the drive-mode write, then the polarity
write, both with the same duration. -/
def configureProgram (cfg : ResolvedConfiguration) : List Action :=
  [.fetchDuration cfg.pulseDurationTicks, .tagDrive cfg.pushPull, .tagPolarity cfg.activeHigh]

/-- Transactions to make before those still to make. -/
def push (prog : List Action) : Seq → Seq
  | .idle => .idle
  | .running op k todo => .running op k (prog ++ todo)

/-- attach's read of CTRL: with EN found set the start sequence comes next (41_controller R110, step 3). -/
def takeOver (timeoutSeconds : Nat) (s : State) : State :=
  { readLocal .ctrl s with
    seq := if ctrlEn (response .ctrl s) then push (armProgram (reloadOf timeoutSeconds)) (advance s.seq)
      else advance s.seq }

/-- The mirror with EN set (41_controller R111). -/
def Controller.enable (c : Controller) : Controller := { c with ctrl := c.ctrl ||| maskEn }

/-- The mirror with only EN cleared (41_controller R113). -/
def Controller.disable (c : Controller) : Controller := { c with ctrl := c.ctrl &&& ~~~maskEn }

/-- A write of the mirror to CTRL. No operation but attach runs without a controller (70_reset_and_hazards R186). -/
def writeMirror (s : State) : Answer :=
  match s.ctl with
  | none => .fault .notAttached
  | some c => regWrite .ctrl c.ctrl s

/-- A tagged write of the local word (42_reset_signal R131 to R133). -/
def writeTagged (sel : BitVec 8) (s : State) : Answer :=
  regWrite .resetWidth (encRw s.latch sel) s

/-- One transaction of an operation, with the local work its line does (41_controller R110 to R116, 42_reset_signal R131
to R133). -/
def act (a : Action) (s : State) : Answer :=
  match a with
  | .takeOver timeoutSeconds => .next (takeOver timeoutSeconds s)
  | .disable => regWrite .ctrl Config.startDisableWord { s with ctl := s.ctl.map Controller.enable }
  | .load count => regWrite .reloadValue count s
  | .restart => regWrite .restart (restartWord s.par) s
  | .writeMirror => writeMirror s
  | .fetchDuration supplied =>
    .next { readLocal .resetWidth s with latch := chosenDuration supplied (response .resetWidth s) }
  | .tagDrive pushPull => writeTagged (selDrive s.par pushPull) s
  | .tagPolarity activeHigh => writeTagged (selPol s.par activeHigh) { s with latch := s.latch &&& durMask }

/-- After a transaction: an operation that has made its last one returns ok (41_controller R121), but force_reset blocks
the caller (41_controller R116). -/
def settle (s : State) : State :=
  match s.seq with
  | .running op _ [] =>
    if op = .forceReset then { s with blockUs := Config.forceResetBlockUs }
    else { s with seq := .idle, result := some .ok }
  | .running _ _ (_ :: _) => s
  | .idle => s

/-- An answer, settled if it is a next state. -/
def settled (a : Answer) : Answer :=
  match a with
  | .next s => .next (settle s)
  | .fault f => .fault f
  | .refused r => .refused r

/-- One step of the controller (10_state R27): the next transaction of the operation in progress, or the return from the
wait of force_reset (41_controller R116, last line). -/
def controllerStep (s : State) : Answer :=
  match s.seq with
  | .idle => .next s
  | .running _ _ [] => .next { s with seq := .idle, result := some .ok }
  | .running op k (a :: todo) => settled (act a { s with seq := .running op k todo })

/-- The call enters with its sequence, and the controller makes the first transaction (10_state R17, R27). -/
def call (op : OpName) (prog : List Action) (s : State) : Answer :=
  controllerStep { s with seq := .running op 0 prog, result := none }

/-- Whether the operation in progress has a transaction to make. -/
def pending : Seq → Bool
  | .running _ _ (_ :: _) => true
  | .running _ _ [] => false
  | .idle => false

/-- The remaining transactions of the operation in progress, with the counter agent's turns between them; an expiry ends
them (41_controller R120, 60_exceptions R166). The first argument bounds their number. -/
def runCall : Nat → State → Answer
  | 0, s => .next s
  | n + 1, s =>
    if pending s.seq then
      if (lapse s).dev.expired.isSome then .next (lapse s)
      else
        match controllerStep (lapse s) with
        | .next t => runCall n t
        | .fault f => .fault f
        | .refused r => .refused r
    else .next s

/-- The rest of an operation, from the answer of a step of it. -/
def resume (n : Nat) (a : Answer) : Answer :=
  match a with
  | .next s => runCall n s
  | .fault f => .fault f
  | .refused r => .refused r

/-- The most transactions an operation makes: those of attach on a running timer (20_memory R55). -/
def maxTransactions : Nat := 8

/-- An operation to its end, from the answer of its first step. -/
def complete (a : Answer) : Answer := resume maxTransactions a

end Sys2Proof.Machine
end

