-- ==== Sys2Proof/Machine/Counter.lean ====
section
/-! DEFINITION. The counter agent's steps as instructions (43_counter R145, R147), each with its enabling condition. -/

namespace Sys2Proof.Machine

/-- TIME (R145). -/
def execTime (s : State) : Answer :=
  if s.dev.expired.isSome then .fault .terminal
  else if expiryDue s then .fault .timeDisabled
  else .next (passMicrosecond s)

/-- EXPIRE (R147). -/
def execExpire (s : State) : Answer :=
  if s.dev.expired.isSome then .fault .terminal
  else if expiryDue s then .next (takeExpiry s)
  else .fault .expireDisabled

end Sys2Proof.Machine
end

