-- ==== Sys2Proof/Machine/RegisterInterface.lean ====
section
/-! DEFINITION. The BUS rows: raw transactions through the RegisterInterface (40_register_interface R92 to R106, R108). On
the recording fake every row is a plain store or load (R107). -/

namespace Sys2Proof.Machine

/-- RD_STATUS (R92). -/
def execRdStatus (s : State) : Answer := busRead .status s

/-- RD_RELOAD_VALUE (R93). -/
def execRdReloadValue (s : State) : Answer := busRead .reloadValue s

/-- RD_RESTART (R94). -/
def execRdRestart (s : State) : Answer := busRead .restart s

/-- RD_CTRL (R95). -/
def execRdCtrl (s : State) : Answer := busRead .ctrl s

/-- RD_RESET_WIDTH (R96). -/
def execRdResetWidth (s : State) : Answer := busRead .resetWidth s

/-- WR_STATUS (R97). -/
def execWrStatus (v : Word) (s : State) : Answer := busWrite .status v devWriteStatus s

/-- WR_RELOAD_VALUE (R98). -/
def execWrReloadValue (v : Word) (s : State) : Answer := busWrite .reloadValue v (devWriteReloadValue v) s

/-- WR_RESTART.MAGIC (R99). -/
def execWrRestartMagic (s : State) : Answer := busWrite .restart (restartWord s.par) devRestart s

/-- WR_RESTART.OTHER (R108). -/
def execWrRestartOther (v : Word) (s : State) : Answer := busWrite .restart v devRestartOther s

/-- WR_CTRL (R100). -/
def execWrCtrl (v : Word) (s : State) : Answer := busWrite .ctrl v (devWriteCtrl s.par v) s

/-- WR_RESET_WIDTH.PUSH_PULL (R102). -/
def execWrResetWidthPushPull (zero dur : BitVec 12) (s : State) : Answer :=
  busWrite .resetWidth (rwwWord s.par.pushPullMagic zero dur) (devPushPull zero dur) s

/-- WR_RESET_WIDTH.OPEN_DRAIN (R103). -/
def execWrResetWidthOpenDrain (zero dur : BitVec 12) (s : State) : Answer :=
  busWrite .resetWidth (rwwWord s.par.openDrainMagic zero dur) (devOpenDrain zero dur) s

/-- WR_RESET_WIDTH.ACTIVE_HIGH (R104). -/
def execWrResetWidthActiveHigh (zero dur : BitVec 12) (s : State) : Answer :=
  busWrite .resetWidth (rwwWord s.par.activeHighMagic zero dur) (devActiveHigh zero dur) s

/-- WR_RESET_WIDTH.ACTIVE_LOW (R105). -/
def execWrResetWidthActiveLow (zero dur : BitVec 12) (s : State) : Answer :=
  busWrite .resetWidth (rwwWord s.par.activeLowMagic zero dur) (devActiveLow zero dur) s

/-- WR_RESET_WIDTH.OTHER (R106). -/
def execWrResetWidthOther (v : Word) (s : State) : Answer := busWrite .resetWidth v devResetWidthOther s

end Sys2Proof.Machine
end

