-- ==== Sys2Proof/Machine/ResetSignal.lean ====
section
/-! DEFINITION. The ResetSignalConfigurator operations (42_reset_signal R130 to R133). They use no controller field, and
like every operation but attach they are called only after attach (70_reset_and_hazards R186). -/

namespace Sys2Proof.Machine

/-- validate_pulse_duration (R130): no transaction at all. -/
def execValidatePulseDuration (d : Option Nat) (s : State) : Answer :=
  controllerTurn s fun _ s =>
    match durationError d with
    | some n => .next (raiseConfigurationError n s)
    | none => .next { s with result := some .ok }

/-- configure_reset_signal (R131), for a duration that has passed validation (log entry 17). -/
def beginConfigureResetSignal (cfg : ResolvedConfiguration) (s : State) : Answer :=
  controllerTurn s fun _ s =>
    match durationError cfg.pulseDurationTicks with
    | some _ => .refused .pulseNotValidated
    | none => call .configureResetSignal (configureProgram cfg) s

/-- configure_reset_signal (R131). -/
def execConfigureResetSignal (cfg : ResolvedConfiguration) (s : State) : Answer :=
  complete (beginConfigureResetSignal cfg s)

/-- set_drive_mode (R132): a read-modify-write of its own. -/
def beginSetDriveMode (pushPull : Bool) (s : State) : Answer :=
  controllerTurn s fun _ s => call .setDriveMode [.fetchDuration none, .tagDrive pushPull] s

/-- set_drive_mode (R132). -/
def execSetDriveMode (pushPull : Bool) (s : State) : Answer := complete (beginSetDriveMode pushPull s)

/-- set_polarity (R133): a read-modify-write of its own. -/
def beginSetPolarity (activeHigh : Bool) (s : State) : Answer :=
  controllerTurn s fun _ s => call .setPolarity [.fetchDuration none, .tagPolarity activeHigh] s

/-- set_polarity (R133). -/
def execSetPolarity (activeHigh : Bool) (s : State) : Answer := complete (beginSetPolarity activeHigh s)

end Sys2Proof.Machine
end

