-- ==== Sys2Proof/Machine/WatchdogController.lean ====
section
/-! DEFINITION. The WatchdogController operations (41_controller R110 to R118). `beginX` enters the call and makes its first
transaction, one step of the controller; `execX` is the operation to its end. -/

namespace Sys2Proof.Machine

/-- The controller that attach creates (R110, step 2). -/
def newController (p : Config.Params) (cfg : ResolvedConfiguration) : Controller where
  ctrl := encCtrlFlags cfg
  timeout := p.defaultTimeoutS
  maxHwHeartbeatMs := Config.maxHwHeartbeatMs

/-- attach (R110): validate, create the controller, then read CTRL, re-issue start if the timer is found running, and
configure the reset signal. The spec calls attach once (R110 c); here a second call is refused when there is a controller,
and runs when the first one ended in ConfigurationError and created none (DESIGN CHOICE, log entry 10). -/
def beginAttach (cfg : ResolvedConfiguration) (s : State) : Answer :=
  hostTurn s fun s =>
    if s.ctl.isSome then .refused .secondAttach
    else match durationError cfg.pulseDurationTicks with
      | some n => .next (raiseConfigurationError n s)
      | none => call .attach (.takeOver s.par.defaultTimeoutS :: configureProgram cfg)
          { s with ctl := some (newController s.par cfg) }

/-- attach (R110), with the reading of a second call that log entry 10 marks. -/
def execAttach (cfg : ResolvedConfiguration) (s : State) : Answer := complete (beginAttach cfg s)

/-- start (R112): the argument is recorded, and the timer armed. -/
def beginStart (timeoutSeconds : Nat) (s : State) : Answer :=
  controllerTurn s fun c s =>
    call .start (armProgram (reloadOf timeoutSeconds)) { s with ctl := some { c with timeout := timeoutSeconds } }

/-- start (R112). -/
def execStart (timeoutSeconds : Nat) (s : State) : Answer := complete (beginStart timeoutSeconds s)

/-- stop (R113): only the enable bit of the mirror is cleared, and the write is always made. -/
def beginStop (s : State) : Answer :=
  controllerTurn s fun c s => call .stop [.writeMirror] { s with ctl := some c.disable }

/-- stop (R113). -/
def execStop (s : State) : Answer := complete (beginStop s)

/-- ping (R114). -/
def beginPing (s : State) : Answer := controllerTurn s fun _ s => call .ping [.restart] s

/-- ping (R114). -/
def execPing (s : State) : Answer := complete (beginPing s)

/-- set_timeout (R115): the request is remembered, the capped word is written, and RESTART makes it take effect. -/
def beginSetTimeout (timeoutSeconds : Nat) (s : State) : Answer :=
  controllerTurn s fun c s =>
    call .setTimeout [.load (reloadOf timeoutSeconds), .restart] { s with ctl := some { c with timeout := timeoutSeconds } }

/-- set_timeout (R115). -/
def execSetTimeout (timeoutSeconds : Nat) (s : State) : Answer := complete (beginSetTimeout timeoutSeconds s)

/-- force_reset (R116): arm with 128,000 ticks; `settle` then blocks the caller. -/
def beginForceReset (s : State) : Answer :=
  controllerTurn s fun _ s => call .forceReset (armProgram forceResetWord) s

/-- force_reset (R116), up to its wait: only TIME steps lower it, and the return is a step of the controller
(`controllerStep`). -/
def execForceReset (s : State) : Answer := complete (beginForceReset s)

/-- current_timeout (R117). -/
def execCurrentTimeout (s : State) : Answer :=
  controllerTurn s fun c s => .next { s with result := some (.number c.timeout) }

/-- max_timeout (R118). -/
def execMaxTimeout (s : State) : Answer :=
  controllerTurn s fun c s => .next { s with result := some (.number c.maxHwHeartbeatMs) }

end Sys2Proof.Machine
end

