-- ==== Sys2Proof/Machine/Dispatch.lean ====
section
/-! DEFINITION. The meaning of every row of 30_encoding R75, one arm each. -/

namespace Sys2Proof.Machine

def exec (i : Instr) (s : State) : Host.Outcome State Fault Refusal :=
  match i with
  | .rdStatus => Sys2Proof.Machine.execRdStatus s
  | .rdReloadValue => Sys2Proof.Machine.execRdReloadValue s
  | .rdRestart => Sys2Proof.Machine.execRdRestart s
  | .rdCtrl => Sys2Proof.Machine.execRdCtrl s
  | .rdResetWidth => Sys2Proof.Machine.execRdResetWidth s
  | .wrStatus v => Sys2Proof.Machine.execWrStatus v s
  | .wrReloadValue v => Sys2Proof.Machine.execWrReloadValue v s
  | .wrRestartMagic => Sys2Proof.Machine.execWrRestartMagic s
  | .wrRestartOther v => Sys2Proof.Machine.execWrRestartOther v s
  | .wrCtrl v => Sys2Proof.Machine.execWrCtrl v s
  | .wrResetWidthPushPull zero dur => Sys2Proof.Machine.execWrResetWidthPushPull zero dur s
  | .wrResetWidthOpenDrain zero dur => Sys2Proof.Machine.execWrResetWidthOpenDrain zero dur s
  | .wrResetWidthActiveHigh zero dur => Sys2Proof.Machine.execWrResetWidthActiveHigh zero dur s
  | .wrResetWidthActiveLow zero dur => Sys2Proof.Machine.execWrResetWidthActiveLow zero dur s
  | .wrResetWidthOther v => Sys2Proof.Machine.execWrResetWidthOther v s
  | .attach cfg => Sys2Proof.Machine.execAttach cfg s
  | .start timeoutSeconds => Sys2Proof.Machine.execStart timeoutSeconds s
  | .stop => Sys2Proof.Machine.execStop s
  | .ping => Sys2Proof.Machine.execPing s
  | .setTimeout timeoutSeconds => Sys2Proof.Machine.execSetTimeout timeoutSeconds s
  | .forceReset => Sys2Proof.Machine.execForceReset s
  | .currentTimeout => Sys2Proof.Machine.execCurrentTimeout s
  | .maxTimeout => Sys2Proof.Machine.execMaxTimeout s
  | .validatePulseDuration d => Sys2Proof.Machine.execValidatePulseDuration d s
  | .configureResetSignal cfg => Sys2Proof.Machine.execConfigureResetSignal cfg s
  | .setDriveMode pushPull => Sys2Proof.Machine.execSetDriveMode pushPull s
  | .setPolarity activeHigh => Sys2Proof.Machine.execSetPolarity activeHigh s
  | .time => Sys2Proof.Machine.execTime s
  | .expire => Sys2Proof.Machine.execExpire s

end Sys2Proof.Machine
end

