-- ==== Sys2Proof/Machine/Begin.lean ====
section
/-! DEFINITION. What one step of a row is (10_state R27): an operation enters and makes its first transaction; every other
row is one step as a whole. -/

namespace Sys2Proof.Machine

/-- The first step of a row. -/
def begin (i : Instr) (s : State) : Answer :=
  match i with
  | .attach cfg => beginAttach cfg s
  | .start timeoutSeconds => beginStart timeoutSeconds s
  | .stop => beginStop s
  | .ping => beginPing s
  | .setTimeout timeoutSeconds => beginSetTimeout timeoutSeconds s
  | .forceReset => beginForceReset s
  | .configureResetSignal cfg => beginConfigureResetSignal cfg s
  | .setDriveMode pushPull => beginSetDriveMode pushPull s
  | .setPolarity activeHigh => beginSetPolarity activeHigh s
  | .currentTimeout => exec .currentTimeout s
  | .maxTimeout => exec .maxTimeout s
  | .validatePulseDuration d => exec (.validatePulseDuration d) s
  | .rdStatus => exec .rdStatus s
  | .rdReloadValue => exec .rdReloadValue s
  | .rdRestart => exec .rdRestart s
  | .rdCtrl => exec .rdCtrl s
  | .rdResetWidth => exec .rdResetWidth s
  | .wrStatus v => exec (.wrStatus v) s
  | .wrReloadValue v => exec (.wrReloadValue v) s
  | .wrRestartMagic => exec .wrRestartMagic s
  | .wrRestartOther v => exec (.wrRestartOther v) s
  | .wrCtrl v => exec (.wrCtrl v) s
  | .wrResetWidthPushPull zero dur => exec (.wrResetWidthPushPull zero dur) s
  | .wrResetWidthOpenDrain zero dur => exec (.wrResetWidthOpenDrain zero dur) s
  | .wrResetWidthActiveHigh zero dur => exec (.wrResetWidthActiveHigh zero dur) s
  | .wrResetWidthActiveLow zero dur => exec (.wrResetWidthActiveLow zero dur) s
  | .wrResetWidthOther v => exec (.wrResetWidthOther v) s
  | .time => exec .time s
  | .expire => exec .expire s

end Sys2Proof.Machine
end

