-- ==== Sys2Proof/Machine/Fetch.lean ====
section
/-! DEFINITION. What moves next (10_state R27): the counter agent, the operation in progress, or the host's next packet.
There is no program counter (10_state R17) and no instruction memory (20_memory R51). -/

namespace Sys2Proof.Machine

/-- What a step does: a turn of the counter agent, the first step of a row the host hands over, the next step of the
operation in progress, or a stop. -/
inductive NextAction where
  | turn (s : State)
  | enter (i : Instr) (s : State)
  | proceed (s : State)
  | stop (f : Fault)
  | reject (r : Refusal)
  deriving DecidableEq, Repr

/-- The one of TIME and EXPIRE that is enabled (43_counter R145, R147). -/
def counterInstr (s : State) : Instr := if expiryDue s then .expire else .time

/-- The schedule after the issuer's turn. -/
def afterIssuer : List Mover → List Mover
  | .issuer :: ms => ms
  | ms => ms

/-- Whether the schedule gives the counter agent the next turn. -/
def counterFirst : List Mover → Bool
  | .counter :: _ => true
  | _ => false

/-- The host's next packet enters, leaving `inbox` and taking the issuer's turn. -/
def issue (pk : Packet) (rest : List Packet) (s : State) : NextAction :=
  match decode s.par pk with
  | .ok i => .enter i { s with inbox := rest, moves := afterIssuer s.moves }
  | .error e => .reject (.undecodable e)

/-- Whether the caller waits: force_reset has made its transactions and its time is not over (41_controller R116). -/
def callerWaits (s : State) : Bool :=
  match s.seq with
  | .running _ _ [] => s.blockUs != 0
  | .running _ _ (_ :: _) => false
  | .idle => false

/-- Whether nobody but the counter agent can move: the caller waits, or there is nothing to do and nothing to call. -/
def onlyCounter (s : State) : Bool := callerWaits s || (s.seq == .idle && s.inbox.isEmpty)

/-- What moves next. A terminal state has no step (60_exceptions R166). The counter agent moves when nobody else can
(43_counter R150) and when the schedule says so (log entry 5). Else the issuer does: the operation in progress goes on
before any packet enters (60_exceptions R173). -/
def nextAction (s : State) : NextAction :=
  if s.dev.expired.isSome then .stop .terminal
  else if onlyCounter s then .turn s
  else if counterFirst s.moves then .turn { s with moves := s.moves.tail }
  else if s.seq ≠ .idle then .proceed { s with moves := afterIssuer s.moves }
  else match s.inbox with
    | [] => .turn s
    | pk :: rest => issue pk rest s

/-- The state with a packet placed as the host's next, and the next turn the issuer's. -/
def present (pk : Packet) (s : State) : State :=
  { s with inbox := pk :: s.inbox, moves := .issuer :: s.moves }

end Sys2Proof.Machine
end

