-- ==== Sys2Proof/Machine/Step.lean ====
section
/-! DEFINITION. One step of the machine, and where the next instruction is placed. -/

namespace Sys2Proof.Machine

/-- One step (10_state R27): a turn of the counter agent (TIME or EXPIRE), the first step of a row that the host hands
over, or the next transaction of the operation in progress. -/
def step (s : State) : Host.Outcome State Fault Refusal :=
  match nextAction s with
  | .turn t => exec (counterInstr t) t
  | .enter i t => begin i t
  | .proceed t => controllerStep t
  | .stop f => .fault f
  | .reject r => .refused r

/-- The state with the packet of a table word as the host's next call or transaction (log entry 4). -/
def State.withFetchWord (s : State) (nbits w : Nat) : State :=
  match packetOf nbits w with
  | some pk => present pk s
  | none => s

end Sys2Proof.Machine
end

