-- ==== Sys2Proof/Safety.lean ====
section
/-! DEFINITION. The terms claims are stated in: operation boundaries, the mirror (10_state R19, R20, 41_controller R122),
the words the device holds, and the invariant of the machine. -/

namespace Sys2Proof.Machine

/-- An operation boundary at which a call may enter: not expired, no operation running, nobody waiting (10_state R25,
60_exceptions R173). -/
abbrev AtRest (s : State) : Prop := s.dev.expired = none ∧ s.seq = .idle ∧ s.blockUs = 0

/-- The twelve words a mirror holds at an operation boundary (30_encoding R63, 41_controller R122), written out. -/
def mirrorWords : List Word :=
  [0x12#32, 0x13#32, 0x1A#32, 0x1B#32, 0x32#32, 0x33#32, 0x3A#32, 0x3B#32, 0x52#32, 0x53#32, 0x5A#32, 0x5B#32]

/-- A controller as the operations leave it: its mirror is one of the twelve words, its ceiling is P9. -/
abbrev Controller.Sound (c : Controller) : Prop := c.ctrl ∈ mirrorWords ∧ c.maxHwHeartbeatMs = 4294967

/-- The CTRL words whose meaning the spec gives (40_register_interface R100, U5 to U7). -/
abbrev CtrlDefined (w : Word) : Prop :=
  w.extractLsb' 7 25 = 0#25 ∧ w.extractLsb' 5 2 ≠ 3#2 ∧
  (w.getLsbD 0 = true → w.getLsbD 4 = true) ∧
  (w.getLsbD 0 = true → w.getLsbD 1 = true ∨ w.getLsbD 2 = true)

/-- The sequencer in a state that has not expired: at an operation boundary nobody waits; with transactions to make nobody
waits yet; with all made the operation is force_reset and at most its time is left (10_state R17, R23 d, 41_controller
R116). -/
def SeqLegal (seq : Seq) (blockUs : Nat) : Prop :=
  match seq with
  | .idle => blockUs = 0
  | .running _ _ (_ :: _) => blockUs = 0
  | .running op _ [] => op = .forceReset ∧ blockUs ≤ 1000000

/-- The invariant of the machine. -/
def Legal (s : State) : Prop :=
  s.par.Distinct ∧
  (∀ c, s.ctl = some c → c.Sound) ∧
  (s.seq ≠ .idle → s.ctl ≠ none) ∧
  (s.dev.expired = none → SeqLegal s.seq s.blockUs) ∧
  (s.dev.expired = none → s.dev.irqLine = false ∧ s.dev.extPulse = none)

/-- The controller state Armed (10_state R20): there is a controller and bit 0 of its mirror is set. -/
abbrev Armed (s : State) : Prop := ∃ c, s.ctl = some c ∧ c.ctrl.getLsbD 0 = true

/-- The controller state Disarmed (10_state R20). -/
abbrev Disarmed (s : State) : Prop := ∃ c, s.ctl = some c ∧ c.ctrl.getLsbD 0 = false

/-- The mirror and the hardware CTRL register are equal (10_state R19). -/
abbrev MirrorSynced (s : State) : Prop := ∀ c, s.ctl = some c → s.dev.ctrl = c.ctrl

/-- Mirror and hardware CTRL agree in EN, the weak form of 10_state R19. -/
abbrev EnAgrees (s : State) : Prop := ∀ c, s.ctl = some c → s.dev.ctrl.getLsbD 0 = c.ctrl.getLsbD 0

/-- The transactions the operation in progress has still to make. -/
def Seq.todo : Seq → List Action
  | .idle => []
  | .running _ _ todo => todo

/-- A sequence in which every disabling write is followed by a write of the mirror (41_controller R111). -/
def Rearms : List Action → Prop
  | [] => True
  | a :: l => (a = .disable → .writeMirror ∈ l) ∧ Rearms l

/-- The caller waits inside force_reset for this many microseconds more, after its transactions (41_controller R116). -/
abbrev Waits (us : Nat) (s : State) : Prop := ∃ k, s.seq = .running .forceReset k [] ∧ s.blockUs = us

/-- The device's timer runs at 1 MHz and has not expired (43_counter R146). -/
abbrev Running (s : State) : Prop :=
  s.iface = .device ∧ s.dev.expired = none ∧ s.dev.ctrl.getLsbD 0 = true ∧ s.dev.ctrl.getLsbD 4 = true

/-- The device's timer is halted (43_counter R146, 00_scope glossary: Arm/Disarm). -/
abbrev Halted (s : State) : Prop := s.iface = .device ∧ s.dev.ctrl.getLsbD 0 = false

/-- A call or a raw transaction may enter: not expired, and no operation running (60_exceptions R166, R173). -/
abbrev CallMayEnter (s : State) : Prop := s.dev.expired = none ∧ s.seq = .idle

/-- An expiry is due (43_counter R147). -/
abbrev Due (s : State) : Prop :=
  s.iface = .device ∧ s.dev.expired = none ∧ s.dev.ctrl.getLsbD 0 = true ∧ s.dev.counter = 0#32

/-- A pulse duration that validation accepts (42_reset_signal R130). -/
abbrev DurationOk (d : Option Nat) : Prop := ∀ n ∈ d, n ≤ 4095

/-- How many turns the schedule gives the counter agent before the issuer's next one. -/
def leadingTurns : List Mover → Nat
  | .counter :: ms => leadingTurns ms + 1
  | _ => 0

/-- Instructions one after another, stopping at the first fault or refusal. -/
def execMany : List Instr → State → Answer
  | [], s => .next s
  | i :: is, s =>
    match exec i s with
    | .next t => execMany is t
    | .fault f => .fault f
    | .refused r => .refused r

/-- That many steps of the machine, stopping at the first fault or refusal. -/
def stepMany : Nat → State → Answer
  | 0, s => .next s
  | k + 1, s =>
    match step s with
    | .next t => stepMany k t
    | .fault f => .fault f
    | .refused r => .refused r

/-- The writes of a trace, in order. -/
def writesOf : List Transaction → List (Reg × Word)
  | [] => []
  | .write r v :: ts => (r, v) :: writesOf ts
  | .read _ _ :: ts => writesOf ts

end Sys2Proof.Machine
end

