-- ==== Sys2Proof/Certificates/Slice0/Obligations.lean ====
section
/-! DEFINITION. The statements about the model. Each docstring names the rule of the spec it formalises. States are
arbitrary: no statement is about a run from reset unless it says so. -/

open Sys2Proof Sys2Proof.Machine

/-! ## Register transactions -/

/-- 40_register_interface R92 (RD_STATUS) and R90: the counter is returned and recorded, and nothing else changes. -/
def Obligations.StatusReadReturnsCounter : Prop :=
  ∀ s : State, CallMayEnter s → s.iface = .device →
    exec .rdStatus s = .next { s with
      result := some (.word s.dev.counter)
      trace := s.trace ++ [.read .status s.dev.counter] }

/-- 40_register_interface R93, R94: a read of RELOAD_VALUE and of RESTART returns a free word (for EVERY word there are
free values that give it) and changes nothing but the trace, the answer and the free values. -/
def Obligations.OpenReadsReturnAnyWord : Prop :=
  ∀ (s : State) (v : Word), CallMayEnter s → s.iface = .device →
    (∃ f, exec .rdReloadValue s = .next { s with
        result := some (.word s.free.reloadRead)
        trace := s.trace ++ [.read .reloadValue s.free.reloadRead], free := f }) ∧
    (∃ f, exec .rdRestart s = .next { s with
        result := some (.word s.free.restartRead)
        trace := s.trace ++ [.read .restart s.free.restartRead], free := f }) ∧
    (∃ f g, exec .rdReloadValue { s with free := f } = .next { s with
        result := some (.word v), trace := s.trace ++ [.read .reloadValue v], free := g }) ∧
    (∃ f g, exec .rdRestart { s with free := f } = .next { s with
        result := some (.word v), trace := s.trace ++ [.read .restart v], free := g })

/-- 40_register_interface R95: bit 0 of a CTRL read is dev.ctrl[0]; the other bits are free, and no device state
changes. -/
def Obligations.CtrlReadPromisesBitZero : Prop :=
  ∀ s : State, CallMayEnter s → s.iface = .device →
    (∃ v f, v.getLsbD 0 = s.dev.ctrl.getLsbD 0 ∧
      exec .rdCtrl s = .next { s with
        result := some (.word v), trace := s.trace ++ [.read .ctrl v], free := f }) ∧
    (∀ v : Word, v.getLsbD 0 = s.dev.ctrl.getLsbD 0 →
      ∃ f g, exec .rdCtrl { s with free := f } = .next { s with
        result := some (.word v), trace := s.trace ++ [.read .ctrl v], free := g })

/-- 40_register_interface R96: bits 11:0, 30 and 31 of a RESET_WIDTH read are the three fields; the other bits are free,
and no device state changes. -/
def Obligations.ResetWidthReadShowsFields : Prop :=
  ∀ s : State, CallMayEnter s → s.iface = .device →
    (∃ v f, (v.extractLsb' 0 12 = s.dev.rwDur ∧ v.getLsbD 30 = s.dev.rwDrive ∧ v.getLsbD 31 = s.dev.rwPol) ∧
      exec .rdResetWidth s = .next { s with
        result := some (.word v), trace := s.trace ++ [.read .resetWidth v], free := f }) ∧
    (∀ v : Word, v.extractLsb' 0 12 = s.dev.rwDur → v.getLsbD 30 = s.dev.rwDrive → v.getLsbD 31 = s.dev.rwPol →
      ∃ f g, exec .rdResetWidth { s with free := f } = .next { s with
        result := some (.word v), trace := s.trace ++ [.read .resetWidth v], free := g })

/-- 40_register_interface R98: a RELOAD_VALUE write replaces dev.reload and touches nothing else of the device. -/
def Obligations.ReloadWriteLeavesCounter : Prop :=
  ∀ (s : State) (v : Word), CallMayEnter s → s.iface = .device →
    exec (.wrReloadValue v) s = .next { s with
      dev := { s.dev with reload := v }
      result := none, trace := s.trace ++ [.write .reloadValue v] }

/-- 40_register_interface R99: the magic write reloads the counter, with the timer enabled or not, and sets no other
field. -/
def Obligations.RestartMagicReloadsCounter : Prop :=
  ∀ s : State, CallMayEnter s → s.iface = .device →
    exec .wrRestartMagic s = .next { s with
      dev := { s.dev with counter := s.dev.reload }
      result := none, trace := s.trace ++ [.write .restart (s.par.restartMagic.setWidth 32)] }

/-- 40_register_interface R100: a word that meets the three requires replaces CTRL, and the counter is reloaded only by a
0 to 1 change of EN when ENABLE_RELOADS holds; any other word is refused. -/
def Obligations.CtrlWriteTakesEffect : Prop :=
  ∀ (s : State) (v : Word), CallMayEnter s → s.iface = .device →
    (CtrlDefined v →
      exec (.wrCtrl v) s = .next { s with
        dev := { s.dev with
          ctrl := v
          counter :=
            if s.dev.ctrl.getLsbD 0 = false ∧ v.getLsbD 0 = true ∧ s.par.enableReloads = true
            then s.dev.reload else s.dev.counter }
        result := none, trace := s.trace ++ [.write .ctrl v] }) ∧
    (¬ CtrlDefined v → ∃ r, exec (.wrCtrl v) s = .refused r)

/-- 40_register_interface R102 to R105: a tagged write stores the duration and the one flag its selector names. -/
def Obligations.TaggedWriteStoresDurationAndOneFlag : Prop :=
  ∀ (s : State) (dur : BitVec 12), CallMayEnter s → s.iface = .device →
    exec (.wrResetWidthPushPull 0#12 dur) s = .next { s with
      dev := { s.dev with rwDur := dur, rwDrive := true }
      result := none, trace := s.trace ++ [.write .resetWidth (s.par.pushPullMagic ++ 0#12 ++ dur)] } ∧
    exec (.wrResetWidthOpenDrain 0#12 dur) s = .next { s with
      dev := { s.dev with rwDur := dur, rwDrive := false }
      result := none, trace := s.trace ++ [.write .resetWidth (s.par.openDrainMagic ++ 0#12 ++ dur)] } ∧
    exec (.wrResetWidthActiveHigh 0#12 dur) s = .next { s with
      dev := { s.dev with rwDur := dur, rwPol := true }
      result := none, trace := s.trace ++ [.write .resetWidth (s.par.activeHighMagic ++ 0#12 ++ dur)] } ∧
    exec (.wrResetWidthActiveLow 0#12 dur) s = .next { s with
      dev := { s.dev with rwDur := dur, rwPol := false }
      result := none, trace := s.trace ++ [.write .resetWidth (s.par.activeLowMagic ++ 0#12 ++ dur)] }

/-- 40_register_interface R97, R100, R106, R108 and the requires of R101 (U1 to U8): the device gives a STATUS write, a RESTART
write of another word, a RESET_WIDTH write with another selector, a tagged one with bits 23:12 not zero, and a CTRL write that
breaks one of R100's requires, no meaning. The names of the refusals are the model's (log entry 27), and so is which name a
CTRL word that breaks two requires gets (log entry 28). -/
def Obligations.UndefinedWritesRefused : Prop :=
  ∀ (s : State) (v : Word) (zero dur : BitVec 12), CallMayEnter s → s.iface = .device →
    exec (.wrStatus v) s = .refused .statusReadOnly ∧
    exec (.wrRestartOther v) s = .refused .restartNotMagic ∧
    exec (.wrResetWidthOther v) s = .refused .resetWidthSelector ∧
    (zero ≠ 0#12 →
      exec (.wrResetWidthPushPull zero dur) s = .refused .resetWidthZeroField ∧
      exec (.wrResetWidthOpenDrain zero dur) s = .refused .resetWidthZeroField ∧
      exec (.wrResetWidthActiveHigh zero dur) s = .refused .resetWidthZeroField ∧
      exec (.wrResetWidthActiveLow zero dur) s = .refused .resetWidthZeroField) ∧
    (v.extractLsb' 7 25 ≠ 0#25 ∨ v.extractLsb' 5 2 = 3#2 → exec (.wrCtrl v) s = .refused .ctrlReserved) ∧
    (v.extractLsb' 7 25 = 0#25 → v.extractLsb' 5 2 ≠ 3#2 → v.getLsbD 0 = true → v.getLsbD 4 = false →
      exec (.wrCtrl v) s = .refused .ctrlClockSource) ∧
    (v.extractLsb' 7 25 = 0#25 → v.extractLsb' 5 2 ≠ 3#2 → v.getLsbD 0 = true → v.getLsbD 4 = true →
      v.getLsbD 1 = false → v.getLsbD 2 = false → exec (.wrCtrl v) s = .refused .ctrlNoAction)

/-- 40_register_interface R107: the recording fake stores each written word, whatever it is, returns the stored word on a
read, records every transaction, and has no counter and no command decoding. -/
def Obligations.FakeStoresAndReturnsWords : Prop :=
  ∀ (s : State) (v : Word) (zero dur : BitVec 12), CallMayEnter s → s.iface = .fake →
    exec .rdStatus s = .next { s with
      result := some (.word s.store.status), trace := s.trace ++ [.read .status s.store.status] } ∧
    exec .rdReloadValue s = .next { s with
      result := some (.word s.store.reloadValue), trace := s.trace ++ [.read .reloadValue s.store.reloadValue] } ∧
    exec .rdRestart s = .next { s with
      result := some (.word s.store.restart), trace := s.trace ++ [.read .restart s.store.restart] } ∧
    exec .rdCtrl s = .next { s with
      result := some (.word s.store.ctrl), trace := s.trace ++ [.read .ctrl s.store.ctrl] } ∧
    exec .rdResetWidth s = .next { s with
      result := some (.word s.store.resetWidth), trace := s.trace ++ [.read .resetWidth s.store.resetWidth] } ∧
    exec (.wrStatus v) s = .next { s with
      store := { s.store with status := v }, result := none, trace := s.trace ++ [.write .status v] } ∧
    exec (.wrReloadValue v) s = .next { s with
      store := { s.store with reloadValue := v }, result := none, trace := s.trace ++ [.write .reloadValue v] } ∧
    exec .wrRestartMagic s = .next { s with
      store := { s.store with restart := s.par.restartMagic.setWidth 32 }
      result := none, trace := s.trace ++ [.write .restart (s.par.restartMagic.setWidth 32)] } ∧
    exec (.wrRestartOther v) s = .next { s with
      store := { s.store with restart := v }, result := none, trace := s.trace ++ [.write .restart v] } ∧
    exec (.wrCtrl v) s = .next { s with
      store := { s.store with ctrl := v }, result := none, trace := s.trace ++ [.write .ctrl v] } ∧
    exec (.wrResetWidthPushPull zero dur) s = .next { s with
      store := { s.store with resetWidth := s.par.pushPullMagic ++ zero ++ dur }
      result := none, trace := s.trace ++ [.write .resetWidth (s.par.pushPullMagic ++ zero ++ dur)] } ∧
    exec (.wrResetWidthOpenDrain zero dur) s = .next { s with
      store := { s.store with resetWidth := s.par.openDrainMagic ++ zero ++ dur }
      result := none, trace := s.trace ++ [.write .resetWidth (s.par.openDrainMagic ++ zero ++ dur)] } ∧
    exec (.wrResetWidthActiveHigh zero dur) s = .next { s with
      store := { s.store with resetWidth := s.par.activeHighMagic ++ zero ++ dur }
      result := none, trace := s.trace ++ [.write .resetWidth (s.par.activeHighMagic ++ zero ++ dur)] } ∧
    exec (.wrResetWidthActiveLow zero dur) s = .next { s with
      store := { s.store with resetWidth := s.par.activeLowMagic ++ zero ++ dur }
      result := none, trace := s.trace ++ [.write .resetWidth (s.par.activeLowMagic ++ zero ++ dur)] } ∧
    exec (.wrResetWidthOther v) s = .next { s with
      store := { s.store with resetWidth := v }, result := none, trace := s.trace ++ [.write .resetWidth v] }

/-! ## The controller -/

/-- 60_exceptions R160: the configuration error is reported by validate_pulse_duration and attach alone, exactly for a
supplied duration above 4095, with that number, and changes nothing else. -/
def Obligations.OnlyLongPulsesRaiseConfigurationError : Prop :=
  (∀ (s t : State) (i : Instr) (n : Nat), i.level ≠ .agent → exec i s = .next t →
    t.result = some (.configurationError n) →
    (i = .validatePulseDuration (some n) ∨ ∃ cfg, i = .attach cfg ∧ cfg.pulseDurationTicks = some n) ∧
      4095 < n ∧ t = { s with result := some (.configurationError n) }) ∧
  (∀ (s : State) (cfg : ResolvedConfiguration) (n : Nat), CallMayEnter s → 4095 < n →
    (s.ctl ≠ none →
      exec (.validatePulseDuration (some n)) s = .next { s with result := some (.configurationError n) }) ∧
    (s.ctl = none → cfg.pulseDurationTicks = some n →
      exec (.attach cfg) s = .next { s with result := some (.configurationError n) }))

/-- 41_controller R110, timer found stopped, for every schedule of the counter agent: no write to CTRL, RELOAD_VALUE or
RESTART, the mirror is the configured flags with EN = 0, and the reset signal is configured by one read and two tagged
writes with the same duration. -/
def Obligations.AttachLeavesStoppedTimerDisarmed : Prop :=
  ∀ (s : State) (cfg : ResolvedConfiguration), AtRest s → s.par.Distinct → Halted s → s.ctl = none →
    DurationOk cfg.pulseDurationTicks →
    ∃ v w ms f l, v.getLsbD 0 = false ∧ w.extractLsb' 0 12 = s.dev.rwDur ∧
      exec (.attach cfg) s = .next { s with
        dev := { s.dev with
          rwDur := (cfg.pulseDurationTicks.map (BitVec.ofNat 12)).getD s.dev.rwDur
          rwDrive := cfg.pushPull, rwPol := cfg.activeHigh }
        ctl := some { ctrl := encCtrlFlags cfg, timeout := s.par.defaultTimeoutS, maxHwHeartbeatMs := 4294967 }
        trace := s.trace ++ [.read .ctrl v, .read .resetWidth w,
          .write .resetWidth ((if cfg.pushPull then s.par.pushPullMagic else s.par.openDrainMagic) ++ 0#12 ++
            (cfg.pulseDurationTicks.map (BitVec.ofNat 12)).getD s.dev.rwDur),
          .write .resetWidth ((if cfg.activeHigh then s.par.activeHighMagic else s.par.activeLowMagic) ++ 0#12 ++
            (cfg.pulseDurationTicks.map (BitVec.ofNat 12)).getD s.dev.rwDur)]
        result := some .ok, latch := l, moves := ms, free := f }

/-- 41_controller R110, timer found running, with no turn of the counter agent between the transactions: the full start
sequence with the controller's own flags and DEFAULT_TIMEOUT_S, then the reset signal. The value of P16 does not matter
(43_counter R152). -/
def Obligations.AttachRearmsRunningTimer : Prop :=
  ∀ (s : State) (cfg : ResolvedConfiguration), AtRest s → s.par.Distinct → s.iface = .device → s.moves = [] →
    s.dev.ctrl.getLsbD 0 = true → s.ctl = none → DurationOk cfg.pulseDurationTicks →
    ∃ v w f l, v.getLsbD 0 = true ∧ w.extractLsb' 0 12 = s.dev.rwDur ∧
      exec (.attach cfg) s = .next { s with
        dev := { s.dev with
          counter := reloadOf s.par.defaultTimeoutS, reload := reloadOf s.par.defaultTimeoutS
          ctrl := encCtrlFlags cfg ||| 1#32
          rwDur := (cfg.pulseDurationTicks.map (BitVec.ofNat 12)).getD s.dev.rwDur
          rwDrive := cfg.pushPull, rwPol := cfg.activeHigh }
        ctl := some {
          ctrl := encCtrlFlags cfg ||| 1#32, timeout := s.par.defaultTimeoutS, maxHwHeartbeatMs := 4294967 }
        trace := s.trace ++ [.read .ctrl v,
          .write .ctrl 0#32, .write .reloadValue (reloadOf s.par.defaultTimeoutS),
          .write .restart (s.par.restartMagic.setWidth 32), .write .ctrl (encCtrlFlags cfg ||| 1#32),
          .read .resetWidth w,
          .write .resetWidth ((if cfg.pushPull then s.par.pushPullMagic else s.par.openDrainMagic) ++ 0#12 ++
            (cfg.pulseDurationTicks.map (BitVec.ofNat 12)).getD s.dev.rwDur),
          .write .resetWidth ((if cfg.activeHigh then s.par.activeHighMagic else s.par.activeLowMagic) ++ 0#12 ++
            (cfg.pulseDurationTicks.map (BitVec.ofNat 12)).getD s.dev.rwDur)]
        result := some .ok, latch := l, free := f }

/-- 70_reset_and_hazards R188, for every schedule: attach on a running timer answers a next state, and unless the
watchdog expired inside it, it ends with EN = 1, mirror and CTRL equal and holding the controller's own flags. -/
def Obligations.AttachNeverLeavesRunningTimerDisabled : Prop :=
  ∀ (s : State) (cfg : ResolvedConfiguration), AtRest s → s.par.Distinct → s.iface = .device →
    s.dev.ctrl.getLsbD 0 = true → s.ctl = none → DurationOk cfg.pulseDurationTicks →
    ∃ t, exec (.attach cfg) s = .next t ∧
      (t.dev.expired = none →
        t.dev.ctrl = encCtrlFlags cfg ||| 1#32 ∧ t.dev.ctrl.getLsbD 0 = true ∧
        t.ctl = some {
          ctrl := encCtrlFlags cfg ||| 1#32, timeout := s.par.defaultTimeoutS, maxHwHeartbeatMs := 4294967 } ∧
        t.seq = .idle ∧ t.result = some .ok)

/-- 41_controller R111, R112: for EVERY schedule of the counter agent start makes its four writes in order, ends with the
counter at the new reload value and CTRL equal to the mirror with EN, and records its argument. No tick can count between
the writes, because the first one halts the timer. -/
def Obligations.StartArmsTimer : Prop :=
  ∀ (s : State) (c : Controller) (ts : Nat), AtRest s → s.iface = .device → s.ctl = some c → c.Sound →
    ∃ ms, exec (.start ts) s = .next { s with
      dev := { s.dev with counter := reloadOf ts, reload := reloadOf ts, ctrl := c.ctrl ||| 1#32 }
      ctl := some { c with ctrl := c.ctrl ||| 1#32, timeout := ts }
      trace := s.trace ++ [.write .ctrl 0#32, .write .reloadValue (reloadOf ts),
        .write .restart (s.par.restartMagic.setWidth 32), .write .ctrl (c.ctrl ||| 1#32)]
      result := some .ok, moves := ms }

/-- 41_controller R113: stop clears EN in the mirror, writes the mirror to CTRL every time, and touches neither the
counter nor the reload value. -/
def Obligations.StopHaltsTimer : Prop :=
  ∀ (s : State) (c : Controller), CallMayEnter s → s.iface = .device → s.ctl = some c → c.Sound →
    exec .stop s = .next { s with
      dev := { s.dev with ctrl := c.ctrl &&& ~~~1#32 }
      ctl := some { c with ctrl := c.ctrl &&& ~~~1#32 }
      trace := s.trace ++ [.write .ctrl (c.ctrl &&& ~~~1#32)]
      result := some .ok }

/-- 41_controller R114: ping makes the one RESTART write, in either state, and alters neither CTRL nor the reload
value nor a controller field. -/
def Obligations.PingReloadsCounter : Prop :=
  ∀ (s : State) (c : Controller), CallMayEnter s → s.iface = .device → s.ctl = some c →
    exec .ping s = .next { s with
      dev := { s.dev with counter := s.dev.reload }
      trace := s.trace ++ [.write .restart (s.par.restartMagic.setWidth 32)]
      result := some .ok }

/-- 41_controller R115: set_timeout records the request and writes the capped reload word and RESTART. With the timer
halted this holds for every schedule; with it running, for every schedule that does not let the old countdown pass its
end between the two writes. -/
def Obligations.SetTimeoutTakesEffectAtOnce : Prop :=
  ∀ (s : State) (c : Controller) (ts : Nat), AtRest s → s.iface = .device → s.ctl = some c →
    (Halted s ∨ (Running s ∧ leadingTurns s.moves ≤ s.dev.counter.toNat)) →
    ∃ ms, exec (.setTimeout ts) s = .next { s with
      dev := { s.dev with counter := reloadOf ts, reload := reloadOf ts }
      ctl := some { c with timeout := ts }
      trace := s.trace ++ [.write .reloadValue (reloadOf ts), .write .restart (s.par.restartMagic.setWidth 32)]
      result := some .ok, moves := ms }

/-- 41_controller R115 corner case (c) with 60_exceptions R166: when the schedule lets the old countdown pass its end
between the two writes, the watchdog expires there, RESTART is never written and the call does not return. -/
def Obligations.SetTimeoutCanLoseTheRace : Prop :=
  ∀ (s : State) (c : Controller) (ts : Nat), AtRest s → s.ctl = some c → Running s →
    s.dev.counter.toNat < leadingTurns s.moves →
    ∃ t, exec (.setTimeout ts) s = .next t ∧ t.dev.expired ≠ none ∧ t.dev.counter = 0#32 ∧
      t.dev.reload = reloadOf ts ∧ t.ctl = some { c with timeout := ts } ∧
      t.trace = s.trace ++ [.write .reloadValue (reloadOf ts)] ∧ t.result = none

/-- 41_controller R116, with no turn of the counter agent inside the call: force_reset arms with 128,000 ticks, leaves the
timeout, and blocks the caller for 1,000,000 microseconds without returning. -/
def Obligations.ForceResetArmsAndBlocks : Prop :=
  ∀ (s : State) (c : Controller), AtRest s → s.iface = .device → s.moves = [] → s.ctl = some c → c.Sound →
    exec .forceReset s = .next { s with
      dev := { s.dev with counter := 128000#32, reload := 128000#32, ctrl := c.ctrl ||| 1#32 }
      ctl := some { c with ctrl := c.ctrl ||| 1#32 }
      seq := .running .forceReset 4 [], blockUs := 1000000
      trace := s.trace ++ [.write .ctrl 0#32, .write .reloadValue 128000#32,
        .write .restart (s.par.restartMagic.setWidth 32), .write .ctrl (c.ctrl ||| 1#32)]
      result := none }

/-- 41_controller R117, R118: the queries give back the requested timeout and the ceiling in milliseconds, and change
nothing. -/
def Obligations.QueriesReportControllerFields : Prop :=
  ∀ (s : State) (c : Controller), CallMayEnter s → s.ctl = some c →
    exec .currentTimeout s = .next { s with result := some (.number c.timeout) } ∧
    (c.Sound → exec .maxTimeout s = .next { s with result := some (.number 4294967) })

/-- 41_controller R111 to R116 and 20_memory R55 on the recording fake of 40_register_interface R107, for every schedule:
the writes of each operation, in order, and the table they leave. The fake has no counter, so force_reset only blocks, and
TIME only lowers a wait (log entry 21). -/
def Obligations.FakeRecordsOperationWrites : Prop :=
  ∀ (s : State) (c : Controller) (ts : Nat), AtRest s → s.iface = .fake → s.ctl = some c →
    (∃ ms, exec (.start ts) s = .next { s with
      store := { s.store with
        ctrl := c.ctrl ||| 1#32, reloadValue := reloadOf ts, restart := s.par.restartMagic.setWidth 32 }
      ctl := some { c with ctrl := c.ctrl ||| 1#32, timeout := ts }
      trace := s.trace ++ [.write .ctrl 0#32, .write .reloadValue (reloadOf ts),
        .write .restart (s.par.restartMagic.setWidth 32), .write .ctrl (c.ctrl ||| 1#32)]
      result := some .ok, moves := ms }) ∧
    exec .stop s = .next { s with
      store := { s.store with ctrl := c.ctrl &&& ~~~1#32 }, ctl := some { c with ctrl := c.ctrl &&& ~~~1#32 }
      trace := s.trace ++ [.write .ctrl (c.ctrl &&& ~~~1#32)], result := some .ok } ∧
    exec .ping s = .next { s with
      store := { s.store with restart := s.par.restartMagic.setWidth 32 }
      trace := s.trace ++ [.write .restart (s.par.restartMagic.setWidth 32)], result := some .ok } ∧
    (∃ ms, exec (.setTimeout ts) s = .next { s with
      store := { s.store with reloadValue := reloadOf ts, restart := s.par.restartMagic.setWidth 32 }
      ctl := some { c with timeout := ts }
      trace := s.trace ++ [.write .reloadValue (reloadOf ts), .write .restart (s.par.restartMagic.setWidth 32)]
      result := some .ok, moves := ms }) ∧
    (∃ ms, exec .forceReset s = .next { s with
      store := { s.store with
        ctrl := c.ctrl ||| 1#32, reloadValue := 128000#32, restart := s.par.restartMagic.setWidth 32 }
      ctl := some { c with ctrl := c.ctrl ||| 1#32 }
      seq := .running .forceReset 4 [], blockUs := 1000000
      trace := s.trace ++ [.write .ctrl 0#32, .write .reloadValue 128000#32,
        .write .restart (s.par.restartMagic.setWidth 32), .write .ctrl (c.ctrl ||| 1#32)]
      result := none, moves := ms }) ∧
    (∀ us, exec .time { s with blockUs := us } = .next { s with blockUs := us - 1 })

/-- 42_reset_signal R131 to R133 and 41_controller R110 (with 95_test_vectors E7) on the recording fake of
40_register_interface R107, for every schedule: the reads and writes of the configurator (once there is a controller) and of
attach (while there is none), in order, and what they leave. A fake that reports the enable bit set makes attach re-issue the
full start sequence with its own flags, whatever the prior ones. -/
def Obligations.FakeRecordsConfiguratorAndAttach : Prop :=
  ∀ (s : State) (cfg : ResolvedConfiguration) (dur old : BitVec 12) (drv pol : BitVec 8), AtRest s → s.iface = .fake →
    DurationOk cfg.pulseDurationTicks → old = s.store.resetWidth.extractLsb' 0 12 →
    dur = (cfg.pulseDurationTicks.map (BitVec.ofNat 12)).getD old →
    drv = (if cfg.pushPull then s.par.pushPullMagic else s.par.openDrainMagic) →
    pol = (if cfg.activeHigh then s.par.activeHighMagic else s.par.activeLowMagic) →
    (s.ctl ≠ none →
      (∃ ms l, exec (.setDriveMode cfg.pushPull) s = .next { s with
        store := { s.store with resetWidth := drv ++ 0#12 ++ old }
        trace := s.trace ++ [.read .resetWidth s.store.resetWidth, .write .resetWidth (drv ++ 0#12 ++ old)]
        result := some .ok, latch := l, moves := ms }) ∧
      (∃ ms l, exec (.setPolarity cfg.activeHigh) s = .next { s with
        store := { s.store with resetWidth := pol ++ 0#12 ++ old }
        trace := s.trace ++ [.read .resetWidth s.store.resetWidth, .write .resetWidth (pol ++ 0#12 ++ old)]
        result := some .ok, latch := l, moves := ms }) ∧
      (∃ ms l, exec (.configureResetSignal cfg) s = .next { s with
        store := { s.store with resetWidth := pol ++ 0#12 ++ dur }
        trace := s.trace ++ [.read .resetWidth s.store.resetWidth,
          .write .resetWidth (drv ++ 0#12 ++ dur), .write .resetWidth (pol ++ 0#12 ++ dur)]
        result := some .ok, latch := l, moves := ms })) ∧
    (s.ctl = none → s.store.ctrl.getLsbD 0 = false →
      ∃ ms l, exec (.attach cfg) s = .next { s with
        store := { s.store with resetWidth := pol ++ 0#12 ++ dur }
        ctl := some { ctrl := encCtrlFlags cfg, timeout := s.par.defaultTimeoutS, maxHwHeartbeatMs := 4294967 }
        trace := s.trace ++ [.read .ctrl s.store.ctrl, .read .resetWidth s.store.resetWidth,
          .write .resetWidth (drv ++ 0#12 ++ dur), .write .resetWidth (pol ++ 0#12 ++ dur)]
        result := some .ok, latch := l, moves := ms }) ∧
    (s.ctl = none → s.store.ctrl.getLsbD 0 = true →
      ∃ ms l, exec (.attach cfg) s = .next { s with
        store := { s.store with
          ctrl := encCtrlFlags cfg ||| 1#32, reloadValue := reloadOf s.par.defaultTimeoutS
          restart := s.par.restartMagic.setWidth 32, resetWidth := pol ++ 0#12 ++ dur }
        ctl := some {
          ctrl := encCtrlFlags cfg ||| 1#32, timeout := s.par.defaultTimeoutS, maxHwHeartbeatMs := 4294967 }
        trace := s.trace ++ [.read .ctrl s.store.ctrl,
          .write .ctrl 0#32, .write .reloadValue (reloadOf s.par.defaultTimeoutS),
          .write .restart (s.par.restartMagic.setWidth 32), .write .ctrl (encCtrlFlags cfg ||| 1#32),
          .read .resetWidth s.store.resetWidth,
          .write .resetWidth (drv ++ 0#12 ++ dur), .write .resetWidth (pol ++ 0#12 ++ dur)]
        result := some .ok, latch := l, moves := ms })

/-- The stops on calls outside the spec, by the model's names: an operation other than attach before attach
(70_reset_and_hazards R186, log entry 8), a second attach when there is a controller (41_controller R110 c, log entry 10), and
configure_reset_signal with a duration that validation rejects (42_reset_signal R131, log entry 17). -/
def Obligations.CallsOutsideTheSpecStop : Prop :=
  ∀ (s : State) (i : Instr) (n : Nat) (cfg : ResolvedConfiguration), CallMayEnter s →
    (s.ctl = none → i.level = .cmd → (∀ cfg, i ≠ .attach cfg) → exec i s = .fault .notAttached) ∧
    (s.ctl ≠ none → exec (.attach cfg) s = .refused .secondAttach) ∧
    (s.ctl ≠ none → cfg.pulseDurationTicks = some n → 4095 < n →
      exec (.configureResetSignal cfg) s = .refused .pulseNotValidated)

/-- 41_controller R121 and R120, 60_exceptions R161: with a controller, from an operation boundary and for every schedule,
every operation but attach answers a next state; unless the watchdog expired inside it, and but for force_reset, which
blocks, it has returned: ok, a number, or the validation error. -/
def Obligations.OperationsAlwaysReturn : Prop :=
  ∀ (s : State) (c : Controller) (i : Instr), AtRest s → s.par.Distinct → s.ctl = some c → c.Sound → i.level = .cmd →
    (∀ cfg, i ≠ .attach cfg) → i.wellFormed s.par = true →
    ∃ t, exec i s = .next t ∧
      (t.dev.expired = none → i ≠ .forceReset →
        t.seq = .idle ∧ t.blockUs = 0 ∧
        (t.result = some .ok ∨
          (i = .currentTimeout ∧ t.result = some (.number c.timeout)) ∨
          (i = .maxTimeout ∧ t.result = some (.number 4294967)) ∨
          ∃ n, 4095 < n ∧ i = .validatePulseDuration (some n) ∧ t.result = some (.configurationError n)))

/-! ## The configurator -/

/-- 42_reset_signal R130: an absent duration and one up to 4095 pass, a larger one is the error; either way nothing else
changes. -/
def Obligations.ValidationAcceptsUpTo4095 : Prop :=
  ∀ (s : State) (d : Option Nat), CallMayEnter s → s.ctl ≠ none →
    (DurationOk d → exec (.validatePulseDuration d) s = .next { s with result := some .ok }) ∧
    (∀ n, d = some n → 4095 < n →
      exec (.validatePulseDuration d) s = .next { s with result := some (.configurationError n) })

/-- 42_reset_signal R131, with the timer halted (every schedule) or no turn of the counter agent inside the call: one
read, the tagged drive-mode write, the tagged polarity write, both with the duration that was supplied or else read. -/
def Obligations.ConfigureWritesDriveThenPolarity : Prop :=
  ∀ (s : State) (cfg : ResolvedConfiguration), AtRest s → s.par.Distinct → s.iface = .device → s.ctl ≠ none →
    (Halted s ∨ s.moves = []) → DurationOk cfg.pulseDurationTicks →
    ∃ w ms f l, w.extractLsb' 0 12 = s.dev.rwDur ∧
      exec (.configureResetSignal cfg) s = .next { s with
        dev := { s.dev with
          rwDur := (cfg.pulseDurationTicks.map (BitVec.ofNat 12)).getD s.dev.rwDur
          rwDrive := cfg.pushPull, rwPol := cfg.activeHigh }
        trace := s.trace ++ [.read .resetWidth w,
          .write .resetWidth ((if cfg.pushPull then s.par.pushPullMagic else s.par.openDrainMagic) ++ 0#12 ++
            (cfg.pulseDurationTicks.map (BitVec.ofNat 12)).getD s.dev.rwDur),
          .write .resetWidth ((if cfg.activeHigh then s.par.activeHighMagic else s.par.activeLowMagic) ++ 0#12 ++
            (cfg.pulseDurationTicks.map (BitVec.ofNat 12)).getD s.dev.rwDur)]
        result := some .ok, latch := l, moves := ms, free := f }

/-- 42_reset_signal R132, R133, with the timer halted (every schedule) or no turn of the counter agent inside the call:
each of the two is a read-modify-write of its own that changes its one flag and keeps the duration. -/
def Obligations.TaggedUpdatesKeepDuration : Prop :=
  ∀ (s : State) (b : Bool), AtRest s → s.par.Distinct → s.iface = .device → s.ctl ≠ none →
    (Halted s ∨ s.moves = []) →
    (∃ w ms f l, w.extractLsb' 0 12 = s.dev.rwDur ∧
      exec (.setDriveMode b) s = .next { s with
        dev := { s.dev with rwDrive := b }
        trace := s.trace ++ [.read .resetWidth w, .write .resetWidth
          ((if b then s.par.pushPullMagic else s.par.openDrainMagic) ++ 0#12 ++ s.dev.rwDur)]
        result := some .ok, latch := l, moves := ms, free := f }) ∧
    (∃ w ms f l, w.extractLsb' 0 12 = s.dev.rwDur ∧
      exec (.setPolarity b) s = .next { s with
        dev := { s.dev with rwPol := b }
        trace := s.trace ++ [.read .resetWidth w, .write .resetWidth
          ((if b then s.par.activeHighMagic else s.par.activeLowMagic) ++ 0#12 ++ s.dev.rwDur)]
        result := some .ok, latch := l, moves := ms, free := f })

/-- 42_reset_signal R131 to R133, for every schedule: the three operations answer a next state, and whatever the counter
agent does in between, the fields of RESET_WIDTH end as the rules say unless the watchdog expired first. -/
def Obligations.ConfiguratorUnaffectedByCounter : Prop :=
  ∀ (s : State) (cfg : ResolvedConfiguration), CallMayEnter s → s.par.Distinct → s.iface = .device → s.ctl ≠ none →
    DurationOk cfg.pulseDurationTicks →
    (∃ t, exec (.configureResetSignal cfg) s = .next t ∧
      (t.dev.expired = none →
        t.dev.rwDur = (cfg.pulseDurationTicks.map (BitVec.ofNat 12)).getD s.dev.rwDur ∧
        t.dev.rwDrive = cfg.pushPull ∧ t.dev.rwPol = cfg.activeHigh ∧ t.dev.ctrl = s.dev.ctrl ∧
        t.dev.reload = s.dev.reload ∧ t.ctl = s.ctl)) ∧
    (∃ t, exec (.setDriveMode cfg.pushPull) s = .next t ∧
      (t.dev.expired = none →
        t.dev.rwDur = s.dev.rwDur ∧ t.dev.rwDrive = cfg.pushPull ∧ t.dev.rwPol = s.dev.rwPol ∧
        t.dev.ctrl = s.dev.ctrl ∧ t.dev.reload = s.dev.reload ∧ t.ctl = s.ctl)) ∧
    (∃ t, exec (.setPolarity cfg.activeHigh) s = .next t ∧
      (t.dev.expired = none →
        t.dev.rwDur = s.dev.rwDur ∧ t.dev.rwDrive = s.dev.rwDrive ∧ t.dev.rwPol = cfg.activeHigh ∧
        t.dev.ctrl = s.dev.ctrl ∧ t.dev.reload = s.dev.reload ∧ t.ctl = s.ctl))

/-- 42_reset_signal R136: on the device and on the recording fake, configure_reset_signal with no duration supplied leaves
the same device, the same table and the same written words as set_drive_mode followed by set_polarity. -/
def Obligations.OneReadShapeEqualsTwoReadShape : Prop :=
  ∀ (s : State) (cfg : ResolvedConfiguration), AtRest s → s.par.Distinct → s.moves = [] → s.ctl ≠ none →
    cfg.pulseDurationTicks = none →
    ∃ t u, exec (.configureResetSignal cfg) s = .next t ∧
      execMany [.setDriveMode cfg.pushPull, .setPolarity cfg.activeHigh] s = .next u ∧
      t.dev = u.dev ∧ t.store = u.store ∧ writesOf t.trace = writesOf u.trace

/-! ## The counter agent -/

/-- 43_counter R145, R151, on the device: one TIME step takes one off a running counter that is not zero, lowers a counter
with CLK1M = 0 by any amount (every value up to the present one is possible), leaves it with EN = 0, and takes one off
block_us; it is not enabled while an expiry is due. Nothing else changes but the free values. -/
def Obligations.TimeCountsOnlyWhileEnabled : Prop :=
  ∀ s : State, s.dev.expired = none →
    (Running s → s.dev.counter ≠ 0#32 →
      exec .time s = .next { s with
        dev := { s.dev with counter := s.dev.counter - 1#32 }, blockUs := s.blockUs - 1 }) ∧
    (s.iface = .device → s.dev.ctrl.getLsbD 0 = true → s.dev.ctrl.getLsbD 4 = false → s.dev.counter ≠ 0#32 →
      (∃ x f, x.toNat ≤ s.dev.counter.toNat ∧
        exec .time s = .next { s with
          dev := { s.dev with counter := x }, blockUs := s.blockUs - 1, free := f }) ∧
      (∀ x : Word, x.toNat ≤ s.dev.counter.toNat →
        ∃ f g, exec .time { s with free := f } = .next { s with
          dev := { s.dev with counter := x }, blockUs := s.blockUs - 1, free := g })) ∧
    (Halted s → exec .time s = .next { s with blockUs := s.blockUs - 1 }) ∧
    (Due s → ∀ t, exec .time s ≠ .next t)

/-- 41_controller R116, R121: while microseconds are left, force_reset has not returned after a step; when none is left and no
reset has ended the caller, its return is the controller's next step, which comes when the schedule gives the issuer the turn
(log entry 22) and changes nothing else. -/
def Obligations.ForceResetReturnsAfterItsWait : Prop :=
  ∀ (s : State) (k : Nat), s.dev.expired = none → s.seq = .running .forceReset k [] →
    (s.blockUs ≠ 0 → ∀ t, step s = .next t → t.seq = s.seq ∧ t.result = s.result) ∧
    (s.blockUs = 0 → s.moves = [] → step s = .next { s with seq := .idle, result := some .ok }) ∧
    (∀ ms, s.blockUs = 0 → s.moves = .issuer :: ms →
      step s = .next { s with seq := .idle, result := some .ok, moves := ms })

/-- 43_counter R147 with 60_exceptions R162, R163, R164: EXPIRE records the reset of the part SCOPE names when RST is
set, the interrupt when INTR is set, the pulse when EXT is set, and changes nothing else but the two outputs, which
`CounterAgentLeavesRegisters` is about. What SCOPE = 11 names, which the spec does not define, the statement leaves open. -/
def Obligations.ExpireRecordsActions : Prop :=
  ∀ s : State, Due s → s.dev.ctrl.getLsbD 1 = true ∨ s.dev.ctrl.getLsbD 2 = true →
    ∃ other irq ext, exec .expire s = .next { s with dev := { s.dev with
      expired := some (.actions
        (if s.dev.ctrl.getLsbD 1 then some
          (if s.dev.ctrl.extractLsb' 5 2 = 0#2 then .soc
            else if s.dev.ctrl.extractLsb' 5 2 = 1#2 then .fullChip
            else if s.dev.ctrl.extractLsb' 5 2 = 2#2 then .cpuOnly else other)
          else none)
        (s.dev.ctrl.getLsbD 2)
        (if s.dev.ctrl.getLsbD 3
          then some { ticks := s.dev.rwDur, activeHigh := s.dev.rwPol, pushPull := s.dev.rwDrive } else none))
      irqLine := irq, extPulse := ext } }

/-- 60_exceptions R165 (d): an expiry with RST = 0 and INTR = 0 is recorded as unspecified and is terminal all the
same. That the record keeps the pulse of R164 is the model's (log entry 14). -/
def Obligations.ExpiryWithoutActionIsUnspecified : Prop :=
  ∀ s : State, Due s → s.dev.ctrl.getLsbD 1 = false → s.dev.ctrl.getLsbD 2 = false →
    ∃ p t, exec .expire s = .next t ∧ t.dev.expired = some (.unspecified p) ∧ ∀ i, exec i t = .fault .terminal

/-- 43_counter R145, R147: in a state that has not expired exactly one of TIME and EXPIRE is enabled; the other stops by
the model's name for it (log entry 13). -/
def Obligations.ExactlyOneCounterStepEnabled : Prop :=
  ∀ s : State, s.dev.expired = none →
    (Due s → exec .time s = .fault .timeDisabled ∧ ∃ t, exec .expire s = .next t) ∧
    (¬ Due s → exec .expire s = .fault .expireDisabled ∧ ∃ t, exec .time s = .next t)

/-- 60_exceptions R166: after an expiry no instruction and no step is enabled; the name of the stop is the model's (log
entry 12). -/
def Obligations.TerminalStateHasNoStep : Prop :=
  ∀ (s : State) (r : ExpiryRecord), s.dev.expired = some r →
    (∀ i, exec i s = .fault .terminal) ∧ step s = .fault .terminal

/-- 60_exceptions R173 and 41_controller R120: while an operation has not returned no call and no transaction enters, and no
step takes a packet of the host; while force_reset waits a step does answer a next state. The name callBlocked is the model's
(log entry 11). -/
def Obligations.BlockedCallerHoldsUpTheHost : Prop :=
  ∀ s : State, s.dev.expired = none → s.seq ≠ .idle →
    (∀ i : Instr, i.level ≠ .agent → exec i s = .fault .callBlocked) ∧
    (∀ t, step s = .next t → t.inbox = s.inbox) ∧
    (∀ us, Waits us s → ∃ t, step s = .next t)

/-- 43_counter R150, R153: with nothing called any more a running timer counts down one a step, and expires after exactly
as many TIME steps as the counter held. The exact count rests on D25 (a reload of N gives N ticks to zero, log entry 24), and
the outputs on log entry 23. -/
def Obligations.RunningTimerExpiresOnTime : Prop :=
  ∀ s : State, Running s → s.seq = .idle → s.blockUs = 0 → s.inbox = [] →
    (∀ k, k ≤ s.dev.counter.toNat →
      stepMany k s = .next { s with dev := { s.dev with counter := s.dev.counter - BitVec.ofNat 32 k } }) ∧
    ∃ r, stepMany (s.dev.counter.toNat + 1) s = .next { s with dev := { s.dev with
      counter := 0#32, expired := some r
      irqLine := s.dev.irqLine || s.dev.ctrl.getLsbD 2
      extPulse := if s.dev.ctrl.getLsbD 3
        then some { ticks := s.dev.rwDur, activeHigh := s.dev.rwPol, pushPull := s.dev.rwDrive }
        else s.dev.extPulse } }

/-- 43_counter R150, R153 with 41_controller R112 and 30_encoding R64: after start(ts) and no further call, for every
schedule inside start, the timer resets a part of the system after exactly min(ts * 1000, 4294967) * 1000 TIME steps, and
not before. The exact count rests on D25 (log entry 24). -/
def Obligations.StartThenSilenceResetsOnTime : Prop :=
  ∀ (s : State) (c : Controller) (ts : Nat), AtRest s → s.iface = .device → s.ctl = some c → c.Sound → s.inbox = [] →
    ∃ t, exec (.start ts) s = .next t ∧
      (∀ k, k ≤ min (ts * 1000) 4294967 * 1000 → ∃ u, stepMany k t = .next u ∧ u.dev.expired = none) ∧
      ∃ u scope pulse, stepMany (min (ts * 1000) 4294967 * 1000 + 1) t = .next u ∧
        u.dev.expired = some (.actions (some scope) false pulse)

/-- 41_controller R116 with 60_exceptions R166: force_reset ends in a hardware reset and never returns, for every schedule
inside the call and whatever the host has queued. The bound 128001 rests on D25, and that the reset comes before the wait is
over on D33 (one clock), both in log entry 24. -/
def Obligations.ForceResetAlwaysEndsInReset : Prop :=
  ∀ (s : State) (c : Controller), AtRest s → s.iface = .device → s.ctl = some c → c.Sound →
    ∃ t, exec .forceReset s = .next t ∧
      ∃ n u scope pulse, n ≤ 128001 ∧ stepMany n t = .next u ∧
        u.dev.expired = some (.actions (some scope) false pulse) ∧ u.result = none ∧ u.inbox = s.inbox

/-! ## Encodings -/

/-- 30_encoding R60, R71, R75: for every instruction with a packet and every operand, decoding the packet gives the
instruction back; only the two AGENT rows have none. The bytes of a packet are the model's (log entries 15, 16). -/
def Obligations.DecodeInvertsEncode : Prop :=
  ∀ (p : Config.Params) (i : Instr), p.Distinct → i.wellFormed p = true →
    (i.level = .agent ↔ encode p i = none) ∧ ∀ pk, encode p i = some pk → decode p pk = .ok i

/-- 30_encoding R60, R71, R75, 20_memory R44: whatever decodes is an instruction whose encoding is that packet, but for the
data of a read, which R60 ignores; so no offset outside the five, no set bit of 47:41, no index above 11 and no argument of
another kind decodes (log entries 15, 16). And what decodes is well-formed for its row, except that configure_reset_signal
carries any configuration the host hands over. -/
def Obligations.OnlyMapWordsDecode : Prop :=
  ∀ (p : Config.Params) (pk : Packet) (i : Instr), decode p pk = .ok i →
    (∃ pk', encode p i = some pk' ∧
      (pk' = pk ∨ ∃ w w', pk = .bus w ∧ pk' = .bus w' ∧ w.getLsbD 40 = false ∧
        w'.extractLsb' 32 16 = w.extractLsb' 32 16 ∧ w'.extractLsb' 0 32 = 0#32)) ∧
    ((∀ cfg, i ≠ .configureResetSignal cfg) → i.wellFormed p = true)

/-- 95_test_vectors PR1 to PR6: packed words written out there, with the table's magic values (PRESUMED, log entry 1), decode
to the transactions they stand for. -/
def Obligations.SpecWordsDecode : Prop :=
  decode Config.Params.known (.bus 0x00C00000000#48) = .ok .rdCtrl ∧
  decode Config.Params.known (.bus 0x10401C9C380#48) = .ok (.wrReloadValue 30000000#32) ∧
  decode Config.Params.known (.bus 0x10800004755#48) = .ok .wrRestartMagic ∧
  decode Config.Params.known (.bus 0x10C00000033#48) = .ok (.wrCtrl 0x33#32) ∧
  decode Config.Params.known (.bus 0x118A80003E8#48) = .ok (.wrResetWidthPushPull 0#12 1000#12) ∧
  decode Config.Params.known (.bus 0x1185A0000FF#48) = .ok (.wrResetWidthActiveLow 0#12 255#12) ∧
  decode Config.Params.known (.cmd 5#8 .nothing) = .ok .forceReset

/-- 30_encoding R64: the reload word is exact up to 4294 seconds, the ceiling above, and never wraps. -/
def Obligations.ReloadWordCapsAtCeiling : Prop :=
  ∀ ts : Nat, (ts ≤ 4294 → (reloadOf ts).toNat = ts * 1000000) ∧ (4295 ≤ ts → (reloadOf ts).toNat = 4294967000)

/-- 30_encoding R62, R63: the configured flag word, field by field, and that it is one of the twelve mirror words. -/
def Obligations.CtrlFlagsFollowConfiguration : Prop :=
  ∀ cfg : ResolvedConfiguration,
    (encCtrlFlags cfg).getLsbD 0 = false ∧ (encCtrlFlags cfg).getLsbD 1 = true ∧
    (encCtrlFlags cfg).getLsbD 2 = false ∧ (encCtrlFlags cfg).getLsbD 3 = cfg.externalSignal ∧
    (encCtrlFlags cfg).getLsbD 4 = true ∧
    (cfg.resetScope = .soc → (encCtrlFlags cfg).extractLsb' 5 2 = 0#2) ∧
    (cfg.resetScope = .system → (encCtrlFlags cfg).extractLsb' 5 2 = 1#2) ∧
    (cfg.resetScope = .cpu → (encCtrlFlags cfg).extractLsb' 5 2 = 2#2) ∧
    (encCtrlFlags cfg).extractLsb' 7 25 = 0#25 ∧
    encCtrlFlags cfg ∈ mirrorWords ∧ encCtrlFlags cfg ||| 1#32 ∈ mirrorWords

/-- 30_encoding R77: the RESET_WIDTH encoding keeps the duration and the selector apart, and a masked read always
fits. -/
def Obligations.ResetWidthEncodingRoundTrip : Prop :=
  ∀ (dur : Nat) (sel : BitVec 8) (w : Word), dur ≤ 4095 →
    ((encRw (word32 dur) sel).extractLsb' 0 12).toNat = dur ∧
    (encRw (word32 dur) sel).extractLsb' 24 8 = sel ∧
    (encRw (word32 dur) sel).extractLsb' 12 12 = 0#12 ∧
    (w &&& durMask).toNat ≤ 4095

/-! ## The whole machine -/

/-- 10_state R27, R28 and log entries 4, 5: when the host's next packet decodes and the schedule gives the issuer the turn (or
says nothing), a step is the first step of that row, with the packet taken out and the turn used up. For a register
transaction, a query and the validation that step is the whole instruction. The packet of a table word, once presented, is
what the very next step runs, from the state as it was. -/
def Obligations.StepRunsDecodedInstruction : Prop :=
  ∀ (s : State) (i : Instr), CallMayEnter s →
    (∀ pk rest, s.inbox = pk :: rest → decode s.par pk = .ok i →
      (s.moves = [] → step s = begin i { s with inbox := rest }) ∧
      (∀ ms, s.moves = .issuer :: ms → step s = begin i { s with inbox := rest, moves := ms })) ∧
    (i.level = .bus ∨ i = .currentTimeout ∨ i = .maxTimeout ∨ (∃ d, i = .validatePulseDuration d) →
      begin i s = exec i s) ∧
    (∀ nbits w, s.par = Config.Params.known → decodeTableWord nbits w = some i →
      step (s.withFetchWord nbits w) = begin i s)

/-- 10_state R27 and log entries 5, 29: the steps from the entry of a packet make up the whole instruction: for every schedule
there is a number of steps after which the machine is where `exec` puts it, or stops as `exec` does. -/
def Obligations.StepsMakeUpTheInstruction : Prop :=
  ∀ (s : State) (pk : Packet) (rest : List Packet) (i : Instr), CallMayEnter s → s.inbox = pk :: rest →
    decode s.par pk = .ok i →
    (s.moves = [] → ∃ n, stepMany (n + 1) s = exec i { s with inbox := rest }) ∧
    (∀ ms, s.moves = .issuer :: ms → ∃ n, stepMany (n + 1) s = exec i { s with inbox := rest, moves := ms })

/-- 10_state R17, R27 and 41_controller R111: one step of the controller per transaction, by the example of start with no turn
of the counter agent inside it: its four steps, and the state after each one. The steps still to make stand in seq beside the
position (log entry 29). -/
def Obligations.StartTakesOneStepPerWrite : Prop :=
  ∀ (s : State) (c : Controller) (ts : Nat) (rest : List Packet) (s1 s2 s3 s4 : State), AtRest s → s.iface = .device →
    s.ctl = some c → c.Sound → s.moves = [] → s.inbox = .cmd 1#8 (.seconds ts) :: rest →
    s1 = { s with
      inbox := rest, result := none, dev := { s.dev with ctrl := 0#32 }
      ctl := some { c with ctrl := c.ctrl ||| 1#32, timeout := ts }
      trace := s.trace ++ [.write .ctrl 0#32]
      seq := .running .start 1 [.load (reloadOf ts), .restart, .writeMirror] } →
    s2 = { s1 with
      dev := { s1.dev with reload := reloadOf ts }, trace := s1.trace ++ [.write .reloadValue (reloadOf ts)]
      seq := .running .start 2 [.restart, .writeMirror] } →
    s3 = { s2 with
      dev := { s2.dev with counter := reloadOf ts }
      trace := s2.trace ++ [.write .restart (s.par.restartMagic.setWidth 32)]
      seq := .running .start 3 [.writeMirror] } →
    s4 = { s3 with
      dev := { s3.dev with ctrl := c.ctrl ||| 1#32 }, trace := s3.trace ++ [.write .ctrl (c.ctrl ||| 1#32)]
      seq := .idle, result := some .ok } →
    step s = .next s1 ∧ step s1 = .next s2 ∧ step s2 = .next s3 ∧ step s3 = .next s4

/-- 43_counter R145, R147, R150 and log entry 5: with nothing to call and no operation running, or while the caller of
force_reset waits, a step is the counter agent's: EXPIRE when it is due, else TIME. Where somebody else could move, it is the
counter agent's when the schedule says so. -/
def Obligations.StepRunsCounterAgent : Prop :=
  ∀ s : State, s.dev.expired = none →
    ((s.seq = .idle ∧ s.inbox = []) ∨ (∃ us, us ≠ 0 ∧ Waits us s) →
      (Due s → step s = exec .expire s) ∧ (¬ Due s → step s = exec .time s)) ∧
    (∀ ms, (s.seq = .idle ∧ s.inbox ≠ []) ∨ s.seq.todo ≠ [] ∨ Waits 0 s → s.moves = .counter :: ms →
      (Due s → step s = exec .expire { s with moves := ms }) ∧
      (¬ Due s → step s = exec .time { s with moves := ms }))

/-- 41_controller R122, 10_state R17, R23 (d), R25: every step keeps the invariant, from every device state; and, apart from
it, once CTRL holds a word whose meaning the spec gives (40_register_interface R100) it holds one for ever. -/
def Obligations.StepKeepsInvariant : Prop :=
  (∀ s t : State, Legal s → step s = .next t → Legal t) ∧
  (∀ s t : State, CtrlDefined s.dev.ctrl → step s = .next t → CtrlDefined t.dev.ctrl)

/-- 10_state R25: the state after reset meets the invariant, with the parameters of log entries 1 and 2; and its CTRL word,
which is the model's choice (log entry 3), is one whose meaning the spec gives. -/
def Obligations.ResetMeetsInvariant : Prop := Legal State.reset ∧ CtrlDefined State.reset.dev.ctrl

/-- 10_state R17, R27, 20_memory R54: a step makes at most one transaction, which is the trace's new last entry; inside an
operation it is a turn of the counter agent, which moves nothing of the sequencer, or exactly one transaction, after which
the operation is over or has made one more. A step never changes the parameters or the interface handed in (10_state R28). -/
def Obligations.StepMakesAtMostOneTransaction : Prop :=
  ∀ s t : State, step s = .next t →
    (∃ l, l.length ≤ 1 ∧ t.trace = s.trace ++ l) ∧ t.par = s.par ∧ t.iface = s.iface ∧
    (∀ op k a l, s.seq = .running op k (a :: l) →
      (t.trace = s.trace ∧ t.seq = s.seq) ∨
      ∃ e, t.trace = s.trace ++ [e] ∧ (t.seq = .idle ∨ ∃ l', t.seq = .running op (k + 1) l'))

/-- 41_controller R119: what each operation leaves the controller in, for every schedule and also when an expiry cuts the
operation short. -/
def Obligations.OperationsMoveBetweenArmedAndDisarmed : Prop :=
  ∀ (s t : State) (ts : Nat), s.ctl.isSome →
    (exec (.start ts) s = .next t → Armed t) ∧
    (exec .forceReset s = .next t → Armed t) ∧
    (exec .stop s = .next t → Disarmed t) ∧
    (exec .ping s = .next t → t.ctl = s.ctl) ∧
    (exec (.setTimeout ts) s = .next t → (Armed t ↔ Armed s)) ∧
    (exec .currentTimeout s = .next t → t.ctl = s.ctl) ∧
    (exec .maxTimeout s = .next t → t.ctl = s.ctl)

/-- 41_controller R122: nothing but attach, start, stop and force_reset writes the mirror. -/
def Obligations.OnlyFourOperationsWriteTheMirror : Prop :=
  ∀ (i : Instr) (s t : State), exec i s = .next t →
    (∀ cfg, i ≠ .attach cfg) → (∀ ts, i ≠ .start ts) → i ≠ .stop → i ≠ .forceReset →
    t.ctl.map Controller.ctrl = s.ctl.map Controller.ctrl

/-- 10_state R19, on the device: no operation and no step of the counter agent leaves mirror and CTRL divergent, neither in
the strong form (equal) nor in the weak form (equal EN) that holds from attach on; the one instruction that can is a raw CTRL
write beside the controller. Step by step: inside an operation a divergence of EN always has the mirror's write still to
come, so at every operation boundary EN agrees. -/
def Obligations.MirrorStaysSynced : Prop :=
  (∀ (i : Instr) (s t : State), s.iface = .device → exec i s = .next t → (∀ v, i ≠ .wrCtrl v) → t.dev.expired = none →
    (s.ctl.isSome → MirrorSynced s → MirrorSynced t) ∧ (EnAgrees s → EnAgrees t)) ∧
  (∀ s t : State, s.iface = .device → step s = .next t →
    (∀ pk rest v, s.inbox = pk :: rest → decode s.par pk ≠ .ok (.wrCtrl v)) →
    Rearms s.seq.todo → EnAgrees s ∨ .writeMirror ∈ s.seq.todo →
    Rearms t.seq.todo ∧ (EnAgrees t ∨ .writeMirror ∈ t.seq.todo))

/-- 10_state R11, 43_counter R148: with no turn of the counter agent inside it, an instruction changes the counter only
if it is a magic write, a CTRL write, an operation that makes a magic write, or TIME. -/
def Obligations.OnlyReloadsAndTimeMoveTheCounter : Prop :=
  ∀ (i : Instr) (s t : State), exec i s = .next t → s.moves = [] →
    i ≠ .wrRestartMagic → (∀ v, i ≠ .wrCtrl v) → (∀ cfg, i ≠ .attach cfg) → (∀ ts, i ≠ .start ts) →
    i ≠ .ping → (∀ ts, i ≠ .setTimeout ts) → i ≠ .forceReset → i ≠ .time →
    t.dev.counter = s.dev.counter

/-- 20_memory R49, 43_counter R150: no step of the counter agent changes RESET_WIDTH, CTRL, RELOAD_VALUE or the controller
record (block_us and what STATUS reads it does change, 43_counter R145). The outputs of 10_state R25 are changed by EXPIRE
alone, as CTRL asks (log entry 23). -/
def Obligations.CounterAgentLeavesRegisters : Prop :=
  ∀ (s t : State) (i : Instr), i = .time ∨ i = .expire → exec i s = .next t →
    t.dev.rwDur = s.dev.rwDur ∧ t.dev.rwDrive = s.dev.rwDrive ∧ t.dev.rwPol = s.dev.rwPol ∧
    t.dev.ctrl = s.dev.ctrl ∧ t.dev.reload = s.dev.reload ∧ t.ctl = s.ctl ∧ t.store = s.store ∧
    t.trace = s.trace ∧ t.inbox = s.inbox ∧ t.moves = s.moves ∧ t.latch = s.latch ∧ t.seq = s.seq ∧ t.result = s.result ∧
    (i = .time → t.dev.irqLine = s.dev.irqLine ∧ t.dev.extPulse = s.dev.extPulse) ∧
    (i = .expire →
      t.dev.irqLine = (s.dev.irqLine || s.dev.ctrl.getLsbD 2) ∧
      t.dev.extPulse = if s.dev.ctrl.getLsbD 3
        then some { ticks := s.dev.rwDur, activeHigh := s.dev.rwPol, pushPull := s.dev.rwDrive } else s.dev.extPulse)

/-- 41_controller R114 (b) and 20_memory R53: n pings make n magic writes and no other, and leave the device as one ping
does. -/
def Obligations.PingsAreIdempotentOnTheDevice : Prop :=
  ∀ (n : Nat) (s : State) (c : Controller), CallMayEnter s → s.iface = .device → s.ctl = some c →
    ∃ t, execMany (List.replicate (n + 1) .ping) s = .next t ∧
      t.dev = { s.dev with counter := s.dev.reload } ∧ t.ctl = s.ctl ∧
      t.trace = s.trace ++ List.replicate (n + 1) (.write .restart (s.par.restartMagic.setWidth 32))

/-- 43_counter R152: whether enabling reloads (P16) cannot be seen through the operations: for every schedule they leave
the same state either way but for that parameter itself, so no sequence of operations shows it. -/
def Obligations.EnableReloadsUnobservable : Prop :=
  ∀ (s t : State) (i : Instr) (b : Bool), i.level = .cmd → AtRest s → (∀ c, s.ctl = some c → c.Sound) →
    exec i s = .next t →
    exec i { s with par := { s.par with enableReloads := b } } =
      .next { t with par := { t.par with enableReloads := b } }
end

