-- ==== Sys2Proof/Laws/State.lean ====
section
/-! SUPPORT. One lemma per field per named update of the state, each true by rfl. -/

namespace Sys2Proof.Machine

/-! `tickCaller` -/

@[simp] theorem tickCaller_dev (s : State) : (tickCaller s).dev = s.dev := rfl
@[simp] theorem tickCaller_ctl (s : State) : (tickCaller s).ctl = s.ctl := rfl
@[simp] theorem tickCaller_seq (s : State) : (tickCaller s).seq = s.seq := rfl
@[simp] theorem tickCaller_latch (s : State) : (tickCaller s).latch = s.latch := rfl
@[simp] theorem tickCaller_blockUs (s : State) : (tickCaller s).blockUs = s.blockUs - 1 := rfl
@[simp] theorem tickCaller_trace (s : State) : (tickCaller s).trace = s.trace := rfl
@[simp] theorem tickCaller_result (s : State) : (tickCaller s).result = s.result := rfl
@[simp] theorem tickCaller_iface (s : State) : (tickCaller s).iface = s.iface := rfl
@[simp] theorem tickCaller_store (s : State) : (tickCaller s).store = s.store := rfl
@[simp] theorem tickCaller_par (s : State) : (tickCaller s).par = s.par := rfl
@[simp] theorem tickCaller_inbox (s : State) : (tickCaller s).inbox = s.inbox := rfl
@[simp] theorem tickCaller_moves (s : State) : (tickCaller s).moves = s.moves := rfl
@[simp] theorem tickCaller_free (s : State) : (tickCaller s).free = s.free := rfl

/-! `raiseConfigurationError` -/

@[simp] theorem raiseConfigurationError_dev (n : Nat) (s : State) : (raiseConfigurationError n s).dev = s.dev := rfl
@[simp] theorem raiseConfigurationError_ctl (n : Nat) (s : State) : (raiseConfigurationError n s).ctl = s.ctl := rfl
@[simp] theorem raiseConfigurationError_seq (n : Nat) (s : State) : (raiseConfigurationError n s).seq = s.seq := rfl
@[simp] theorem raiseConfigurationError_latch (n : Nat) (s : State) : (raiseConfigurationError n s).latch = s.latch := rfl
@[simp] theorem raiseConfigurationError_blockUs (n : Nat) (s : State) : (raiseConfigurationError n s).blockUs = s.blockUs := rfl
@[simp] theorem raiseConfigurationError_trace (n : Nat) (s : State) : (raiseConfigurationError n s).trace = s.trace := rfl
@[simp] theorem raiseConfigurationError_result (n : Nat) (s : State) : (raiseConfigurationError n s).result = some (.configurationError n) := rfl
@[simp] theorem raiseConfigurationError_iface (n : Nat) (s : State) : (raiseConfigurationError n s).iface = s.iface := rfl
@[simp] theorem raiseConfigurationError_store (n : Nat) (s : State) : (raiseConfigurationError n s).store = s.store := rfl
@[simp] theorem raiseConfigurationError_par (n : Nat) (s : State) : (raiseConfigurationError n s).par = s.par := rfl
@[simp] theorem raiseConfigurationError_inbox (n : Nat) (s : State) : (raiseConfigurationError n s).inbox = s.inbox := rfl
@[simp] theorem raiseConfigurationError_moves (n : Nat) (s : State) : (raiseConfigurationError n s).moves = s.moves := rfl
@[simp] theorem raiseConfigurationError_free (n : Nat) (s : State) : (raiseConfigurationError n s).free = s.free := rfl

/-! `noteRead` -/

@[simp] theorem noteRead_dev (r : Reg) (s : State) : (noteRead r s).dev = s.dev := rfl
@[simp] theorem noteRead_ctl (r : Reg) (s : State) : (noteRead r s).ctl = s.ctl := rfl
@[simp] theorem noteRead_seq (r : Reg) (s : State) : (noteRead r s).seq = advance s.seq := rfl
@[simp] theorem noteRead_latch (r : Reg) (s : State) : (noteRead r s).latch = s.latch := rfl
@[simp] theorem noteRead_blockUs (r : Reg) (s : State) : (noteRead r s).blockUs = s.blockUs := rfl
@[simp] theorem noteRead_trace (r : Reg) (s : State) : (noteRead r s).trace = s.trace ++ [.read r (response r s)] := rfl
@[simp] theorem noteRead_result (r : Reg) (s : State) : (noteRead r s).result = s.result := rfl
@[simp] theorem noteRead_iface (r : Reg) (s : State) : (noteRead r s).iface = s.iface := rfl
@[simp] theorem noteRead_store (r : Reg) (s : State) : (noteRead r s).store = s.store := rfl
@[simp] theorem noteRead_par (r : Reg) (s : State) : (noteRead r s).par = s.par := rfl
@[simp] theorem noteRead_inbox (r : Reg) (s : State) : (noteRead r s).inbox = s.inbox := rfl
@[simp] theorem noteRead_moves (r : Reg) (s : State) : (noteRead r s).moves = s.moves := rfl

/-! `readLocal` -/

@[simp] theorem readLocal_dev (r : Reg) (s : State) : (readLocal r s).dev = s.dev := rfl
@[simp] theorem readLocal_ctl (r : Reg) (s : State) : (readLocal r s).ctl = s.ctl := rfl
@[simp] theorem readLocal_seq (r : Reg) (s : State) : (readLocal r s).seq = advance s.seq := rfl
@[simp] theorem readLocal_latch (r : Reg) (s : State) : (readLocal r s).latch = response r s := rfl
@[simp] theorem readLocal_blockUs (r : Reg) (s : State) : (readLocal r s).blockUs = s.blockUs := rfl
@[simp] theorem readLocal_trace (r : Reg) (s : State) : (readLocal r s).trace = s.trace ++ [.read r (response r s)] := rfl
@[simp] theorem readLocal_result (r : Reg) (s : State) : (readLocal r s).result = s.result := rfl
@[simp] theorem readLocal_iface (r : Reg) (s : State) : (readLocal r s).iface = s.iface := rfl
@[simp] theorem readLocal_store (r : Reg) (s : State) : (readLocal r s).store = s.store := rfl
@[simp] theorem readLocal_par (r : Reg) (s : State) : (readLocal r s).par = s.par := rfl
@[simp] theorem readLocal_inbox (r : Reg) (s : State) : (readLocal r s).inbox = s.inbox := rfl
@[simp] theorem readLocal_moves (r : Reg) (s : State) : (readLocal r s).moves = s.moves := rfl

/-! `takeOver` -/

@[simp] theorem takeOver_dev (n : Nat) (s : State) : (takeOver n s).dev = s.dev := rfl
@[simp] theorem takeOver_ctl (n : Nat) (s : State) : (takeOver n s).ctl = s.ctl := rfl
@[simp] theorem takeOver_latch (n : Nat) (s : State) : (takeOver n s).latch = response .ctrl s := rfl
@[simp] theorem takeOver_blockUs (n : Nat) (s : State) : (takeOver n s).blockUs = s.blockUs := rfl
@[simp] theorem takeOver_trace (n : Nat) (s : State) : (takeOver n s).trace = s.trace ++ [.read .ctrl (response .ctrl s)] := rfl
@[simp] theorem takeOver_result (n : Nat) (s : State) : (takeOver n s).result = s.result := rfl
@[simp] theorem takeOver_iface (n : Nat) (s : State) : (takeOver n s).iface = s.iface := rfl
@[simp] theorem takeOver_store (n : Nat) (s : State) : (takeOver n s).store = s.store := rfl
@[simp] theorem takeOver_par (n : Nat) (s : State) : (takeOver n s).par = s.par := rfl
@[simp] theorem takeOver_inbox (n : Nat) (s : State) : (takeOver n s).inbox = s.inbox := rfl
@[simp] theorem takeOver_moves (n : Nat) (s : State) : (takeOver n s).moves = s.moves := rfl

/-! `present` -/

@[simp] theorem present_dev (pk : Packet) (s : State) : (present pk s).dev = s.dev := rfl
@[simp] theorem present_ctl (pk : Packet) (s : State) : (present pk s).ctl = s.ctl := rfl
@[simp] theorem present_seq (pk : Packet) (s : State) : (present pk s).seq = s.seq := rfl
@[simp] theorem present_latch (pk : Packet) (s : State) : (present pk s).latch = s.latch := rfl
@[simp] theorem present_blockUs (pk : Packet) (s : State) : (present pk s).blockUs = s.blockUs := rfl
@[simp] theorem present_trace (pk : Packet) (s : State) : (present pk s).trace = s.trace := rfl
@[simp] theorem present_result (pk : Packet) (s : State) : (present pk s).result = s.result := rfl
@[simp] theorem present_iface (pk : Packet) (s : State) : (present pk s).iface = s.iface := rfl
@[simp] theorem present_store (pk : Packet) (s : State) : (present pk s).store = s.store := rfl
@[simp] theorem present_par (pk : Packet) (s : State) : (present pk s).par = s.par := rfl
@[simp] theorem present_inbox (pk : Packet) (s : State) : (present pk s).inbox = pk :: s.inbox := rfl
@[simp] theorem present_moves (pk : Packet) (s : State) : (present pk s).moves = .issuer :: s.moves := rfl
@[simp] theorem present_free (pk : Packet) (s : State) : (present pk s).free = s.free := rfl

/-! `takeExpiry` -/

@[simp] theorem takeExpiry_ctl (s : State) : (takeExpiry s).ctl = s.ctl := rfl
@[simp] theorem takeExpiry_seq (s : State) : (takeExpiry s).seq = s.seq := rfl
@[simp] theorem takeExpiry_latch (s : State) : (takeExpiry s).latch = s.latch := rfl
@[simp] theorem takeExpiry_blockUs (s : State) : (takeExpiry s).blockUs = s.blockUs := rfl
@[simp] theorem takeExpiry_trace (s : State) : (takeExpiry s).trace = s.trace := rfl
@[simp] theorem takeExpiry_result (s : State) : (takeExpiry s).result = s.result := rfl
@[simp] theorem takeExpiry_iface (s : State) : (takeExpiry s).iface = s.iface := rfl
@[simp] theorem takeExpiry_store (s : State) : (takeExpiry s).store = s.store := rfl
@[simp] theorem takeExpiry_par (s : State) : (takeExpiry s).par = s.par := rfl
@[simp] theorem takeExpiry_inbox (s : State) : (takeExpiry s).inbox = s.inbox := rfl
@[simp] theorem takeExpiry_moves (s : State) : (takeExpiry s).moves = s.moves := rfl
@[simp] theorem takeExpiry_free (s : State) : (takeExpiry s).free = s.free := rfl

@[simp] theorem takeExpiry_dev_counter (s : State) :
    (takeExpiry s).dev.counter = s.dev.counter := rfl
@[simp] theorem takeExpiry_dev_reload (s : State) :
    (takeExpiry s).dev.reload = s.dev.reload := rfl
@[simp] theorem takeExpiry_dev_ctrl (s : State) :
    (takeExpiry s).dev.ctrl = s.dev.ctrl := rfl
@[simp] theorem takeExpiry_dev_rwDur (s : State) :
    (takeExpiry s).dev.rwDur = s.dev.rwDur := rfl
@[simp] theorem takeExpiry_dev_rwDrive (s : State) :
    (takeExpiry s).dev.rwDrive = s.dev.rwDrive := rfl
@[simp] theorem takeExpiry_dev_rwPol (s : State) :
    (takeExpiry s).dev.rwPol = s.dev.rwPol := rfl
@[simp] theorem takeExpiry_dev_expired (s : State) :
    (takeExpiry s).dev.expired = some (expiryActions s.dev) := rfl
@[simp] theorem takeExpiry_dev_irqLine (s : State) :
    (takeExpiry s).dev.irqLine = (s.dev.irqLine || ctrlIntr s.dev.ctrl) := rfl
@[simp] theorem takeExpiry_dev_extPulse (s : State) :
    (takeExpiry s).dev.extPulse = if ctrlExt s.dev.ctrl then pulseOf s.dev else s.dev.extPulse := rfl

/-! `noteRead` and the free values. -/

theorem noteRead_free_device (r : Reg) (s : State) (h : s.iface = .device) : (noteRead r s).free = redraw r s.free := by
  simp only [noteRead, h]

theorem noteRead_free_fake (r : Reg) (s : State) (h : s.iface = .fake) : (noteRead r s).free = s.free := by
  simp only [noteRead, h]

/-! `advance`, `push`, `pending` and `settle` -/

@[simp] theorem advance_idle : advance .idle = .idle := rfl
@[simp] theorem advance_running (op : OpName) (k : Nat) (l : List Action) :
    advance (.running op k l) = .running op (k + 1) l := rfl
@[simp] theorem push_idle (p : List Action) : push p .idle = .idle := rfl
@[simp] theorem push_running (p : List Action) (op : OpName) (k : Nat) (l : List Action) :
    push p (.running op k l) = .running op k (p ++ l) := rfl
@[simp] theorem pending_idle : pending .idle = false := rfl
@[simp] theorem pending_nil (op : OpName) (k : Nat) : pending (.running op k []) = false := rfl
@[simp] theorem pending_cons (op : OpName) (k : Nat) (a : Action) (l : List Action) :
    pending (.running op k (a :: l)) = true := rfl
@[simp] theorem settled_next (s : State) : settled (.next s) = .next (settle s) := rfl
@[simp] theorem settled_fault (f : Fault) : settled (.fault f) = .fault f := rfl
@[simp] theorem settled_refused (r : Refusal) : settled (.refused r) = .refused r := rfl
@[simp] theorem todo_idle : Seq.todo .idle = [] := rfl
@[simp] theorem todo_running (op : OpName) (k : Nat) (l : List Action) : (Seq.running op k l).todo = l := rfl

/-! The mirror -/

@[simp] theorem enable_ctrl (c : Controller) : c.enable.ctrl = c.ctrl ||| 1#32 := rfl
@[simp] theorem enable_timeout (c : Controller) : c.enable.timeout = c.timeout := rfl
@[simp] theorem enable_maxHwHeartbeatMs (c : Controller) : c.enable.maxHwHeartbeatMs = c.maxHwHeartbeatMs := rfl
@[simp] theorem disable_ctrl (c : Controller) : c.disable.ctrl = c.ctrl &&& ~~~1#32 := rfl
@[simp] theorem disable_timeout (c : Controller) : c.disable.timeout = c.timeout := rfl
@[simp] theorem disable_maxHwHeartbeatMs (c : Controller) : c.disable.maxHwHeartbeatMs = c.maxHwHeartbeatMs := rfl

end Sys2Proof.Machine
end

