-- ==== Sys2Proof/Laws/Counter.lean ====
section
/-! SUPPORT. What a turn of the counter agent, and a lapse between two transactions, can do. -/

namespace Sys2Proof.Machine

/-! ## Enabling -/

theorem expiryDue_iff (s : State) : expiryDue s = true ↔ Due s := by
  simp only [expiryDue, Due, ctrlEn, Bool.and_eq_true, beq_iff_eq, Option.isNone_iff_eq_none, and_assoc]

theorem expiryDue_false_iff (s : State) : expiryDue s = false ↔ ¬ Due s := by
  rw [← expiryDue_iff, Bool.not_eq_true]

/-! ## Frames: what a turn leaves alone -/

section frames

variable (s : State)

@[simp] theorem tickCounter_ctl : (tickCounter s).ctl = s.ctl := by unfold tickCounter; (repeat' split) <;> rfl
@[simp] theorem tickCounter_seq : (tickCounter s).seq = s.seq := by unfold tickCounter; (repeat' split) <;> rfl
@[simp] theorem tickCounter_latch : (tickCounter s).latch = s.latch := by unfold tickCounter; (repeat' split) <;> rfl
@[simp] theorem tickCounter_blockUs : (tickCounter s).blockUs = s.blockUs := by unfold tickCounter; (repeat' split) <;> rfl
@[simp] theorem tickCounter_trace : (tickCounter s).trace = s.trace := by unfold tickCounter; (repeat' split) <;> rfl
@[simp] theorem tickCounter_result : (tickCounter s).result = s.result := by unfold tickCounter; (repeat' split) <;> rfl
@[simp] theorem tickCounter_iface : (tickCounter s).iface = s.iface := by unfold tickCounter; (repeat' split) <;> rfl
@[simp] theorem tickCounter_store : (tickCounter s).store = s.store := by unfold tickCounter; (repeat' split) <;> rfl
@[simp] theorem tickCounter_par : (tickCounter s).par = s.par := by unfold tickCounter; (repeat' split) <;> rfl
@[simp] theorem tickCounter_inbox : (tickCounter s).inbox = s.inbox := by unfold tickCounter; (repeat' split) <;> rfl
@[simp] theorem tickCounter_moves : (tickCounter s).moves = s.moves := by unfold tickCounter; (repeat' split) <;> rfl
@[simp] theorem tickCounter_dev_reload : (tickCounter s).dev.reload = s.dev.reload := by
  unfold tickCounter; (repeat' split) <;> rfl
@[simp] theorem tickCounter_dev_ctrl : (tickCounter s).dev.ctrl = s.dev.ctrl := by
  unfold tickCounter; (repeat' split) <;> rfl
@[simp] theorem tickCounter_dev_rwDur : (tickCounter s).dev.rwDur = s.dev.rwDur := by
  unfold tickCounter; (repeat' split) <;> rfl
@[simp] theorem tickCounter_dev_rwDrive : (tickCounter s).dev.rwDrive = s.dev.rwDrive := by
  unfold tickCounter; (repeat' split) <;> rfl
@[simp] theorem tickCounter_dev_rwPol : (tickCounter s).dev.rwPol = s.dev.rwPol := by
  unfold tickCounter; (repeat' split) <;> rfl
@[simp] theorem tickCounter_dev_expired : (tickCounter s).dev.expired = s.dev.expired := by
  unfold tickCounter; (repeat' split) <;> rfl
@[simp] theorem tickCounter_dev_irqLine : (tickCounter s).dev.irqLine = s.dev.irqLine := by
  unfold tickCounter; (repeat' split) <;> rfl
@[simp] theorem tickCounter_dev_extPulse : (tickCounter s).dev.extPulse = s.dev.extPulse := by
  unfold tickCounter; (repeat' split) <;> rfl

end frames

theorem tickCaller_of_zero (s : State) (h : s.blockUs = 0) : tickCaller s = s := by
  cases s; simp_all [tickCaller]

/-- The counter stands still when the timer is halted, and on the fake. -/
theorem tickCounter_of_halted (s : State) (h : Halted s ∨ s.iface = .fake) : tickCounter s = s := by
  rcases h with ⟨-, h⟩ | h
  · simp only [tickCounter, ctrlEn, h, Bool.and_false, Bool.false_eq_true, if_false]
  · simp [tickCounter, h]

theorem tickCounter_of_running (s : State) (h : Running s) (hc : s.dev.counter ≠ 0#32) :
    tickCounter s = { s with dev := { s.dev with counter := s.dev.counter - 1#32 } } := by
  obtain ⟨hi, -, he, hk⟩ := h
  simp only [tickCounter, hi, ctrlEn, he, ctrlClk1m, hk, hc, beq_self_eq_true, Bool.and_self, if_true, if_false]

theorem not_due_of_halted (s : State) (h : Halted s ∨ s.iface = .fake) : ¬ Due s := by
  rintro ⟨hi, -, he, -⟩
  rcases h with ⟨-, h⟩ | h
  · rw [h] at he; cases he
  · rw [h] at hi; cases hi

/-! ## A turn -/

theorem counterTurn_of_due (s : State) (h : Due s) : counterTurn s = takeExpiry s := by
  simp [counterTurn, (expiryDue_iff s).2 h]

theorem counterTurn_of_not_due (s : State) (h : ¬ Due s) : counterTurn s = passMicrosecond s := by
  simp [counterTurn, (expiryDue_false_iff s).2 h]

/-- A turn with the timer halted, or on the fake, and nobody waiting changes nothing. -/
theorem counterTurn_of_quiet (s : State) (h : Halted s ∨ s.iface = .fake) (hb : s.blockUs = 0) :
    counterTurn s = s := by
  rw [counterTurn_of_not_due s (not_due_of_halted s h), passMicrosecond, tickCounter_of_halted s h,
    tickCaller_of_zero s hb]

theorem counterTurn_of_running (s : State) (h : Running s) (hc : s.dev.counter ≠ 0#32) (hb : s.blockUs = 0) :
    counterTurn s = { s with dev := { s.dev with counter := s.dev.counter - 1#32 } } := by
  rw [counterTurn_of_not_due s (fun hd => hc hd.2.2.2), passMicrosecond, tickCounter_of_running s h hc]
  exact tickCaller_of_zero _ hb

section turn_frames

variable (s : State)

@[simp] theorem counterTurn_ctl : (counterTurn s).ctl = s.ctl := by
  unfold counterTurn; split <;> simp [passMicrosecond]
@[simp] theorem counterTurn_seq : (counterTurn s).seq = s.seq := by
  unfold counterTurn; split <;> simp [passMicrosecond]
@[simp] theorem counterTurn_result : (counterTurn s).result = s.result := by
  unfold counterTurn; split <;> simp [passMicrosecond]
@[simp] theorem counterTurn_latch : (counterTurn s).latch = s.latch := by
  unfold counterTurn; split <;> simp [passMicrosecond]
@[simp] theorem counterTurn_trace : (counterTurn s).trace = s.trace := by
  unfold counterTurn; split <;> simp [passMicrosecond]
@[simp] theorem counterTurn_iface : (counterTurn s).iface = s.iface := by
  unfold counterTurn; split <;> simp [passMicrosecond]
@[simp] theorem counterTurn_store : (counterTurn s).store = s.store := by
  unfold counterTurn; split <;> simp [passMicrosecond]
@[simp] theorem counterTurn_par : (counterTurn s).par = s.par := by
  unfold counterTurn; split <;> simp [passMicrosecond]
@[simp] theorem counterTurn_inbox : (counterTurn s).inbox = s.inbox := by
  unfold counterTurn; split <;> simp [passMicrosecond]
@[simp] theorem counterTurn_moves : (counterTurn s).moves = s.moves := by
  unfold counterTurn; split <;> simp [passMicrosecond]
@[simp] theorem counterTurn_dev_reload : (counterTurn s).dev.reload = s.dev.reload := by
  unfold counterTurn; split <;> simp [passMicrosecond]
@[simp] theorem counterTurn_dev_ctrl : (counterTurn s).dev.ctrl = s.dev.ctrl := by
  unfold counterTurn; split <;> simp [passMicrosecond]
@[simp] theorem counterTurn_dev_rwDur : (counterTurn s).dev.rwDur = s.dev.rwDur := by
  unfold counterTurn; split <;> simp [passMicrosecond]
@[simp] theorem counterTurn_dev_rwDrive : (counterTurn s).dev.rwDrive = s.dev.rwDrive := by
  unfold counterTurn; split <;> simp [passMicrosecond]
@[simp] theorem counterTurn_dev_rwPol : (counterTurn s).dev.rwPol = s.dev.rwPol := by
  unfold counterTurn; split <;> simp [passMicrosecond]

end turn_frames

/-- A turn that does not expire leaves the outputs. -/
theorem counterTurn_outputs (s : State) (h : (counterTurn s).dev.expired = none) :
    s.dev.expired = none ∧ (counterTurn s).dev.irqLine = s.dev.irqLine ∧
      (counterTurn s).dev.extPulse = s.dev.extPulse := by
  unfold counterTurn at h ⊢
  split at h
  · simp at h
  · next hd => simpa [hd, passMicrosecond] using h

/-- A turn never lengthens a wait. -/
theorem counterTurn_blockUs_le : ∀ s : State, (counterTurn s).blockUs ≤ s.blockUs := by
  intro s; unfold counterTurn; split <;> simp [passMicrosecond]

/-- The schedule is no part of a turn. -/
theorem counterTurn_moves_comm (s : State) (ms : List Mover) :
    counterTurn { s with moves := ms } = { counterTurn s with moves := ms } := by
  have hd : expiryDue { s with moves := ms } = expiryDue s := rfl
  unfold counterTurn
  rw [hd]
  split
  · rfl
  · unfold passMicrosecond tickCounter tickCaller
    dsimp only
    (repeat' split) <;> rfl

theorem counterTurn_blockUs_zero (s : State) (h : s.blockUs = 0) : (counterTurn s).blockUs = 0 := by
  unfold counterTurn
  split
  · exact h
  · rw [passMicrosecond, tickCaller_of_zero _ (by simpa using h)]; simpa using h

/-! ## A lapse -/

/-- The schedule after the issuer's next turn. -/
def afterTurns : List Mover → List Mover
  | [] => []
  | .issuer :: ms => ms
  | .counter :: ms => afterTurns ms

@[simp] theorem afterTurns_nil : afterTurns [] = [] := rfl

/-- A lapse keeps whatever every turn keeps. -/
theorem lapse_keeps {α : Type} (f : State → α) (hturn : ∀ s, f (counterTurn s) = f s)
    (hmoves : ∀ s ms, f { s with moves := ms } = f s) (s : State) : f (lapse s) = f s := by
  have key : ∀ (l : List Mover) (s : State), f (runTurns l s) = f s := by
    intro l
    induction l with
    | nil => intro s; exact hmoves s []
    | cons m ms ih =>
      intro s
      cases m with
      | issuer => exact hmoves s ms
      | counter =>
        simp only [runTurns]
        split
        · rw [hmoves, hturn]
        · rw [ih, hturn]
  exact key s.moves s

/-- A lapse keeps a property that every turn keeps. -/
theorem lapse_invariant (P : State → Prop) (hturn : ∀ s, P s → P (counterTurn s))
    (hmoves : ∀ s ms, P s → P { s with moves := ms }) (s : State) (h : P s) : P (lapse s) := by
  have key : ∀ (l : List Mover) (s : State), P s → P (runTurns l s) := by
    intro l
    induction l with
    | nil => intro s hs; exact hmoves s [] hs
    | cons m ms ih =>
      intro s hs
      cases m with
      | issuer => exact hmoves s ms hs
      | counter =>
        simp only [runTurns]
        split
        · exact hmoves _ _ (hturn s hs)
        · exact ih _ (hturn s hs)
  exact key s.moves s h

section lapse_frames

variable (s : State)

@[simp] theorem lapse_ctl : (lapse s).ctl = s.ctl := lapse_keeps State.ctl (by simp) (by simp) s
@[simp] theorem lapse_seq : (lapse s).seq = s.seq := lapse_keeps State.seq (by simp) (by simp) s
@[simp] theorem lapse_result : (lapse s).result = s.result := lapse_keeps State.result (by simp) (by simp) s
@[simp] theorem lapse_latch : (lapse s).latch = s.latch := lapse_keeps State.latch (by simp) (by simp) s
@[simp] theorem lapse_trace : (lapse s).trace = s.trace := lapse_keeps State.trace (by simp) (by simp) s
@[simp] theorem lapse_iface : (lapse s).iface = s.iface := lapse_keeps State.iface (by simp) (by simp) s
@[simp] theorem lapse_store : (lapse s).store = s.store := lapse_keeps State.store (by simp) (by simp) s
@[simp] theorem lapse_par : (lapse s).par = s.par := lapse_keeps State.par (by simp) (by simp) s
@[simp] theorem lapse_inbox : (lapse s).inbox = s.inbox := lapse_keeps State.inbox (by simp) (by simp) s
@[simp] theorem lapse_dev_reload : (lapse s).dev.reload = s.dev.reload :=
  lapse_keeps (fun s => s.dev.reload) (by simp) (by simp) s
@[simp] theorem lapse_dev_ctrl : (lapse s).dev.ctrl = s.dev.ctrl :=
  lapse_keeps (fun s => s.dev.ctrl) (by simp) (by simp) s
@[simp] theorem lapse_dev_rwDur : (lapse s).dev.rwDur = s.dev.rwDur :=
  lapse_keeps (fun s => s.dev.rwDur) (by simp) (by simp) s
@[simp] theorem lapse_dev_rwDrive : (lapse s).dev.rwDrive = s.dev.rwDrive :=
  lapse_keeps (fun s => s.dev.rwDrive) (by simp) (by simp) s
@[simp] theorem lapse_dev_rwPol : (lapse s).dev.rwPol = s.dev.rwPol :=
  lapse_keeps (fun s => s.dev.rwPol) (by simp) (by simp) s

end lapse_frames

/-- With nothing scheduled a lapse is no time. -/
theorem lapse_of_no_moves (s : State) (h : s.moves = []) : lapse s = s := by
  cases s; simp_all [lapse, runTurns]

theorem lapse_blockUs_zero (s : State) (h : s.blockUs = 0) : (lapse s).blockUs = 0 :=
  lapse_invariant (fun s => s.blockUs = 0) counterTurn_blockUs_zero (fun _ _ h => h) s h

/-- A lapse that does not expire began unexpired and leaves the outputs. -/
theorem lapse_outputs (s : State) (h : (lapse s).dev.expired = none) :
    s.dev.expired = none ∧ (lapse s).dev.irqLine = s.dev.irqLine ∧ (lapse s).dev.extPulse = s.dev.extPulse := by
  have := lapse_invariant
    (fun t => t.dev.expired = none →
      s.dev.expired = none ∧ t.dev.irqLine = s.dev.irqLine ∧ t.dev.extPulse = s.dev.extPulse)
    (fun t ht he => by
      have ho := counterTurn_outputs t he
      rw [ho.2.1, ho.2.2]; exact ht ho.1)
    (fun _ _ ht => ht) s (fun h => ⟨h, rfl, rfl⟩)
  exact this h

/-- A lapse with the timer halted, or on the fake, and nobody waiting only uses up the schedule. -/
theorem lapse_of_quiet (s : State) (h : Halted s ∨ s.iface = .fake) (hb : s.blockUs = 0)
    (he : s.dev.expired = none) : lapse s = { s with moves := afterTurns s.moves } := by
  have key : ∀ (l : List Mover), runTurns l s = { s with moves := afterTurns l } := by
    intro l
    induction l with
    | nil => rfl
    | cons m ms ih =>
      cases m with
      | issuer => rfl
      | counter => simp [runTurns, counterTurn_of_quiet s h hb, he, ih, afterTurns]
  exact key s.moves

/-- Nothing can happen between the transactions: the timer is halted, or it is the fake, and nobody waits; or nothing
is scheduled. -/
abbrev Still (s : State) : Prop :=
  s.dev.expired = none ∧ (((Halted s ∨ s.iface = .fake) ∧ s.blockUs = 0) ∨ s.moves = [])

theorem lapse_of_still (s : State) (h : Still s) : lapse s = { s with moves := afterTurns s.moves } := by
  obtain ⟨he, ⟨hq, hb⟩ | hm⟩ := h
  · exact lapse_of_quiet s hq hb he
  · rw [lapse_of_no_moves s hm]; cases s; simp_all

/-- A lapse of a running timer that is not long enough to expire takes one tick per turn off the counter. -/
theorem lapse_of_running (s : State) (h : Running s) (hb : s.blockUs = 0)
    (hl : leadingTurns s.moves ≤ s.dev.counter.toNat) :
    lapse s = { s with
      dev := { s.dev with counter := s.dev.counter - BitVec.ofNat 32 (leadingTurns s.moves) }
      moves := afterTurns s.moves } := by
  have key : ∀ (l : List Mover) (s : State), Running s → s.blockUs = 0 → leadingTurns l ≤ s.dev.counter.toNat →
      runTurns l s = { s with
        dev := { s.dev with counter := s.dev.counter - BitVec.ofNat 32 (leadingTurns l) }, moves := afterTurns l } := by
    intro l
    induction l with
    | nil => intro s _ _ _; cases s; simp [runTurns, leadingTurns, afterTurns]
    | cons m ms ih =>
      intro s h hb hl
      cases m with
      | issuer => cases s; simp [runTurns, leadingTurns, afterTurns]
      | counter =>
        simp only [leadingTurns] at hl ⊢
        have hc : s.dev.counter ≠ 0#32 := by
          intro hz; simp [hz] at hl
        have hn : (s.dev.counter - 1#32).toNat = s.dev.counter.toNat - 1 := by
          have := s.dev.counter.isLt
          rw [BitVec.toNat_sub]; simp; omega
        have ht := counterTurn_of_running s h hc hb
        simp only [runTurns, ht]
        have he : s.dev.expired = none := h.2.1
        simp only [he, Option.isSome_none, Bool.false_eq_true, if_false]
        have hs := ih { s with dev := { s.dev with counter := s.dev.counter - 1#32 } }
          ⟨h.1, h.2.1, h.2.2⟩ hb (by simp only [hn]; omega)
        simp only [he] at hs
        rw [hs]
        have hk : s.dev.counter - BitVec.ofNat 32 (leadingTurns ms + 1) =
            s.dev.counter - 1#32 - BitVec.ofNat 32 (leadingTurns ms) := by
          rw [BitVec.ofNat_add]; ring
        simp only [afterTurns, hk]
  exact key s.moves s h hb hl

/-- A lapse of a running timer that is longer than its countdown expires it at zero. -/
theorem lapse_of_overrun (s : State) (h : Running s) (hb : s.blockUs = 0)
    (hl : s.dev.counter.toNat < leadingTurns s.moves) :
    (lapse s).dev.counter = 0#32 ∧ (lapse s).dev.expired = some (expiryActions s.dev) := by
  have key : ∀ (l : List Mover) (s : State), Running s → s.blockUs = 0 → s.dev.counter.toNat < leadingTurns l →
      (runTurns l s).dev.counter = 0#32 ∧ (runTurns l s).dev.expired = some (expiryActions s.dev) := by
    intro l
    induction l with
    | nil => intro s _ _ hl; simp [leadingTurns] at hl
    | cons m ms ih =>
      intro s h hb hl
      cases m with
      | issuer => simp [leadingTurns] at hl
      | counter =>
        simp only [leadingTurns] at hl
        by_cases hc : s.dev.counter = 0#32
        · have hd : Due s := ⟨h.1, h.2.1, h.2.2.1, hc⟩
          simp [runTurns, counterTurn_of_due s hd, hc]
        · have hn : (s.dev.counter - 1#32).toNat = s.dev.counter.toNat - 1 := by
            have := s.dev.counter.isLt
            have h0 : s.dev.counter.toNat ≠ 0 := fun h1 => hc (BitVec.eq_of_toNat_eq (by simpa using h1))
            rw [BitVec.toNat_sub]; simp; omega
          have ht := counterTurn_of_running s h hc hb
          have h0 : s.dev.counter.toNat ≠ 0 := fun h1 => hc (BitVec.eq_of_toNat_eq (by simpa using h1))
          have he : s.dev.expired = none := h.2.1
          simp only [runTurns, ht, he, Option.isSome_none, Bool.false_eq_true, if_false]
          have hs := ih { s with dev := { s.dev with counter := s.dev.counter - 1#32 } }
            ⟨h.1, h.2.1, h.2.2⟩ hb (by simp only [hn]; omega)
          simp only [he] at hs
          exact hs
  exact key s.moves s h hb hl

end Sys2Proof.Machine
end

