-- ==== Sys2Proof/Laws/Encoding.lean ====
section
/-! SUPPORT. The packed transaction field by field, and what the decoder reads from one. -/

namespace Sys2Proof

/-- The fields of a packed transaction are the ones it was packed from. -/
theorem busWord_fields (dir : Bool) (r : Reg) (v : Word) :
    busStray (busWord dir r v) = 0#7 ∧ busDir (busWord dir r v) = dir ∧ busOff (busWord dir r v) = regOffset r ∧
      busData (busWord dir r v) = v := by
  unfold busStray busDir busOff busData busWord
  refine ⟨?_, ?_, ?_, ?_⟩
  · apply BitVec.eq_of_getLsbD_eq; intro i hi
    simp only [BitVec.getLsbD_extractLsb', BitVec.getLsbD_append, hi, decide_true, Bool.true_and]
    rw [if_neg (by omega), if_neg (by omega), if_neg (by omega)]; simp
  · simp only [BitVec.getLsbD_append]; simp
  · apply BitVec.eq_of_getLsbD_eq; intro i hi
    simp only [BitVec.getLsbD_extractLsb', BitVec.getLsbD_append, hi, decide_true, Bool.true_and]
    rw [if_neg (by omega), if_pos (by omega)]; congr 1; omega
  · apply BitVec.eq_of_getLsbD_eq; intro i hi
    simp only [BitVec.getLsbD_extractLsb', BitVec.getLsbD_append, hi, decide_true, Bool.true_and]
    rw [if_pos (by omega)]; congr 1; omega

theorem regAt_regOffset (r : Reg) : regAt (regOffset r) = some r := by cases r <;> rfl

theorem regOffset_regAt (off : BitVec 8) (r : Reg) (h : regAt off = some r) : regOffset r = off := by
  unfold regAt at h
  (repeat' split at h) <;> first | (injection h with h; subst h; symm; assumption) | cases h

/-- A packed transaction is the one its fields pack. -/
theorem busWord_of_fields (w : BitVec 48) (r : Reg) (hs : busStray w = 0#7) (hr : regAt (busOff w) = some r) :
    busWord (busDir w) r (busData w) = w := by
  have ho := regOffset_regAt _ _ hr
  apply BitVec.eq_of_getLsbD_eq
  intro i hi
  have h7 : ∀ j, j < 7 → w.getLsbD (41 + j) = false := by
    intro j hj
    have := congrArg (fun x => x.getLsbD j) hs
    simpa only [busStray, BitVec.getLsbD_extractLsb', hj, decide_true, Bool.true_and, BitVec.getLsbD_zero] using this
  unfold busWord
  rw [ho]
  simp only [busDir, busOff, busData, BitVec.getLsbD_append, BitVec.getLsbD_extractLsb', BitVec.getLsbD_zero]
  by_cases h32 : i < 32
  · simp only [h32, if_true, decide_true, Bool.true_and, Nat.zero_add]
  by_cases h40 : i < 40
  · rw [if_neg h32, if_pos (by omega), show 32 + (i - 32) = i by omega]; simp; omega
  by_cases h41 : i = 40
  · subst h41; simp
  · rw [if_neg h32, if_neg (by omega), if_neg (by omega)]
    have := h7 (i - 41) (by omega)
    rw [show 41 + (i - 41) = i by omega] at this
    exact this.symm

/-- A RESET_WIDTH write is the word of its three fields. -/
theorem rwwWord_of_fields (v : Word) : rwwWord (selField v) (zeroField v) (durField v) = v := by
  apply BitVec.eq_of_getLsbD_eq
  intro i hi
  simp only [rwwWord, selField, zeroField, durField, BitVec.getLsbD_append, BitVec.getLsbD_extractLsb']
  by_cases h12 : i < 12
  · simp only [h12, if_true, decide_true, Bool.true_and, Nat.zero_add]
  by_cases h24 : i < 24
  · rw [if_neg h12, if_pos (by omega), show 12 + (i - 12) = i by omega]; simp; omega
  · rw [if_neg h12, if_neg (by omega), show 24 + (i - 12 - 12) = i by omega]; simp; omega

theorem decode_busWord_read (p : Config.Params) (r : Reg) (v : Word) :
    decode p (.bus (busWord false r v)) = .ok (decodeRead r) := by
  obtain ⟨h1, h2, h3, -⟩ := busWord_fields false r v
  simp [decode, decodeBus, h1, h2, h3, regAt_regOffset]

theorem decode_busWord_write (p : Config.Params) (r : Reg) (v : Word) :
    decode p (.bus (busWord true r v)) = .ok (decodeWrite p v r) := by
  obtain ⟨h1, h2, h3, h4⟩ := busWord_fields true r v
  simp [decode, decodeBus, h1, h2, h3, h4, regAt_regOffset]

/-- No packet decodes to a row of the counter agent. -/
theorem decode_level (p : Config.Params) (pk : Packet) (i : Instr) (h : decode p pk = .ok i) : i.level ≠ .agent := by
  have ite : ∀ (c : Prop) [Decidable c] (a b : Instr), a.level ≠ .agent → b.level ≠ .agent →
      (if c then a else b).level ≠ .agent := by
    intro c _ a b ha hb; split <;> assumption
  cases pk with
  | bus w =>
    simp only [decode, decodeBus] at h
    split at h
    · cases h
    split at h
    · cases h
    next r _ =>
    injection h with h
    subst h
    cases busDir w <;> cases r <;>
      simp only [decodeWrite, decodeRead, decodeResetWidth, if_true, Bool.false_eq_true, if_false] <;>
      (repeat' apply ite) <;> simp [Instr.level]
  | cmd op arg =>
    simp only [decode, decodeCmd] at h
    split at h <;> cases arg <;> simp [takeConfig, takeSeconds, takeNothing, takeTicks, takeFlag] at h <;>
      (subst h; simp [Instr.level])

end Sys2Proof
end

