-- ==== Sys2Proof/Laws/Ops.lean ====
section
/-! SUPPORT. What the shared operations can do: entering a call, reads, writes, and the device's rows. -/

namespace Sys2Proof.Machine

/-! ## Entering -/

theorem hostTurn_of_enter (s : State) (k : State → Answer) (h : CallMayEnter s) : hostTurn s k = k s := by
  simp [hostTurn, h.1, h.2]

theorem hostTurn_eq_next (s t : State) (k : State → Answer) :
    hostTurn s k = .next t ↔ CallMayEnter s ∧ k s = .next t := by
  unfold hostTurn CallMayEnter
  cases h : s.dev.expired <;> by_cases hs : s.seq = .idle <;> simp [hs]

theorem hostTurn_of_expired (s : State) (k : State → Answer) (h : s.dev.expired ≠ none) :
    hostTurn s k = .fault .terminal := by
  simp [hostTurn, Option.isSome_iff_ne_none.2 h]

theorem hostTurn_of_blocked (s : State) (k : State → Answer) (h : s.dev.expired = none) (hs : s.seq ≠ .idle) :
    hostTurn s k = .fault .callBlocked := by
  simp [hostTurn, h, hs]

theorem controllerTurn_of_enter (s : State) (c : Controller) (k : Controller → State → Answer) (h : CallMayEnter s)
    (hc : s.ctl = some c) : controllerTurn s k = k c s := by
  simp [controllerTurn, hostTurn_of_enter s _ h, hc]

theorem controllerTurn_of_detached (s : State) (k : Controller → State → Answer) (h : CallMayEnter s)
    (hc : s.ctl = none) : controllerTurn s k = .fault .notAttached := by
  simp [controllerTurn, hostTurn_of_enter s _ h, hc]

theorem controllerTurn_eq_next (s t : State) (k : Controller → State → Answer) :
    controllerTurn s k = .next t ↔ CallMayEnter s ∧ ∃ c, s.ctl = some c ∧ k c s = .next t := by
  rw [controllerTurn, hostTurn_eq_next]
  cases s.ctl <;> simp

/-! ## The device's rows -/

/-- The device accepts exactly the CTRL words whose meaning the spec gives. -/
theorem ctrlRefusal_eq_none_iff (v : Word) : ctrlRefusal v = none ↔ CtrlDefined v := by
  unfold ctrlRefusal CtrlDefined
  simp only [ctrlReservedBits, ctrlScope, ctrlEn, ctrlClk1m, ctrlRst, ctrlIntr]
  by_cases h1 : v.extractLsb' 7 25 = 0#25 <;> by_cases h2 : v.extractLsb' 5 2 = 3#2 <;> simp only [h1, h2] <;>
    by_cases h3 : v.getLsbD 0 = true <;> by_cases h4 : v.getLsbD 4 = true <;> by_cases h5 : v.getLsbD 1 = true <;>
    by_cases h6 : v.getLsbD 2 = true <;> simp_all

theorem ctrlDefined_zero : CtrlDefined 0#32 := by decide

/-- A decidable fact about every mirror word is checked word by word. -/
theorem mirrorWords_forall (P : Word → Bool) (h : mirrorWords.all P = true) (w : Word) (hw : w ∈ mirrorWords) :
    P w = true := List.all_eq_true.1 h w hw

/-- A mirror word, with EN set or cleared, is a mirror word. -/
theorem mirrorWords_or_en (w : Word) (h : w ∈ mirrorWords) : w ||| 1#32 ∈ mirrorWords := by
  simpa using mirrorWords_forall (fun w => decide (w ||| 1#32 ∈ mirrorWords)) (by decide) w h

theorem mirrorWords_and_not_en (w : Word) (h : w ∈ mirrorWords) : w &&& ~~~1#32 ∈ mirrorWords := by
  simpa using mirrorWords_forall (fun w => decide (w &&& ~~~1#32 ∈ mirrorWords)) (by decide) w h

/-- The device accepts every mirror word. -/
theorem mirrorWords_defined (w : Word) (h : w ∈ mirrorWords) : CtrlDefined w :=
  of_decide_eq_true (mirrorWords_forall (fun w => decide (CtrlDefined w)) (by decide) w h)

/-- A mirror word with EN set resets and does not interrupt, at 1 MHz. -/
theorem mirrorWords_or_en_bits (w : Word) (h : w ∈ mirrorWords) :
    (w ||| 1#32).getLsbD 0 = true ∧ (w ||| 1#32).getLsbD 1 = true ∧ (w ||| 1#32).getLsbD 2 = false ∧
      (w ||| 1#32).getLsbD 4 = true :=
  of_decide_eq_true (mirrorWords_forall (fun w => decide ((w ||| 1#32).getLsbD 0 = true ∧
    (w ||| 1#32).getLsbD 1 = true ∧ (w ||| 1#32).getLsbD 2 = false ∧ (w ||| 1#32).getLsbD 4 = true)) (by decide) w h)

theorem mirrorWords_and_not_en_bit (w : Word) (h : w ∈ mirrorWords) : (w &&& ~~~1#32).getLsbD 0 = false :=
  of_decide_eq_true (mirrorWords_forall (fun w => decide ((w &&& ~~~1#32).getLsbD 0 = false)) (by decide) w h)

/-- The configured flag word is a mirror word, EN clear. -/
theorem encCtrlFlags_mem (cfg : ResolvedConfiguration) : encCtrlFlags cfg ∈ mirrorWords := by
  unfold encCtrlFlags
  cases cfg.resetScope <;> cases cfg.externalSignal <;> decide

theorem encCtrlFlags_en (cfg : ResolvedConfiguration) : (encCtrlFlags cfg).getLsbD 0 = false := by
  unfold encCtrlFlags
  cases cfg.resetScope <;> cases cfg.externalSignal <;> decide

theorem devWriteCtrl_of_defined (p : Config.Params) (v : Word) (d : Device) (h : CtrlDefined v) :
    devWriteCtrl p v d = .ok { d with
      ctrl := v
      counter := if !ctrlEn d.ctrl && ctrlEn v && p.enableReloads then d.reload else d.counter } := by
  simp [devWriteCtrl, (ctrlRefusal_eq_none_iff v).2 h]

/-- A CTRL write that does not enable, or that finds the counter reloaded, leaves the counter whatever P16 is. -/
theorem devWriteCtrl_counter (p : Config.Params) (v : Word) (d : Device) (h : CtrlDefined v)
    (hc : v.getLsbD 0 = false ∨ d.counter = d.reload) : devWriteCtrl p v d = .ok { d with ctrl := v } := by
  rw [devWriteCtrl_of_defined p v d h]
  rcases hc with hc | hc
  · simp only [ctrlEn, hc, Bool.and_false, Bool.false_and, Bool.false_eq_true, if_false]
  · simp only [hc, ite_self]

/-- The word a tagged write carries, field by field. -/
theorem rwwWord_fields (sel : BitVec 8) (zero dur : BitVec 12) :
    selField (rwwWord sel zero dur) = sel ∧ zeroField (rwwWord sel zero dur) = zero ∧
      durField (rwwWord sel zero dur) = dur := by
  unfold selField zeroField durField rwwWord
  refine ⟨?_, ?_, ?_⟩ <;> apply BitVec.eq_of_getLsbD_eq <;> intro i hi <;>
    simp only [BitVec.getLsbD_extractLsb', BitVec.getLsbD_append, hi, decide_true, Bool.true_and]
  · rw [if_neg (by omega), if_neg (by omega)]; congr 1; omega
  · rw [if_neg (by omega), if_pos (by omega)]; congr 1; omega
  · rw [if_pos (by omega)]; congr 1; omega

theorem durMask_bit (i : Nat) : durMask.getLsbD i = decide (i < 12) := by
  by_cases h : i < 32
  · interval_cases i <;> rfl
  · rw [BitVec.getLsbD_of_ge _ _ (by omega)]; simp; omega

/-- `enc_rw` of a masked word is the word with an empty middle field. -/
theorem encRw_of_masked (w : Word) (sel : BitVec 8) :
    encRw (w &&& durMask) sel = rwwWord sel 0#12 (w.extractLsb' 0 12) := by
  unfold encRw rwwWord
  apply BitVec.eq_of_getLsbD_eq
  intro i hi
  simp only [BitVec.getLsbD_or, BitVec.getLsbD_and, durMask_bit, BitVec.getLsbD_append, BitVec.getLsbD_extractLsb',
    BitVec.getLsbD_shiftLeft, BitVec.getLsbD_setWidth, BitVec.getLsbD_zero]
  by_cases h12 : i < 12
  · simp [h12]; omega
  · by_cases h24 : i < 24
    · simp [h12, h24, show i - 12 < 12 by omega]
    · simp [h12, h24, hi, show ¬ (i - 12 < 12) by omega, show i - 24 < 32 by omega,
        show i - 12 - 12 = i - 24 by omega]

theorem masked_and_mask (w : Word) : (w &&& durMask) &&& durMask = w &&& durMask := by
  rw [BitVec.and_assoc, BitVec.and_self]

theorem masked_low (w : Word) : (w &&& durMask).extractLsb' 0 12 = w.extractLsb' 0 12 := by
  apply BitVec.eq_of_getLsbD_eq
  intro i hi
  simp only [BitVec.getLsbD_extractLsb', BitVec.getLsbD_and, durMask_bit]
  simp [hi]

/-- A duration that fits is its own masked word. -/
theorem word32_masked (n : Nat) (h : n ≤ 4095) : word32 n &&& durMask = word32 n := by
  apply BitVec.eq_of_toNat_eq
  have : durMask.toNat = 2 ^ 12 - 1 := rfl
  rw [BitVec.toNat_and, this, Nat.and_two_pow_sub_one_eq_mod]
  simp only [word32, BitVec.toNat_ofNat]
  omega

theorem word32_low (n : Nat) : (word32 n).extractLsb' 0 12 = BitVec.ofNat 12 n := by
  apply BitVec.eq_of_toNat_eq
  simp only [word32, BitVec.extractLsb'_toNat, BitVec.toNat_ofNat, Nat.shiftRight_zero]
  omega

/-- The device's answer to a well-made tagged write, selector by selector. -/
theorem devWriteResetWidth_drive (p : Config.Params) (hp : p.Distinct) (b : Bool) (dur : BitVec 12) (d : Device) :
    devWriteResetWidth p (rwwWord (selDrive p b) 0#12 dur) d = .ok { d with rwDur := dur, rwDrive := b } := by
  obtain ⟨hs, hz, hd⟩ := rwwWord_fields (selDrive p b) 0#12 dur
  unfold devWriteResetWidth
  rw [hs, hz, hd]
  cases b
  · simp [selDrive, hp.1.symm, devOpenDrain, devTagged]
  · simp [selDrive, devPushPull, devTagged]

theorem devWriteResetWidth_pol (p : Config.Params) (hp : p.Distinct) (b : Bool) (dur : BitVec 12) (d : Device) :
    devWriteResetWidth p (rwwWord (selPol p b) 0#12 dur) d = .ok { d with rwDur := dur, rwPol := b } := by
  obtain ⟨hs, hz, hd⟩ := rwwWord_fields (selPol p b) 0#12 dur
  obtain ⟨-, h2, h3, h4, h5, h6⟩ := hp
  unfold devWriteResetWidth
  rw [hs, hz, hd]
  cases b
  · simp [selPol, h2.symm, h4.symm, h6.symm, devActiveLow, devTagged]
  · simp [selPol, h3.symm, h5.symm, devActiveHigh, devTagged]

/-! ## What a write can do to the device -/

/-- What a write of a register can do to the device. -/
def WriteFrame (r : Reg) (v : Word) (d e : Device) : Prop :=
  e.expired = d.expired ∧ e.irqLine = d.irqLine ∧ e.extPulse = d.extPulse ∧
    (CtrlDefined d.ctrl → CtrlDefined e.ctrl) ∧ (r ≠ .ctrl → e.ctrl = d.ctrl) ∧ (r = .ctrl → e.ctrl = v) ∧
    (r ≠ .restart → (r = .ctrl → v.getLsbD 0 = false) → e.counter = d.counter)

theorem devTagged_frame (v : Word) (z du : BitVec 12) (f : Device → Device)
    (hf : ∀ d, (f d).expired = d.expired ∧ (f d).irqLine = d.irqLine ∧ (f d).extPulse = d.extPulse ∧
        (f d).ctrl = d.ctrl ∧ (f d).counter = d.counter) (d e : Device) (h : devTagged z du f d = .ok e) :
    WriteFrame .resetWidth v d e := by
  unfold devTagged at h
  split at h
  · cases h
  · injection h with h
    subst h
    obtain ⟨h1, h2, h3, h4, h5⟩ := hf { d with rwDur := du }
    exact ⟨h1, h2, h3, by rw [h4]; exact id, fun _ => h4, by simp, fun _ _ => h5⟩

theorem devWriteCtrl_frame (p : Config.Params) (v : Word) (d e : Device) (h : devWriteCtrl p v d = .ok e) :
    WriteFrame .ctrl v d e := by
  unfold devWriteCtrl at h
  split at h
  · cases h
  · next hv =>
    injection h with h
    subst h
    refine ⟨rfl, rfl, rfl, fun _ => (ctrlRefusal_eq_none_iff v).1 hv, fun h => absurd rfl h, fun _ => rfl, fun _ hh => ?_⟩
    simp only [ctrlEn, hh rfl, Bool.and_false, Bool.false_and, Bool.false_eq_true, if_false]

theorem devRestart_frame (v : Word) (d e : Device) (h : devRestart d = .ok e) : WriteFrame .restart v d e := by
  injection h with h; subst h; simp [WriteFrame]

theorem devWriteReloadValue_frame (v : Word) (d e : Device) (h : devWriteReloadValue v d = .ok e) :
    WriteFrame .reloadValue v d e := by
  injection h with h; subst h; simp [WriteFrame]

theorem devPushPull_frame (v : Word) (z du : BitVec 12) (d e : Device) (h : devPushPull z du d = .ok e) :
    WriteFrame .resetWidth v d e :=
  devTagged_frame v z du (fun d => { d with rwDrive := true }) (fun _ => ⟨rfl, rfl, rfl, rfl, rfl⟩) d e h

theorem devOpenDrain_frame (v : Word) (z du : BitVec 12) (d e : Device) (h : devOpenDrain z du d = .ok e) :
    WriteFrame .resetWidth v d e :=
  devTagged_frame v z du (fun d => { d with rwDrive := false }) (fun _ => ⟨rfl, rfl, rfl, rfl, rfl⟩) d e h

theorem devActiveHigh_frame (v : Word) (z du : BitVec 12) (d e : Device) (h : devActiveHigh z du d = .ok e) :
    WriteFrame .resetWidth v d e :=
  devTagged_frame v z du (fun d => { d with rwPol := true }) (fun _ => ⟨rfl, rfl, rfl, rfl, rfl⟩) d e h

theorem devActiveLow_frame (v : Word) (z du : BitVec 12) (d e : Device) (h : devActiveLow z du d = .ok e) :
    WriteFrame .resetWidth v d e :=
  devTagged_frame v z du (fun d => { d with rwPol := false }) (fun _ => ⟨rfl, rfl, rfl, rfl, rfl⟩) d e h

theorem deviceWrite_frame (p : Config.Params) (r : Reg) (v : Word) (d e : Device) (h : deviceWrite p r v d = .ok e) :
    WriteFrame r v d e := by
  cases r
  · cases h
  · exact devWriteReloadValue_frame v d e h
  · simp only [deviceWrite] at h
    split at h
    · exact devRestart_frame v d e h
    · cases h
  · exact devWriteCtrl_frame p v d e h
  · simp only [deviceWrite, devWriteResetWidth] at h
    split at h
    · exact devPushPull_frame v _ _ d e h
    split at h
    · exact devOpenDrain_frame v _ _ d e h
    split at h
    · exact devActiveHigh_frame v _ _ d e h
    split at h
    · exact devActiveLow_frame v _ _ d e h
    · cases h

/-! ## Reads and writes -/

/-- The low twelve bits of a RESET_WIDTH read are the duration. -/
theorem deviceRead_resetWidth_fields (d : Device) (f : FreeBits) :
    (deviceRead .resetWidth d f).extractLsb' 0 12 = d.rwDur ∧ (deviceRead .resetWidth d f).getLsbD 30 = d.rwDrive ∧
      (deviceRead .resetWidth d f).getLsbD 31 = d.rwPol := by
  unfold deviceRead
  refine ⟨?_, ?_, ?_⟩
  · apply BitVec.eq_of_getLsbD_eq
    intro i hi
    simp only [BitVec.getLsbD_extractLsb', BitVec.getLsbD_append, hi, decide_true, Bool.true_and]
    rw [if_pos (by omega)]; congr 1; omega
  · simp only [BitVec.getLsbD_append]; simp
  · simp only [BitVec.getLsbD_append]; simp

/-- Bit 0 of a CTRL read is EN. -/
theorem deviceRead_ctrl_en (d : Device) (f : FreeBits) : (deviceRead .ctrl d f).getLsbD 0 = d.ctrl.getLsbD 0 := by
  unfold deviceRead
  simp only [BitVec.getLsbD_append]; simp

theorem rowWrite_of_device (r : Reg) (v : Word) (row : Device → Except Refusal Device) (s : State) (d : Device)
    (hi : s.iface = .device) (hd : row s.dev = .ok d) :
    rowWrite r v row s = .next { s with dev := d, trace := s.trace ++ [.write r v], seq := advance s.seq } := by
  simp [rowWrite, hi, hd]

theorem rowWrite_of_refused (r : Reg) (v : Word) (row : Device → Except Refusal Device) (s : State) (e : Refusal)
    (hi : s.iface = .device) (hd : row s.dev = .error e) : rowWrite r v row s = .refused e := by
  simp [rowWrite, hi, hd]

theorem rowWrite_of_fake (r : Reg) (v : Word) (row : Device → Except Refusal Device) (s : State)
    (hi : s.iface = .fake) :
    rowWrite r v row s =
      .next { s with store := fakeWrite r v s.store, trace := s.trace ++ [.write r v], seq := advance s.seq } := by
  simp [rowWrite, hi]

/-- All that a write can do. -/
theorem rowWrite_eq_next (r : Reg) (v : Word) (row : Device → Except Refusal Device) (s t : State) :
    rowWrite r v row s = .next t ↔
      (s.iface = .device ∧ ∃ d, row s.dev = .ok d ∧
        t = { s with dev := d, trace := s.trace ++ [.write r v], seq := advance s.seq }) ∨
      (s.iface = .fake ∧
        t = { s with store := fakeWrite r v s.store, trace := s.trace ++ [.write r v], seq := advance s.seq }) := by
  unfold rowWrite
  cases hi : s.iface
  · cases hd : row s.dev <;> simp [eq_comm]
  · simp [eq_comm]

/-! ## Raw transactions -/

theorem busRead_of_device (r : Reg) (s : State) (h : CallMayEnter s) (hi : s.iface = .device) :
    busRead r s = .next { s with
      result := some (.word (deviceRead r s.dev s.free))
      trace := s.trace ++ [.read r (deviceRead r s.dev s.free)], free := redraw r s.free } := by
  simp [busRead, hostTurn_of_enter s _ h, noteRead, response, hi, h.2]

theorem busRead_of_fake (r : Reg) (s : State) (h : CallMayEnter s) (hi : s.iface = .fake) :
    busRead r s = .next { s with
      result := some (.word (fakeRead r s.store)), trace := s.trace ++ [.read r (fakeRead r s.store)] } := by
  simp [busRead, hostTurn_of_enter s _ h, noteRead, response, hi, h.2]

theorem busWrite_of_device (r : Reg) (v : Word) (row : Device → Except Refusal Device) (s : State) (d : Device)
    (h : CallMayEnter s) (hi : s.iface = .device) (hd : row s.dev = .ok d) :
    busWrite r v row s = .next { s with dev := d, result := none, trace := s.trace ++ [.write r v] } := by
  simp [busWrite, hostTurn_of_enter s _ h, rowWrite, hi, hd, h.2]

theorem busWrite_of_refused (r : Reg) (v : Word) (row : Device → Except Refusal Device) (s : State) (e : Refusal)
    (h : CallMayEnter s) (hi : s.iface = .device) (hd : row s.dev = .error e) : busWrite r v row s = .refused e := by
  simp [busWrite, hostTurn_of_enter s _ h, rowWrite, hi, hd]

theorem busWrite_of_fake (r : Reg) (v : Word) (row : Device → Except Refusal Device) (s : State)
    (h : CallMayEnter s) (hi : s.iface = .fake) :
    busWrite r v row s =
      .next { s with store := fakeWrite r v s.store, result := none, trace := s.trace ++ [.write r v] } := by
  simp [busWrite, hostTurn_of_enter s _ h, rowWrite, hi, h.2]

end Sys2Proof.Machine
end

