-- ==== Sys2Proof/Laws/PerInstr.lean ====
section
/-! SUPPORT. A statement about every instruction as syntax, one lemma per constructor: the packet an instruction encodes to
is of the instruction's level (30_encoding R60, R71, R75), and a packed transaction has no bit above bit 40 and names one of
the five registers (30_encoding R60, 20_memory R44). -/

namespace Sys2Proof.Laws.EncodingForm

/-- What holds of a packet of that level. -/
def Fits (l : Level) (pk : Packet) : Prop :=
  pk.level = l ∧ ∀ w, pk = .bus w → busStray w = 0#7 ∧ (regAt (busOff w)).isSome = true

/-- The packet of an instruction, if it has one, fits its level. -/
def Statement (i : Instr) : Prop := ∀ p pk, encode p i = some pk → Fits i.level pk

theorem fits_bus (dir : Bool) (r : Reg) (v : Word) : Fits .bus (.bus (busWord dir r v)) := by
  refine ⟨rfl, fun w hw => ?_⟩
  cases hw
  obtain ⟨h1, -, h3, -⟩ := busWord_fields dir r v
  exact ⟨h1, by rw [h3, regAt_regOffset]; rfl⟩

theorem fits_cmd (op : BitVec 8) (arg : Arg) : Fits .cmd (.cmd op arg) := ⟨rfl, fun w hw => by cases hw⟩

theorem of_bus {i : Instr} (dir : Bool) (r : Reg) (v : Config.Params → Word) (hl : i.level = .bus)
    (he : ∀ p, encode p i = some (.bus (busWord dir r (v p)))) : Statement i := by
  intro p pk h
  rw [he p] at h
  cases h
  rw [hl]
  exact fits_bus dir r (v p)

theorem of_cmd {i : Instr} (op : BitVec 8) (arg : Arg) (hl : i.level = .cmd)
    (he : ∀ p, encode p i = some (.cmd op arg)) : Statement i := by
  intro p pk h
  rw [he p] at h
  cases h
  rw [hl]
  exact fits_cmd op arg

theorem rdStatus : Statement .rdStatus := of_bus _ _ _ rfl fun _ => rfl
theorem rdReloadValue : Statement .rdReloadValue := of_bus _ _ _ rfl fun _ => rfl
theorem rdRestart : Statement .rdRestart := of_bus _ _ _ rfl fun _ => rfl
theorem rdCtrl : Statement .rdCtrl := of_bus _ _ _ rfl fun _ => rfl
theorem rdResetWidth : Statement .rdResetWidth := of_bus _ _ _ rfl fun _ => rfl
theorem wrStatus (v : Word) : Statement (.wrStatus v) := of_bus _ _ _ rfl fun _ => rfl
theorem wrReloadValue (v : Word) : Statement (.wrReloadValue v) := of_bus _ _ _ rfl fun _ => rfl
theorem wrRestartMagic : Statement .wrRestartMagic := of_bus _ _ (fun p => restartWord p) rfl fun _ => rfl
theorem wrRestartOther (v : Word) : Statement (.wrRestartOther v) := of_bus _ _ _ rfl fun _ => rfl
theorem wrCtrl (v : Word) : Statement (.wrCtrl v) := of_bus _ _ _ rfl fun _ => rfl
theorem wrResetWidthPushPull (zero dur : BitVec 12) : Statement (.wrResetWidthPushPull zero dur) :=
  of_bus _ _ (fun p => rwwWord p.pushPullMagic zero dur) rfl fun _ => rfl
theorem wrResetWidthOpenDrain (zero dur : BitVec 12) : Statement (.wrResetWidthOpenDrain zero dur) :=
  of_bus _ _ (fun p => rwwWord p.openDrainMagic zero dur) rfl fun _ => rfl
theorem wrResetWidthActiveHigh (zero dur : BitVec 12) : Statement (.wrResetWidthActiveHigh zero dur) :=
  of_bus _ _ (fun p => rwwWord p.activeHighMagic zero dur) rfl fun _ => rfl
theorem wrResetWidthActiveLow (zero dur : BitVec 12) : Statement (.wrResetWidthActiveLow zero dur) :=
  of_bus _ _ (fun p => rwwWord p.activeLowMagic zero dur) rfl fun _ => rfl
theorem wrResetWidthOther (v : Word) : Statement (.wrResetWidthOther v) := of_bus _ _ _ rfl fun _ => rfl
theorem attach (cfg : ResolvedConfiguration) : Statement (.attach cfg) := of_cmd _ _ rfl fun _ => rfl
theorem start (n : Nat) : Statement (.start n) := of_cmd _ _ rfl fun _ => rfl
theorem stop : Statement .stop := of_cmd _ _ rfl fun _ => rfl
theorem ping : Statement .ping := of_cmd _ _ rfl fun _ => rfl
theorem setTimeout (n : Nat) : Statement (.setTimeout n) := of_cmd _ _ rfl fun _ => rfl
theorem forceReset : Statement .forceReset := of_cmd _ _ rfl fun _ => rfl
theorem currentTimeout : Statement .currentTimeout := of_cmd _ _ rfl fun _ => rfl
theorem maxTimeout : Statement .maxTimeout := of_cmd _ _ rfl fun _ => rfl
theorem validatePulseDuration (d : Option Nat) : Statement (.validatePulseDuration d) := of_cmd _ _ rfl fun _ => rfl
theorem configureResetSignal (cfg : ResolvedConfiguration) : Statement (.configureResetSignal cfg) :=
  of_cmd _ _ rfl fun _ => rfl
theorem setDriveMode (b : Bool) : Statement (.setDriveMode b) := of_cmd _ _ rfl fun _ => rfl
theorem setPolarity (b : Bool) : Statement (.setPolarity b) := of_cmd _ _ rfl fun _ => rfl
theorem time : Statement .time := fun _ _ h => by cases h
theorem expire : Statement .expire := fun _ _ h => by cases h

end Sys2Proof.Laws.EncodingForm
end

