-- ==== Sys2Proof/Laws/Sequences.lean ====
section
/-! SUPPORT. The sequencer: one transaction, a whole operation when nothing can happen between its transactions, and what an
operation keeps and answers for every schedule. -/

namespace Sys2Proof.Machine

/-! ## Transactions inside an operation -/

theorem regWrite_ctrl_of_device (v : Word) (s : State) (hi : s.iface = .device) (hv : CtrlDefined v)
    (hc : v.getLsbD 0 = false ∨ s.dev.counter = s.dev.reload) :
    regWrite .ctrl v s =
      .next { s with dev := { s.dev with ctrl := v }, trace := s.trace ++ [.write .ctrl v], seq := advance s.seq } :=
  rowWrite_of_device _ _ _ s _ hi (devWriteCtrl_counter s.par v s.dev hv hc)

theorem regWrite_reloadValue_of_device (v : Word) (s : State) (hi : s.iface = .device) :
    regWrite .reloadValue v s =
      .next { s with
        dev := { s.dev with reload := v }, trace := s.trace ++ [.write .reloadValue v], seq := advance s.seq } :=
  rowWrite_of_device _ _ _ s _ hi rfl

theorem regWrite_restart_of_device (s : State) (hi : s.iface = .device) :
    regWrite .restart (restartWord s.par) s =
      .next { s with
        dev := { s.dev with counter := s.dev.reload }
        trace := s.trace ++ [.write .restart (restartWord s.par)], seq := advance s.seq } :=
  rowWrite_of_device _ _ _ s _ hi (by simp [deviceWrite, devRestart])

theorem regWrite_of_fake (r : Reg) (v : Word) (s : State) (hi : s.iface = .fake) :
    regWrite r v s =
      .next { s with store := fakeWrite r v s.store, trace := s.trace ++ [.write r v], seq := advance s.seq } :=
  rowWrite_of_fake _ _ _ s hi

theorem readLocal_of_device (r : Reg) (s : State) (hi : s.iface = .device) :
    readLocal r s = { s with
      trace := s.trace ++ [.read r (deviceRead r s.dev s.free)], seq := advance s.seq, free := redraw r s.free
      latch := deviceRead r s.dev s.free } := by
  simp [readLocal, noteRead, response, hi]

theorem readLocal_of_fake (r : Reg) (s : State) (hi : s.iface = .fake) :
    readLocal r s = { s with
      trace := s.trace ++ [.read r (fakeRead r s.store)], seq := advance s.seq, latch := fakeRead r s.store } := by
  simp [readLocal, noteRead, response, hi]

/-- The bit attach looks at is EN of the device, or of the fake's word. -/
theorem response_ctrl_en (s : State) :
    ctrlEn (response .ctrl s) = match s.iface with
      | .device => s.dev.ctrl.getLsbD 0
      | .fake => s.store.ctrl.getLsbD 0 := by
  unfold response
  cases s.iface
  · exact deviceRead_ctrl_en s.dev s.free
  · rfl

/-- A tagged drive-mode write of a masked local word. -/
theorem writeTagged_drive_of_device (b : Bool) (s : State) (hi : s.iface = .device) (hp : s.par.Distinct)
    (hl : s.latch &&& durMask = s.latch) :
    writeTagged (selDrive s.par b) s = .next { s with
      dev := { s.dev with rwDur := s.latch.extractLsb' 0 12, rwDrive := b }
      trace := s.trace ++ [.write .resetWidth (rwwWord (selDrive s.par b) 0#12 (s.latch.extractLsb' 0 12))]
      seq := advance s.seq } := by
  have he := encRw_of_masked s.latch (selDrive s.par b)
  rw [hl] at he
  rw [writeTagged, regWrite, he]
  exact rowWrite_of_device _ _ _ s _ hi (devWriteResetWidth_drive s.par hp b _ s.dev)

/-- A tagged polarity write of a masked local word. -/
theorem writeTagged_pol_of_device (b : Bool) (s : State) (hi : s.iface = .device) (hp : s.par.Distinct)
    (hl : s.latch &&& durMask = s.latch) :
    writeTagged (selPol s.par b) s = .next { s with
      dev := { s.dev with rwDur := s.latch.extractLsb' 0 12, rwPol := b }
      trace := s.trace ++ [.write .resetWidth (rwwWord (selPol s.par b) 0#12 (s.latch.extractLsb' 0 12))]
      seq := advance s.seq } := by
  have he := encRw_of_masked s.latch (selPol s.par b)
  rw [hl] at he
  rw [writeTagged, regWrite, he]
  exact rowWrite_of_device _ _ _ s _ hi (devWriteResetWidth_pol s.par hp b _ s.dev)

/-- A tagged write of a masked local word, on the fake. -/
theorem writeTagged_of_fake (sel : BitVec 8) (s : State) (hi : s.iface = .fake)
    (hl : s.latch &&& durMask = s.latch) :
    writeTagged sel s = .next { s with
      store := { s.store with resetWidth := rwwWord sel 0#12 (s.latch.extractLsb' 0 12) }
      trace := s.trace ++ [.write .resetWidth (rwwWord sel 0#12 (s.latch.extractLsb' 0 12))]
      seq := advance s.seq } := by
  have he := encRw_of_masked s.latch sel
  rw [hl] at he
  rw [writeTagged, he, regWrite_of_fake _ _ s hi]
  rfl

theorem durationError_eq_none_iff (d : Option Nat) : durationError d = none ↔ DurationOk d := by
  cases d with
  | none => simp [durationError, DurationOk]
  | some n =>
    by_cases h : 4095 < n
    · simp [durationError, Config.durationMax, DurationOk, h]
    · simp [durationError, Config.durationMax, DurationOk, h]; omega

theorem durationError_of_long (n : Nat) (h : 4095 < n) : durationError (some n) = some n := by
  simp [durationError, Config.durationMax, h]

/-- The duration configure_reset_signal carries, in twelve bits. -/
theorem chosenDuration_of_ok (d : Option Nat) (hd : DurationOk d) (w : Word) :
    chosenDuration d w &&& durMask = chosenDuration d w ∧
      (chosenDuration d w).extractLsb' 0 12 = (d.map (BitVec.ofNat 12)).getD (w.extractLsb' 0 12) := by
  cases d with
  | none => exact ⟨masked_and_mask w, masked_low w⟩
  | some n => exact ⟨word32_masked n (hd n rfl), word32_low n⟩

/-! ## One step of the controller -/

theorem settle_of_pending (s : State) (h : pending s.seq = true) : settle s = s := by
  unfold settle; split <;> simp_all [pending]

/-- The last transaction of an operation that returns. -/
theorem settle_last (s : State) (op : OpName) (k : Nat) (h : s.seq = .running op k []) (ho : op ≠ .forceReset) :
    settle s = { s with seq := .idle, result := some .ok } := by
  unfold settle; split <;> simp_all

/-- The last transaction of force_reset. -/
theorem settle_forceReset (s : State) (k : Nat) (h : s.seq = .running .forceReset k []) :
    settle s = { s with blockUs := 1000000 } := by
  unfold settle; rw [h]; rfl

/-- All that settling can do. -/
theorem settle_cases (s : State) :
    settle s = s ∨ settle s = { s with seq := .idle, result := some .ok } ∨
      ((∃ k, s.seq = .running .forceReset k []) ∧ settle s = { s with blockUs := 1000000 }) := by
  unfold settle
  split
  · next op k h =>
    by_cases ho : op = .forceReset
    · rw [if_pos ho]; exact .inr (.inr ⟨⟨k, ho ▸ h⟩, rfl⟩)
    · rw [if_neg ho]; exact .inr (.inl rfl)
  · exact .inl rfl
  · exact .inl rfl

section settle_frames

variable (s : State)
@[simp] theorem settle_dev : (settle s).dev = s.dev := by obtain h | h | ⟨-, h⟩ := settle_cases s <;> rw [h]
@[simp] theorem settle_ctl : (settle s).ctl = s.ctl := by obtain h | h | ⟨-, h⟩ := settle_cases s <;> rw [h]
@[simp] theorem settle_trace : (settle s).trace = s.trace := by obtain h | h | ⟨-, h⟩ := settle_cases s <;> rw [h]
@[simp] theorem settle_iface : (settle s).iface = s.iface := by obtain h | h | ⟨-, h⟩ := settle_cases s <;> rw [h]
@[simp] theorem settle_par : (settle s).par = s.par := by obtain h | h | ⟨-, h⟩ := settle_cases s <;> rw [h]
@[simp] theorem settle_inbox : (settle s).inbox = s.inbox := by obtain h | h | ⟨-, h⟩ := settle_cases s <;> rw [h]
@[simp] theorem settle_moves : (settle s).moves = s.moves := by obtain h | h | ⟨-, h⟩ := settle_cases s <;> rw [h]
@[simp] theorem settle_todo : (settle s).seq.todo = s.seq.todo := by
  unfold settle
  split
  · next h => split <;> simp [h]
  · rfl
  · rfl

end settle_frames

theorem settled_eq_next (a : Answer) (t : State) : settled a = .next t ↔ ∃ m, a = .next m ∧ t = settle m := by
  cases a <;> simp [settled, eq_comm]

theorem controllerStep_cons (s : State) (op : OpName) (k : Nat) (a : Action) (l : List Action)
    (h : s.seq = .running op k (a :: l)) : controllerStep s = settled (act a { s with seq := .running op k l }) := by
  simp only [controllerStep, h]

theorem controllerStep_nil (s : State) (op : OpName) (k : Nat) (h : s.seq = .running op k []) :
    controllerStep s = .next { s with seq := .idle, result := some .ok } := by
  simp only [controllerStep, h]

/-- All that a step of the controller can do: nothing when no operation is in progress, the return of a waiting caller,
or one transaction, settled. -/
theorem controllerStep_eq_next (s t : State) (h : controllerStep s = .next t) :
    (s.seq = .idle ∧ t = s) ∨
    (∃ op k, s.seq = .running op k [] ∧ t = { s with seq := .idle, result := some .ok }) ∨
    (∃ op k a l m, s.seq = .running op k (a :: l) ∧ act a { s with seq := .running op k l } = .next m ∧ t = settle m) := by
  unfold controllerStep at h
  split at h
  · next hq => injection h with h; exact .inl ⟨hq, h.symm⟩
  · next op k hq => injection h with h; exact .inr (.inl ⟨op, k, hq, h.symm⟩)
  · next op k a l hq =>
    obtain ⟨m, hm, rfl⟩ := (settled_eq_next _ _).1 h
    exact .inr (.inr ⟨op, k, a, l, m, hq, hm, rfl⟩)

/-! ## What a transaction can do -/

/-- All that a transaction can do: attach's read, a configurator's read, or one write, of CTRL only with the disabling
word or the mirror; arm's first line also enables the mirror. -/
theorem act_eq_next (a : Action) (s t : State) (h : act a s = .next t) :
    (∃ n, a = .takeOver n ∧ t = takeOver n s) ∨
    (∃ l, t = { readLocal .resetWidth s with latch := l } ∧ a ≠ .disable ∧ a ≠ .writeMirror) ∨
    (∃ r v l, regWrite r v { s with ctl := if a = .disable then s.ctl.map Controller.enable else s.ctl, latch := l } =
        .next t ∧
      (r = .ctrl → (a = .disable ∧ v = 0#32) ∨ (a = .writeMirror ∧ ∃ c, s.ctl = some c ∧ v = c.ctrl)) ∧
      (a = .disable ∨ a = .writeMirror → r = .ctrl)) := by
  cases a with
  | takeOver n => injection h with h; exact .inl ⟨n, rfl, h.symm⟩
  | fetchDuration d => injection h with h; exact .inr (.inl ⟨_, h.symm, by simp, by simp⟩)
  | disable => exact .inr (.inr ⟨_, _, s.latch, h, fun _ => .inl ⟨rfl, rfl⟩, fun _ => rfl⟩)
  | load count => exact .inr (.inr ⟨_, _, s.latch, h, by simp, by simp⟩)
  | restart => exact .inr (.inr ⟨_, _, s.latch, h, by simp, by simp⟩)
  | tagDrive b => exact .inr (.inr ⟨_, _, s.latch, h, by simp, by simp⟩)
  | tagPolarity b => exact .inr (.inr ⟨_, _, s.latch &&& durMask, h, by simp, by simp⟩)
  | writeMirror =>
    simp only [act, writeMirror] at h
    split at h
    · cases h
    · next c hc => exact .inr (.inr ⟨_, _, s.latch, h, fun _ => .inr ⟨rfl, c, hc, rfl⟩, fun _ => rfl⟩)

/-- What every transaction leaves alone, that it makes one entry of the trace, and that only arm's first line changes the
controller. -/
theorem act_frame (a : Action) (s t : State) (h : act a s = .next t) :
    t.par = s.par ∧ t.iface = s.iface ∧ t.inbox = s.inbox ∧ t.moves = s.moves ∧ t.blockUs = s.blockUs ∧
      t.result = s.result ∧ (∃ e, t.trace = s.trace ++ [e]) ∧
      t.ctl = if a = .disable then s.ctl.map Controller.enable else s.ctl := by
  obtain ⟨n, rfl, rfl⟩ | ⟨l, rfl, hd, -⟩ | ⟨r, v, l, hw, -, -⟩ := act_eq_next a s t h
  · simp
  · simp [hd]
  · obtain ⟨-, d, -, rfl⟩ | ⟨-, rfl⟩ := (rowWrite_eq_next _ _ _ _ _).1 hw <;>
      exact ⟨rfl, rfl, rfl, rfl, rfl, rfl, ⟨_, rfl⟩, rfl⟩

/-- The sequencer after a transaction: one more made, and the start sequence to make if attach found EN set. -/
theorem act_seq (a : Action) (s t : State) (h : act a s = .next t) :
    t.seq = advance s.seq ∨
      ∃ n, a = .takeOver n ∧ ctrlEn (response .ctrl s) = true ∧
        t.seq = push (armProgram (reloadOf n)) (advance s.seq) := by
  obtain ⟨n, rfl, rfl⟩ | ⟨l, rfl, -⟩ | ⟨r, v, l, hw, -, -⟩ := act_eq_next a s t h
  · by_cases he : ctrlEn (response .ctrl s) = true
    · exact .inr ⟨n, rfl, he, by simp [takeOver, he]⟩
    · exact .inl (by simp [takeOver, he])
  · exact .inl rfl
  · obtain ⟨-, d, -, rfl⟩ | ⟨-, rfl⟩ := (rowWrite_eq_next _ _ _ _ _).1 hw <;> exact .inl rfl

/-- The device after a transaction: as before, or as one write of the row's rule leaves it. -/
theorem act_dev (a : Action) (s t : State) (h : act a s = .next t) :
    (t.dev = s.dev ∧ (a = .disable ∨ a = .writeMirror → s.iface = .fake)) ∨
    (s.iface = .device ∧ ∃ r v, deviceWrite s.par r v s.dev = .ok t.dev ∧
      (r = .ctrl → (a = .disable ∧ v = 0#32) ∨ (a = .writeMirror ∧ ∃ c, s.ctl = some c ∧ v = c.ctrl)) ∧
      (a = .disable ∨ a = .writeMirror → r = .ctrl)) := by
  obtain ⟨n, rfl, rfl⟩ | ⟨l, rfl, hd, hw⟩ | ⟨r, v, l, hw, hr, hc⟩ := act_eq_next a s t h
  · exact .inl ⟨rfl, by simp⟩
  · exact .inl ⟨rfl, by simp [hd, hw]⟩
  · obtain ⟨hi, d, hd, rfl⟩ | ⟨hi, rfl⟩ := (rowWrite_eq_next _ _ _ _ _).1 hw
    · exact .inr ⟨hi, r, v, hd, hr, hc⟩
    · exact .inl ⟨rfl, fun _ => hi⟩

/-! ## A whole operation -/

theorem runCall_of_not_pending (n : Nat) (s : State) (h : pending s.seq = false) : runCall n s = .next s := by
  cases n <;> simp [runCall, h]

/-- When nothing can happen in between, the next transaction is made at once. -/
theorem runCall_of_still (n : Nat) (s : State) (hs : Still s) (hp : pending s.seq = true) :
    runCall (n + 1) s = resume n (controllerStep { s with moves := afterTurns s.moves }) := by
  have hl := lapse_of_still s hs
  simp only [runCall, hp, if_true, hl, hs.1, Option.isSome_none, Bool.false_eq_true, if_false]
  rfl

theorem resume_controllerStep {n : Nat} {s m : State} {op : OpName} {k : Nat} {a : Action} {l : List Action}
    (h : s.seq = .running op k (a :: l)) (ha : act a { s with seq := .running op k l } = .next m) :
    resume n (controllerStep s) = runCall n (settle m) := by
  rw [controllerStep_cons s op k a l h, ha]; rfl

/-- A transaction that is not the last, when nothing can happen after it. -/
theorem resume_stage {n : Nat} {s m : State} {op : OpName} {k : Nat} {a : Action} {l : List Action} {r : Answer}
    (h : s.seq = .running op k (a :: l)) (ha : act a { s with seq := .running op k l } = .next m)
    (hp : pending m.seq = true) (hs : Still m)
    (hr : resume n (controllerStep { m with moves := afterTurns m.moves }) = r) :
    resume (n + 1) (controllerStep s) = r := by
  rw [resume_controllerStep h ha, settle_of_pending m hp, runCall_of_still n m hs hp, hr]

/-- The last transaction of an operation that returns. -/
theorem resume_last {n : Nat} {s m : State} {op : OpName} {k j : Nat} {a : Action} {r : Answer}
    (h : s.seq = .running op k [a]) (ha : act a { s with seq := .running op k [] } = .next m)
    (hm : m.seq = .running op j []) (ho : op ≠ .forceReset)
    (hr : .next { m with seq := .idle, result := some .ok } = r) :
    resume n (controllerStep s) = r := by
  rw [resume_controllerStep h ha, settle_last m op j hm ho, runCall_of_not_pending n _ rfl, hr]

/-- All that the rest of an operation can do: it is over, or an expiry ends it, or the next transaction is made. -/
theorem runCall_eq_next (n : Nat) (s t : State) :
    runCall (n + 1) s = .next t ↔
      (pending s.seq = false ∧ t = s) ∨
      (pending s.seq = true ∧ (lapse s).dev.expired ≠ none ∧ t = lapse s) ∨
      (pending s.seq = true ∧ (lapse s).dev.expired = none ∧
        ∃ m, controllerStep (lapse s) = .next m ∧ runCall n m = .next t) := by
  simp only [runCall]
  cases hp : pending s.seq
  · simp [eq_comm]
  · cases he : (lapse s).dev.expired
    · cases hc : controllerStep (lapse s) <;> simp
    · simp [eq_comm]

/-- The rest of an operation keeps what a lapse and every step of the controller keep. -/
theorem runCall_keeps (P : State → Prop) (hl : ∀ s, P s → P (lapse s))
    (hc : ∀ s t, P s → s.dev.expired = none → controllerStep s = .next t → P t) :
    ∀ (n : Nat) (s t : State), P s → runCall n s = .next t → P t := by
  intro n
  induction n with
  | zero => intro s t hs h; injection h with h; exact h ▸ hs
  | succ n ih =>
    intro s t hs h
    obtain ⟨-, rfl⟩ | ⟨-, -, rfl⟩ | ⟨-, he, m, hm, hr⟩ := (runCall_eq_next n s t).1 h
    · exact hs
    · exact hl s hs
    · exact ih m t (hc _ _ (hl s hs) he hm) hr

theorem resume_eq_next (n : Nat) (a : Answer) (t : State) :
    resume n a = .next t ↔ ∃ m, a = .next m ∧ runCall n m = .next t := by
  cases a <;> simp [resume]

theorem complete_eq_next (a : Answer) (t : State) :
    complete a = .next t ↔ ∃ m, a = .next m ∧ runCall maxTransactions m = .next t := resume_eq_next _ a t

@[simp] theorem complete_fault (f : Fault) : complete (.fault f) = .fault f := rfl
@[simp] theorem complete_refused (r : Refusal) : complete (.refused r) = .refused r := rfl

/-- An operation keeps what its first step establishes, and a lapse and every step of the controller keep. -/
theorem complete_keeps (P : State → Prop) {a : Answer} {t : State} (h : complete a = .next t)
    (ha : ∀ s, a = .next s → P s) (hl : ∀ s, P s → P (lapse s))
    (hc : ∀ s t, P s → s.dev.expired = none → controllerStep s = .next t → P t) : P t := by
  obtain ⟨m, hm, hr⟩ := (complete_eq_next a t).1 h
  exact runCall_keeps P hl hc _ m t (ha m hm) hr

/-! ## Every operation ends within its bound -/

/-- How many transactions a sequence can still make: attach's read may put the start sequence before the rest. -/
def weight : List Action → Nat
  | [] => 0
  | .takeOver _ :: l => weight l + 5
  | _ :: l => weight l + 1

theorem weight_cons (a : Action) (l : List Action) : weight l + 1 ≤ weight (a :: l) := by cases a <;> simp [weight]

theorem pending_eq_false_iff (q : Seq) : pending q = false ↔ q.todo = [] := by
  cases q with
  | idle => simp
  | running op k l => cases l <;> simp

/-- Each step of the controller takes at least one off. -/
theorem controllerStep_weight (s t : State) (hp : pending s.seq = true) (h : controllerStep s = .next t) :
    weight t.seq.todo + 1 ≤ weight s.seq.todo := by
  obtain ⟨hq, -⟩ | ⟨op, k, hq, -⟩ | ⟨op, k, a, l, m, hq, ha, rfl⟩ := controllerStep_eq_next s t h
  · simp [hq] at hp
  · simp [hq] at hp
  · rw [settle_todo, hq, todo_running]
    obtain e | ⟨n, rfl, -, e⟩ := act_seq _ _ _ ha
    · rw [e]; exact weight_cons a l
    · rw [e]; simp [weight, armProgram]

/-- With that many steps left, the operation is over or an expiry has ended it. -/
theorem runCall_done (n : Nat) :
    ∀ s t : State, weight s.seq.todo ≤ n → runCall n s = .next t → t.dev.expired ≠ none ∨ t.seq.todo = [] := by
  induction n with
  | zero =>
    intro s t hw h
    injection h with h
    subst h
    cases hq : s.seq.todo with
    | nil => exact .inr rfl
    | cons a l => rw [hq] at hw; have := weight_cons a l; omega
  | succ n ih =>
    intro s t hw h
    obtain ⟨hp, rfl⟩ | ⟨-, hx, rfl⟩ | ⟨hp, -, m, hm, hr⟩ := (runCall_eq_next n s t).1 h
    · exact .inr ((pending_eq_false_iff _).1 hp)
    · exact .inl hx
    · refine ih m t ?_ hr
      have := controllerStep_weight _ _ (by simpa using hp) hm
      rw [lapse_seq] at this
      omega

/-! ## The arm sequence -/

theorem act_disable_of_device (s : State) (hi : s.iface = .device) :
    act .disable s = .next { s with
      dev := { s.dev with ctrl := 0#32 }, ctl := s.ctl.map Controller.enable
      trace := s.trace ++ [.write .ctrl 0#32], seq := advance s.seq } :=
  regWrite_ctrl_of_device _ _ (by exact hi) ctrlDefined_zero (.inl rfl)

theorem act_load_of_device (v : Word) (s : State) (hi : s.iface = .device) :
    act (.load v) s = .next { s with
      dev := { s.dev with reload := v }, trace := s.trace ++ [.write .reloadValue v], seq := advance s.seq } :=
  regWrite_reloadValue_of_device v s hi

theorem act_restart_of_device (s : State) (hi : s.iface = .device) :
    act .restart s = .next { s with
      dev := { s.dev with counter := s.dev.reload }
      trace := s.trace ++ [.write .restart (restartWord s.par)], seq := advance s.seq } :=
  regWrite_restart_of_device s hi

theorem act_load_of_fake (v : Word) (s : State) (hi : s.iface = .fake) :
    act (.load v) s = .next { s with
      store := { s.store with reloadValue := v }, trace := s.trace ++ [.write .reloadValue v], seq := advance s.seq } :=
  regWrite_of_fake _ _ _ hi

theorem act_restart_of_fake (s : State) (hi : s.iface = .fake) :
    act .restart s = .next { s with
      store := { s.store with restart := restartWord s.par }
      trace := s.trace ++ [.write .restart (restartWord s.par)], seq := advance s.seq } :=
  regWrite_of_fake _ _ _ hi

theorem act_writeMirror_of_device (s : State) (c : Controller) (hi : s.iface = .device) (hl : s.ctl = some c)
    (hv : CtrlDefined c.ctrl) (hc : c.ctrl.getLsbD 0 = false ∨ s.dev.counter = s.dev.reload) :
    act .writeMirror s = .next { s with
      dev := { s.dev with ctrl := c.ctrl }, trace := s.trace ++ [.write .ctrl c.ctrl], seq := advance s.seq } := by
  simp only [act, writeMirror, hl]
  rw [regWrite_ctrl_of_device _ _ hi hv hc]
  simp only [hl]

theorem act_disable_of_fake (s : State) (hi : s.iface = .fake) :
    act .disable s = .next { s with
      store := { s.store with ctrl := 0#32 }, ctl := s.ctl.map Controller.enable
      trace := s.trace ++ [.write .ctrl 0#32], seq := advance s.seq } :=
  regWrite_of_fake _ _ _ (by exact hi)

theorem act_writeMirror_of_fake (s : State) (c : Controller) (hi : s.iface = .fake) (hl : s.ctl = some c) :
    act .writeMirror s = .next { s with
      store := { s.store with ctrl := c.ctrl }, trace := s.trace ++ [.write .ctrl c.ctrl], seq := advance s.seq } := by
  simp only [act, writeMirror, hl]
  rw [regWrite_of_fake _ _ _ hi]
  simp only [hl, fakeWrite]

/-- For every schedule: the first write halts the timer, so nothing can happen before the last one. -/
theorem arm_of_device (n : Nat) (count : Word) (op : OpName) (k : Nat) (rest : List Action) (c : Controller) (s : State)
    (hq : s.seq = .running op k (armProgram count ++ rest)) (hi : s.iface = .device) (he : s.dev.expired = none)
    (hb : s.blockUs = 0) (hl : s.ctl = some c) (hc : c.ctrl ∈ mirrorWords) :
    resume (n + 3) (controllerStep s) = runCall n (settle { s with
      dev := { s.dev with counter := count, reload := count, ctrl := c.ctrl ||| 1#32 }
      ctl := some c.enable
      trace := s.trace ++ [.write .ctrl 0#32, .write .reloadValue count, .write .restart (restartWord s.par),
        .write .ctrl (c.ctrl ||| 1#32)]
      seq := .running op (k + 4) rest
      moves := afterTurns (afterTurns (afterTurns s.moves)) }) := by
  have h0 : (0#32 : Word).getLsbD 0 = false := rfl
  have hv := mirrorWords_defined _ (mirrorWords_or_en _ hc)
  refine resume_stage hq (act_disable_of_device _ (by exact hi)) rfl (by exact ⟨he, .inl ⟨.inl ⟨hi, h0⟩, hb⟩⟩) ?_
  refine resume_stage rfl (act_load_of_device _ _ (by exact hi)) rfl (by exact ⟨he, .inl ⟨.inl ⟨hi, h0⟩, hb⟩⟩) ?_
  refine resume_stage rfl (act_restart_of_device _ (by exact hi)) rfl (by exact ⟨he, .inl ⟨.inl ⟨hi, h0⟩, hb⟩⟩) ?_
  refine Eq.trans (resume_controllerStep rfl
    (act_writeMirror_of_device _ c.enable (by exact hi) (by simp [hl]) hv (.inr rfl))) ?_
  simp [hl]

theorem arm_of_fake (n : Nat) (count : Word) (op : OpName) (k : Nat) (rest : List Action) (c : Controller) (s : State)
    (hq : s.seq = .running op k (armProgram count ++ rest)) (hi : s.iface = .fake) (he : s.dev.expired = none)
    (hb : s.blockUs = 0) (hl : s.ctl = some c) :
    resume (n + 3) (controllerStep s) = runCall n (settle { s with
      store := { s.store with ctrl := c.ctrl ||| 1#32, reloadValue := count, restart := restartWord s.par }
      ctl := some c.enable
      trace := s.trace ++ [.write .ctrl 0#32, .write .reloadValue count, .write .restart (restartWord s.par),
        .write .ctrl (c.ctrl ||| 1#32)]
      seq := .running op (k + 4) rest
      moves := afterTurns (afterTurns (afterTurns s.moves)) }) := by
  refine resume_stage hq (act_disable_of_fake _ (by exact hi)) rfl (by exact ⟨he, .inl ⟨.inr hi, hb⟩⟩) ?_
  refine resume_stage rfl (act_load_of_fake _ _ (by exact hi)) rfl (by exact ⟨he, .inl ⟨.inr hi, hb⟩⟩) ?_
  refine resume_stage rfl (act_restart_of_fake _ (by exact hi)) rfl (by exact ⟨he, .inl ⟨.inr hi, hb⟩⟩) ?_
  refine Eq.trans (resume_controllerStep rfl
    (act_writeMirror_of_fake _ c.enable (by exact hi) (by simp [hl]))) ?_
  simp [hl]

/-! ## The configurator's sequences -/

theorem act_fetchDuration_of_device (d : Option Nat) (s : State) (hi : s.iface = .device) :
    act (.fetchDuration d) s = .next { s with
      trace := s.trace ++ [.read .resetWidth (deviceRead .resetWidth s.dev s.free)], seq := advance s.seq
      free := redraw .resetWidth s.free, latch := chosenDuration d (deviceRead .resetWidth s.dev s.free) } := by
  simp [act, readLocal_of_device _ _ hi, response, hi]

theorem act_tagDrive_of_device (b : Bool) (s : State) (hi : s.iface = .device) (hp : s.par.Distinct)
    (hl : s.latch &&& durMask = s.latch) :
    act (.tagDrive b) s = .next { s with
      dev := { s.dev with rwDur := s.latch.extractLsb' 0 12, rwDrive := b }
      trace := s.trace ++ [.write .resetWidth (rwwWord (selDrive s.par b) 0#12 (s.latch.extractLsb' 0 12))]
      seq := advance s.seq } :=
  writeTagged_drive_of_device b s hi hp hl

theorem act_tagPolarity_of_device (b : Bool) (s : State) (hi : s.iface = .device) (hp : s.par.Distinct) :
    act (.tagPolarity b) s = .next { s with
      dev := { s.dev with rwDur := s.latch.extractLsb' 0 12, rwPol := b }
      trace := s.trace ++ [.write .resetWidth (rwwWord (selPol s.par b) 0#12 (s.latch.extractLsb' 0 12))]
      seq := advance s.seq, latch := s.latch &&& durMask } := by
  have h := writeTagged_pol_of_device b { s with latch := s.latch &&& durMask } hi hp (masked_and_mask _)
  rw [masked_low] at h
  exact h

theorem act_tagDrive_of_fake (b : Bool) (s : State) (hi : s.iface = .fake) (hl : s.latch &&& durMask = s.latch) :
    act (.tagDrive b) s = .next { s with
      store := { s.store with resetWidth := rwwWord (selDrive s.par b) 0#12 (s.latch.extractLsb' 0 12) }
      trace := s.trace ++ [.write .resetWidth (rwwWord (selDrive s.par b) 0#12 (s.latch.extractLsb' 0 12))]
      seq := advance s.seq } :=
  writeTagged_of_fake _ s hi hl

theorem act_tagPolarity_of_fake (b : Bool) (s : State) (hi : s.iface = .fake) :
    act (.tagPolarity b) s = .next { s with
      store := { s.store with resetWidth := rwwWord (selPol s.par b) 0#12 (s.latch.extractLsb' 0 12) }
      trace := s.trace ++ [.write .resetWidth (rwwWord (selPol s.par b) 0#12 (s.latch.extractLsb' 0 12))]
      seq := advance s.seq, latch := s.latch &&& durMask } := by
  have h := writeTagged_of_fake (selPol s.par b) { s with latch := s.latch &&& durMask } hi (masked_and_mask _)
  rw [masked_low] at h
  exact h

theorem act_fetchDuration_of_fake (d : Option Nat) (s : State) (hi : s.iface = .fake) :
    act (.fetchDuration d) s = .next { s with
      trace := s.trace ++ [.read .resetWidth s.store.resetWidth], seq := advance s.seq
      latch := chosenDuration d s.store.resetWidth } := by
  simp [act, readLocal_of_fake _ _ hi, response, hi, fakeRead]

/-- The sequence of configure_reset_signal, for an operation that then returns. -/
theorem configure_of_device (n : Nat) (cfg : ResolvedConfiguration) (op : OpName) (k : Nat) (s : State)
    (hq : s.seq = .running op k (configureProgram cfg)) (ho : op ≠ .forceReset) (hi : s.iface = .device)
    (hp : s.par.Distinct) (hd : DurationOk cfg.pulseDurationTicks) (hs : Still s) :
    resume (n + 2) (controllerStep s) = .next { s with
      dev := { s.dev with
        rwDur := (cfg.pulseDurationTicks.map (BitVec.ofNat 12)).getD s.dev.rwDur
        rwDrive := cfg.pushPull, rwPol := cfg.activeHigh }
      trace := s.trace ++ [.read .resetWidth (deviceRead .resetWidth s.dev s.free),
        .write .resetWidth (rwwWord (selDrive s.par cfg.pushPull) 0#12
          ((cfg.pulseDurationTicks.map (BitVec.ofNat 12)).getD s.dev.rwDur)),
        .write .resetWidth (rwwWord (selPol s.par cfg.activeHigh) 0#12
          ((cfg.pulseDurationTicks.map (BitVec.ofNat 12)).getD s.dev.rwDur))]
      seq := .idle, result := some .ok
      latch := chosenDuration cfg.pulseDurationTicks (deviceRead .resetWidth s.dev s.free)
      moves := afterTurns (afterTurns s.moves), free := redraw .resetWidth s.free } := by
  obtain ⟨hm, hl⟩ := chosenDuration_of_ok cfg.pulseDurationTicks hd (deviceRead .resetWidth s.dev s.free)
  rw [(deviceRead_resetWidth_fields s.dev s.free).1] at hl
  obtain ⟨he, hq2⟩ := hs
  have hq1 : (((Halted s ∨ s.iface = .fake) ∧ s.blockUs = 0) ∨ afterTurns s.moves = []) :=
    hq2.imp id (fun h => by rw [h]; rfl)
  refine resume_stage hq (act_fetchDuration_of_device _ _ (by exact hi)) rfl (by exact ⟨he, hq2⟩) ?_
  refine resume_stage rfl (act_tagDrive_of_device _ _ (by exact hi) (by exact hp) (by exact hm)) rfl (by exact ⟨he, hq1⟩) ?_
  refine resume_last rfl (act_tagPolarity_of_device _ _ (by exact hi) (by exact hp)) rfl ho ?_
  simp [hl, hm]

theorem configure_of_fake (n : Nat) (cfg : ResolvedConfiguration) (op : OpName) (k : Nat) (s : State)
    (hq : s.seq = .running op k (configureProgram cfg)) (ho : op ≠ .forceReset) (hi : s.iface = .fake)
    (hd : DurationOk cfg.pulseDurationTicks) (hs : Still s) :
    resume (n + 2) (controllerStep s) = .next { s with
      store := { s.store with
        resetWidth := rwwWord (selPol s.par cfg.activeHigh) 0#12
          ((cfg.pulseDurationTicks.map (BitVec.ofNat 12)).getD (s.store.resetWidth.extractLsb' 0 12)) }
      trace := s.trace ++ [.read .resetWidth s.store.resetWidth,
        .write .resetWidth (rwwWord (selDrive s.par cfg.pushPull) 0#12
          ((cfg.pulseDurationTicks.map (BitVec.ofNat 12)).getD (s.store.resetWidth.extractLsb' 0 12))),
        .write .resetWidth (rwwWord (selPol s.par cfg.activeHigh) 0#12
          ((cfg.pulseDurationTicks.map (BitVec.ofNat 12)).getD (s.store.resetWidth.extractLsb' 0 12)))]
      seq := .idle, result := some .ok
      latch := chosenDuration cfg.pulseDurationTicks s.store.resetWidth
      moves := afterTurns (afterTurns s.moves) } := by
  obtain ⟨hm, hl⟩ := chosenDuration_of_ok cfg.pulseDurationTicks hd s.store.resetWidth
  obtain ⟨he, hq2⟩ := hs
  have hq1 : (((Halted s ∨ s.iface = .fake) ∧ s.blockUs = 0) ∨ afterTurns s.moves = []) :=
    hq2.imp id (fun h => by rw [h]; rfl)
  refine resume_stage hq (act_fetchDuration_of_fake _ _ (by exact hi)) rfl (by exact ⟨he, hq2⟩) ?_
  refine resume_stage rfl (act_tagDrive_of_fake _ _ (by exact hi) (by exact hm)) rfl (by exact ⟨he, hq1⟩) ?_
  refine resume_last rfl (act_tagPolarity_of_fake _ _ (by exact hi)) rfl ho ?_
  simp [hl, hm]

/-- A read-modify-write of the drive mode, for an operation that then returns. -/
theorem retag_drive_of_device (n : Nat) (b : Bool) (op : OpName) (k : Nat) (s : State)
    (hq : s.seq = .running op k [.fetchDuration none, .tagDrive b]) (ho : op ≠ .forceReset) (hi : s.iface = .device)
    (hp : s.par.Distinct) (hs : Still s) :
    resume (n + 1) (controllerStep s) = .next { s with
      dev := { s.dev with rwDrive := b }
      trace := s.trace ++ [.read .resetWidth (deviceRead .resetWidth s.dev s.free),
        .write .resetWidth (rwwWord (selDrive s.par b) 0#12 s.dev.rwDur)]
      seq := .idle, result := some .ok
      latch := deviceRead .resetWidth s.dev s.free &&& durMask
      moves := afterTurns s.moves, free := redraw .resetWidth s.free } := by
  refine resume_stage hq (act_fetchDuration_of_device _ _ (by exact hi)) rfl (by exact hs) ?_
  refine resume_last rfl (act_tagDrive_of_device _ _ (by exact hi) (by exact hp) (masked_and_mask _)) rfl ho ?_
  simp [chosenDuration, masked_low, (deviceRead_resetWidth_fields s.dev s.free).1]

/-- A read-modify-write of the polarity, for an operation that then returns. -/
theorem retag_pol_of_device (n : Nat) (b : Bool) (op : OpName) (k : Nat) (s : State)
    (hq : s.seq = .running op k [.fetchDuration none, .tagPolarity b]) (ho : op ≠ .forceReset) (hi : s.iface = .device)
    (hp : s.par.Distinct) (hs : Still s) :
    resume (n + 1) (controllerStep s) = .next { s with
      dev := { s.dev with rwPol := b }
      trace := s.trace ++ [.read .resetWidth (deviceRead .resetWidth s.dev s.free),
        .write .resetWidth (rwwWord (selPol s.par b) 0#12 s.dev.rwDur)]
      seq := .idle, result := some .ok
      latch := deviceRead .resetWidth s.dev s.free &&& durMask
      moves := afterTurns s.moves, free := redraw .resetWidth s.free } := by
  refine resume_stage hq (act_fetchDuration_of_device _ _ (by exact hi)) rfl (by exact hs) ?_
  refine resume_last rfl (act_tagPolarity_of_device _ _ (by exact hi) (by exact hp)) rfl ho ?_
  simp [chosenDuration, masked_and_mask, masked_low, (deviceRead_resetWidth_fields s.dev s.free).1]

/-- Either read-modify-write on the fake. -/
theorem retag_of_fake (n : Nat) (a : Action) (sel : BitVec 8) (op : OpName) (k : Nat) (s : State)
    (ha : (∃ b, a = .tagDrive b ∧ sel = selDrive s.par b) ∨ ∃ b, a = .tagPolarity b ∧ sel = selPol s.par b)
    (hq : s.seq = .running op k [.fetchDuration none, a]) (ho : op ≠ .forceReset) (hi : s.iface = .fake)
    (hs : Still s) :
    resume (n + 1) (controllerStep s) = .next { s with
      store := { s.store with resetWidth := rwwWord sel 0#12 (s.store.resetWidth.extractLsb' 0 12) }
      trace := s.trace ++ [.read .resetWidth s.store.resetWidth,
        .write .resetWidth (rwwWord sel 0#12 (s.store.resetWidth.extractLsb' 0 12))]
      seq := .idle, result := some .ok
      latch := s.store.resetWidth &&& durMask
      moves := afterTurns s.moves } := by
  refine resume_stage hq (act_fetchDuration_of_fake _ _ (by exact hi)) rfl (by exact hs) ?_
  obtain ⟨b, rfl, rfl⟩ | ⟨b, rfl, rfl⟩ := ha
  · refine resume_last rfl (act_tagDrive_of_fake _ _ (by exact hi) (masked_and_mask _)) rfl ho ?_
    simp [chosenDuration, masked_low]
  · refine resume_last rfl (act_tagPolarity_of_fake _ _ (by exact hi)) rfl ho ?_
    simp [chosenDuration, masked_and_mask, masked_low]

/-! ## The read of attach -/

/-- What attach's read of CTRL does: the word read goes to the local word, and EN in it decides whether the start sequence
comes next. -/
theorem act_takeOver (n : Nat) (s : State) (b : Bool)
    (hb : (match s.iface with | .device => s.dev.ctrl.getLsbD 0 | .fake => s.store.ctrl.getLsbD 0) = b) :
    act (.takeOver n) s = .next { readLocal .ctrl s with
      seq := cond b (push (armProgram (reloadOf n)) (advance s.seq)) (advance s.seq) } := by
  simp only [act, takeOver, response_ctrl_en, hb]
  cases b <;> rfl

theorem act_takeOver_of_device (n : Nat) (s : State) (b : Bool) (hi : s.iface = .device)
    (hb : s.dev.ctrl.getLsbD 0 = b) :
    act (.takeOver n) s = .next { s with
      trace := s.trace ++ [.read .ctrl (deviceRead .ctrl s.dev s.free)], free := redraw .ctrl s.free
      latch := deviceRead .ctrl s.dev s.free
      seq := cond b (push (armProgram (reloadOf n)) (advance s.seq)) (advance s.seq) } := by
  rw [act_takeOver n s b (by rw [hi]; exact hb), readLocal_of_device _ _ hi]

theorem act_takeOver_of_fake (n : Nat) (s : State) (b : Bool) (hi : s.iface = .fake)
    (hb : s.store.ctrl.getLsbD 0 = b) :
    act (.takeOver n) s = .next { s with
      trace := s.trace ++ [.read .ctrl s.store.ctrl], latch := s.store.ctrl
      seq := cond b (push (armProgram (reloadOf n)) (advance s.seq)) (advance s.seq) } := by
  rw [act_takeOver n s b (by rw [hi]; exact hb), readLocal_of_fake _ _ hi]; rfl

/-! ## Answering a next state, whatever the schedule

For a schedule that may expire the watchdog inside an operation: the operation answers a next state, and a property holds
of it unless the watchdog has expired. -/

/-- The answer is a next state, with the property unless the watchdog has expired. -/
def Answers (P : State → Prop) (a : Answer) : Prop := ∃ t, a = .next t ∧ (t.dev.expired = none → P t)

/-- One stage of an operation: what holds after a transaction holds after the lapse, and then the next one answers. -/
theorem runCall_answers {P Q : State → Prop} {n : Nat} {s : State} (h : P s) (hp : pending s.seq = true)
    (hl : ∀ s, P s → P (lapse s))
    (hk : ∀ m, P m → m.seq = s.seq → m.dev.expired = none → Answers Q (resume n (controllerStep m))) :
    Answers Q (runCall (n + 1) s) := by
  simp only [runCall, hp, if_true]
  cases he : (lapse s).dev.expired with
  | some r => exact ⟨lapse s, by simp, fun h => by rw [he] at h; cases h⟩
  | none => exact hk (lapse s) (hl s h) (lapse_seq s) he

theorem answers_of_next {P : State → Prop} {a : Answer} {t : State} (h : a = .next t) (hp : P t) : Answers P a :=
  ⟨t, h, fun _ => hp⟩

end Sys2Proof.Machine
end

