-- ==== Sys2Proof/Laws/Steps.lean ====
section
/-! SUPPORT. The counter agent's instructions by their enabling condition, and steps and runs of the machine. -/

namespace Sys2Proof.Machine

theorem exec_time_of_not_due (s : State) (he : s.dev.expired = none) (h : ¬ Due s) :
    exec .time s = .next (passMicrosecond s) := by
  simp [exec, execTime, he, (expiryDue_false_iff s).2 h]

theorem exec_time_of_due (s : State) (h : Due s) : exec .time s = .fault .timeDisabled := by
  simp [exec, execTime, h.2.1, (expiryDue_iff s).2 h]

theorem exec_expire_of_due (s : State) (h : Due s) : exec .expire s = .next (takeExpiry s) := by
  simp [exec, execExpire, h.2.1, (expiryDue_iff s).2 h]

theorem exec_expire_of_not_due (s : State) (he : s.dev.expired = none) (h : ¬ Due s) :
    exec .expire s = .fault .expireDisabled := by
  simp [exec, execExpire, he, (expiryDue_false_iff s).2 h]

theorem counterInstr_of_due (s : State) (h : Due s) : counterInstr s = .expire := by
  simp [counterInstr, (expiryDue_iff s).2 h]

theorem counterInstr_of_not_due (s : State) (h : ¬ Due s) : counterInstr s = .time := by
  simp [counterInstr, (expiryDue_false_iff s).2 h]

/-- The counter agent's instruction is its turn. -/
theorem exec_counterInstr (s : State) (he : s.dev.expired = none) :
    exec (counterInstr s) s = .next (counterTurn s) := by
  by_cases hd : Due s
  · rw [counterInstr_of_due s hd, exec_expire_of_due s hd, counterTurn_of_due s hd]
  · rw [counterInstr_of_not_due s hd, exec_time_of_not_due s he hd, counterTurn_of_not_due s hd]

/-! ## What moves next -/

/-- A step when nobody but the counter agent can move. -/
theorem step_of_onlyCounter (s : State) (he : s.dev.expired = none) (hq : onlyCounter s = true) :
    step s = .next (counterTurn s) := by
  simp only [step, nextAction, he, hq, Option.isSome_none, Bool.false_eq_true, if_false, if_true]
  exact exec_counterInstr s he

/-- A step when the schedule gives the counter agent the turn. -/
theorem step_of_counterFirst (s : State) (ms : List Mover) (he : s.dev.expired = none) (hq : onlyCounter s = false)
    (hm : s.moves = .counter :: ms) : step s = .next { counterTurn s with moves := ms } := by
  simp only [step, nextAction, he, hq, hm, counterFirst, Option.isSome_none, Bool.false_eq_true, if_false, if_true,
    List.tail_cons]
  rw [exec_counterInstr _ (by exact he), counterTurn_moves_comm]

/-- A step when the operation in progress goes on. -/
theorem step_of_proceed (s : State) (he : s.dev.expired = none) (hq : s.seq ≠ .idle) (hw : callerWaits s = false)
    (hm : counterFirst s.moves = false) : step s = controllerStep { s with moves := afterIssuer s.moves } := by
  have ho : onlyCounter s = false := by simp [onlyCounter, hw, hq]
  simp only [step, nextAction, he, ho, hm, Option.isSome_none, Bool.false_eq_true, if_false]
  rw [if_pos hq]

/-- A step when the host's next packet enters. -/
theorem step_of_issue (s : State) (pk : Packet) (rest : List Packet) (i : Instr) (h : CallMayEnter s)
    (hi : s.inbox = pk :: rest) (hm : counterFirst s.moves = false) (hd : decode s.par pk = .ok i) :
    step s = begin i { s with inbox := rest, moves := afterIssuer s.moves } := by
  have ho : onlyCounter s = false := by simp [onlyCounter, callerWaits, h.2, hi]
  simp [step, nextAction, h.1, h.2, ho, hm, hi, issue, hd]

/-- All that a step can do: a turn of the counter agent, the next step of the operation in progress, or the first step of
a row the host hands over, with only the packets and the schedule changed before it. -/
theorem step_cases (s t : State) (h : step s = .next t) :
    s.dev.expired = none ∧ ∃ mv,
      (t = counterTurn { s with moves := mv }) ∨
      (s.seq ≠ .idle ∧ callerWaits s = false ∧ controllerStep { s with moves := mv } = .next t) ∨
      (s.seq = .idle ∧ ∃ pk rest i, s.inbox = pk :: rest ∧ decode s.par pk = .ok i ∧
        begin i { s with inbox := rest, moves := mv } = .next t) := by
  by_cases he : s.dev.expired = none
  swap
  · simp [step, nextAction, Option.isSome_iff_ne_none.2 he] at h
  refine ⟨he, ?_⟩
  cases hq : onlyCounter s with
  | true => rw [step_of_onlyCounter s he hq] at h; injection h with h; exact ⟨s.moves, .inl h.symm⟩
  | false =>
    simp only [step, nextAction, he, hq, Option.isSome_none, Bool.false_eq_true, if_false] at h
    by_cases hm : counterFirst s.moves = true
    · rw [if_pos hm] at h
      simp only at h
      rw [exec_counterInstr _ (by exact he)] at h
      injection h with h
      exact ⟨_, .inl h.symm⟩
    · rw [if_neg hm] at h
      by_cases hi : s.seq = .idle
      · rw [if_neg (by simpa using hi)] at h
        cases hx : s.inbox with
        | nil => simp [onlyCounter, hi, hx] at hq
        | cons pk rest =>
          rw [hx] at h
          simp only [issue] at h
          cases hd : decode s.par pk with
          | ok i => rw [hd] at h; exact ⟨_, .inr (.inr ⟨hi, pk, rest, i, rfl, hd, h⟩)⟩
          | error e => rw [hd] at h; cases h
      · rw [if_pos hi] at h
        exact ⟨_, .inr (.inl ⟨hi, by simpa [onlyCounter, hi] using hq, h⟩)⟩

/-- The first step of a row is the whole row, or, for an operation, the row is that step brought to its end. -/
theorem exec_eq_begin (i : Instr) (s : State) : exec i s = begin i s ∨ exec i s = complete (begin i s) := by
  cases i <;> first | exact .inl rfl | exact .inr rfl

/-! ## Entering -/

/-- How an operation enters: the controller it enters with and its sequence. -/
inductive Enters (s : State) : Instr → OpName → List Action → Controller → Prop where
  | attach (cfg : ResolvedConfiguration) (h : s.ctl = none) (hd : DurationOk cfg.pulseDurationTicks) :
      Enters s (.attach cfg) .attach (.takeOver s.par.defaultTimeoutS :: configureProgram cfg) (newController s.par cfg)
  | start (c : Controller) (ts : Nat) (h : s.ctl = some c) :
      Enters s (.start ts) .start (armProgram (reloadOf ts)) { c with timeout := ts }
  | forceReset (c : Controller) (h : s.ctl = some c) : Enters s .forceReset .forceReset (armProgram forceResetWord) c
  | stop (c : Controller) (h : s.ctl = some c) : Enters s .stop .stop [.writeMirror] c.disable
  | ping (c : Controller) (h : s.ctl = some c) : Enters s .ping .ping [.restart] c
  | setTimeout (c : Controller) (ts : Nat) (h : s.ctl = some c) :
      Enters s (.setTimeout ts) .setTimeout [.load (reloadOf ts), .restart] { c with timeout := ts }
  | configureResetSignal (c : Controller) (cfg : ResolvedConfiguration) (h : s.ctl = some c)
      (hd : DurationOk cfg.pulseDurationTicks) :
      Enters s (.configureResetSignal cfg) .configureResetSignal (configureProgram cfg) c
  | setDriveMode (c : Controller) (b : Bool) (h : s.ctl = some c) :
      Enters s (.setDriveMode b) .setDriveMode [.fetchDuration none, .tagDrive b] c
  | setPolarity (c : Controller) (b : Bool) (h : s.ctl = some c) :
      Enters s (.setPolarity b) .setPolarity [.fetchDuration none, .tagPolarity b] c

theorem ctl_self {s : State} {c : Controller} (h : s.ctl = some c) : { s with ctl := some c } = s := by
  cases s; simp_all

/-- All that the first step of a row can do, but for the counter agent's two: a query or the validation gives its answer, a raw
transaction is made, or an operation enters with its sequence and the controller makes the first transaction. -/
theorem begin_eq_next (i : Instr) (s t : State) (ha : i.level ≠ .agent) (h : begin i s = .next t) :
    CallMayEnter s ∧
    ((exec i s = .next t ∧ ∃ r, t = { s with result := some r }) ∨
      (exec i s = .next t ∧ ∃ r, t = { noteRead r s with result := some (.word (response r s)) }) ∨
      (exec i s = .next t ∧ ∃ r v row, rowWrite r v row { s with result := none } = .next t ∧ (∀ d e, row d = .ok e → WriteFrame r v d e) ∧
        (r = .ctrl → i = .wrCtrl v)) ∨
      (exec i s = complete (begin i s) ∧ ∃ op prog c, Enters s i op prog c ∧ call op prog { s with ctl := some c } = .next t)) := by
  have read : ∀ r, busRead r s = .next t →
      CallMayEnter s ∧ ∃ r, t = { noteRead r s with result := some (.word (response r s)) } := by
    intro r h
    obtain ⟨he, h⟩ := (hostTurn_eq_next _ _ _).1 h
    injection h with h
    exact ⟨he, r, h.symm⟩
  have write : ∀ r v row, busWrite r v row s = .next t → (∀ d e, row d = .ok e → WriteFrame r v d e) →
      (r = .ctrl → i = .wrCtrl v) →
      CallMayEnter s ∧ ∃ r v row, rowWrite r v row { s with result := none } = .next t ∧
        (∀ d e, row d = .ok e → WriteFrame r v d e) ∧ (r = .ctrl → i = .wrCtrl v) := by
    intro r v row h hr hi
    obtain ⟨he, h⟩ := (hostTurn_eq_next _ _ _).1 h
    exact ⟨he, r, v, row, h, hr, hi⟩
  have h' := h
  cases i <;> simp only [begin, exec] at h
  case time => exact absurd rfl ha
  case expire => exact absurd rfl ha
  case rdStatus | rdReloadValue | rdRestart | rdCtrl | rdResetWidth =>
    exact (read _ h).imp id fun h => .inr (.inl ⟨h', h⟩)
  case wrStatus => exact (write _ _ _ h (fun d e h => by cases h) (by simp)).imp id fun h => .inr (.inr (.inl ⟨h', h⟩))
  case wrRestartOther => exact (write _ _ _ h (fun d e h => by cases h) (by simp)).imp id fun h => .inr (.inr (.inl ⟨h', h⟩))
  case wrResetWidthOther => exact (write _ _ _ h (fun d e h => by cases h) (by simp)).imp id fun h => .inr (.inr (.inl ⟨h', h⟩))
  case wrReloadValue => exact (write _ _ _ h (devWriteReloadValue_frame _) (by simp)).imp id fun h => .inr (.inr (.inl ⟨h', h⟩))
  case wrRestartMagic => exact (write _ _ _ h (devRestart_frame _) (by simp)).imp id fun h => .inr (.inr (.inl ⟨h', h⟩))
  case wrCtrl => exact (write _ _ _ h (devWriteCtrl_frame _ _) (by simp)).imp id fun h => .inr (.inr (.inl ⟨h', h⟩))
  case wrResetWidthPushPull => exact (write _ _ _ h (devPushPull_frame _ _ _) (by simp)).imp id fun h => .inr (.inr (.inl ⟨h', h⟩))
  case wrResetWidthOpenDrain => exact (write _ _ _ h (devOpenDrain_frame _ _ _) (by simp)).imp id fun h => .inr (.inr (.inl ⟨h', h⟩))
  case wrResetWidthActiveHigh => exact (write _ _ _ h (devActiveHigh_frame _ _ _) (by simp)).imp id fun h => .inr (.inr (.inl ⟨h', h⟩))
  case wrResetWidthActiveLow => exact (write _ _ _ h (devActiveLow_frame _ _ _) (by simp)).imp id fun h => .inr (.inr (.inl ⟨h', h⟩))
  case attach cfg =>
    obtain ⟨he, h⟩ := (hostTurn_eq_next _ _ _).1 h
    refine ⟨he, ?_⟩
    split at h
    · cases h
    next hc =>
    split at h
    · next n hn =>
      injection h with h
      refine .inl ⟨?_, _, h.symm⟩
      show complete (begin (.attach cfg) s) = _
      rw [h', complete, resume]
      exact runCall_of_not_pending _ _ (by rw [← h]; show pending s.seq = false; rw [he.2]; rfl)
    · next hd =>
      exact .inr (.inr (.inr ⟨rfl, _, _, _, .attach cfg (by simpa using hc) ((durationError_eq_none_iff _).1 hd), h⟩))
  case start ts =>
    obtain ⟨he, c, hc, h⟩ := (controllerTurn_eq_next _ _ _).1 h
    exact ⟨he, .inr (.inr (.inr ⟨rfl, _, _, _, .start c ts hc, h⟩))⟩
  case stop =>
    obtain ⟨he, c, hc, h⟩ := (controllerTurn_eq_next _ _ _).1 h
    exact ⟨he, .inr (.inr (.inr ⟨rfl, _, _, _, .stop c hc, h⟩))⟩
  case ping =>
    obtain ⟨he, c, hc, h⟩ := (controllerTurn_eq_next _ _ _).1 h
    exact ⟨he, .inr (.inr (.inr ⟨rfl, _, _, _, .ping c hc, by rw [ctl_self hc]; exact h⟩))⟩
  case setTimeout ts =>
    obtain ⟨he, c, hc, h⟩ := (controllerTurn_eq_next _ _ _).1 h
    exact ⟨he, .inr (.inr (.inr ⟨rfl, _, _, _, .setTimeout c ts hc, h⟩))⟩
  case forceReset =>
    obtain ⟨he, c, hc, h⟩ := (controllerTurn_eq_next _ _ _).1 h
    exact ⟨he, .inr (.inr (.inr ⟨rfl, _, _, _, .forceReset c hc, by rw [ctl_self hc]; exact h⟩))⟩
  case currentTimeout =>
    obtain ⟨he, c, -, h⟩ := (controllerTurn_eq_next _ _ _).1 h
    injection h with h
    exact ⟨he, .inl ⟨h', _, h.symm⟩⟩
  case maxTimeout =>
    obtain ⟨he, c, -, h⟩ := (controllerTurn_eq_next _ _ _).1 h
    injection h with h
    exact ⟨he, .inl ⟨h', _, h.symm⟩⟩
  case validatePulseDuration d =>
    obtain ⟨he, c, -, h⟩ := (controllerTurn_eq_next _ _ _).1 h
    split at h <;> (injection h with h; exact ⟨he, .inl ⟨h', _, h.symm⟩⟩)
  case configureResetSignal cfg =>
    obtain ⟨he, c, hc, h⟩ := (controllerTurn_eq_next _ _ _).1 h
    split at h
    · cases h
    · next hd =>
      exact ⟨he, .inr (.inr (.inr ⟨rfl, _, _, _, .configureResetSignal c cfg hc ((durationError_eq_none_iff _).1 hd),
        by rw [ctl_self hc]; exact h⟩))⟩
  case setDriveMode b =>
    obtain ⟨he, c, hc, h⟩ := (controllerTurn_eq_next _ _ _).1 h
    exact ⟨he, .inr (.inr (.inr ⟨rfl, _, _, _, .setDriveMode c b hc, by rw [ctl_self hc]; exact h⟩))⟩
  case setPolarity b =>
    obtain ⟨he, c, hc, h⟩ := (controllerTurn_eq_next _ _ _).1 h
    exact ⟨he, .inr (.inr (.inr ⟨rfl, _, _, _, .setPolarity c b hc, by rw [ctl_self hc]; exact h⟩))⟩

theorem Enters.prog_ne_nil {s : State} {i : Instr} {op : OpName} {prog : List Action} {c : Controller}
    (h : Enters s i op prog c) : prog ≠ [] := by
  cases h <;> simp [armProgram, configureProgram]

theorem Enters.weight_le {s : State} {i : Instr} {op : OpName} {prog : List Action} {c : Controller}
    (h : Enters s i op prog c) : weight prog ≤ maxTransactions := by
  cases h <;> simp [armProgram, configureProgram, weight, maxTransactions]

/-- All that an instruction can do, but for the counter agent's two: what its first step does if it is one step, else an
operation to its end, or to the expiry that ends it. -/
theorem exec_eq_next (i : Instr) (s t : State) (ha : i.level ≠ .agent) (h : exec i s = .next t) :
    CallMayEnter s ∧
    ((begin i s = .next t ∧
        ((∃ r, t = { s with result := some r }) ∨
          (∃ r, t = { noteRead r s with result := some (.word (response r s)) }) ∨
          ∃ r v row, rowWrite r v row { s with result := none } = .next t ∧
            (∀ d e, row d = .ok e → WriteFrame r v d e) ∧ (r = .ctrl → i = .wrCtrl v))) ∨
      ∃ op prog c m, Enters s i op prog c ∧ call op prog { s with ctl := some c } = .next m ∧
        runCall maxTransactions m = .next t ∧ (t.dev.expired ≠ none ∨ t.seq.todo = [])) := by
  obtain ⟨m, hm⟩ : ∃ m, begin i s = .next m := by
    obtain e | e := exec_eq_begin i s
    · exact ⟨t, e.symm.trans h⟩
    · obtain ⟨m, hm, -⟩ := (complete_eq_next _ _).1 (e ▸ h)
      exact ⟨m, hm⟩
  obtain ⟨hc, ⟨hx, hr⟩ | ⟨hx, hr⟩ | ⟨hx, hr⟩ | ⟨hx, op, prog, c, he, hcall⟩⟩ := begin_eq_next i s m ha hm
  · rw [hx] at h; injection h with h; subst h; exact ⟨hc, .inl ⟨hm, .inl hr⟩⟩
  · rw [hx] at h; injection h with h; subst h; exact ⟨hc, .inl ⟨hm, .inr (.inl hr)⟩⟩
  · rw [hx] at h; injection h with h; subst h; exact ⟨hc, .inl ⟨hm, .inr (.inr hr)⟩⟩
  · rw [hx, hm] at h
    refine ⟨hc, .inr ⟨op, prog, c, m, he, hcall, h, runCall_done _ m t ?_ h⟩⟩
    obtain ⟨a, l, rfl⟩ := List.exists_cons_of_ne_nil he.prog_ne_nil
    have h1 := controllerStep_weight { s with ctl := some c, seq := .running op 0 (a :: l), result := none } m rfl hcall
    have h2 := he.weight_le
    simp only [todo_running] at h1
    omega

/-! ## Runs of steps -/

theorem stepMany_succ (k : Nat) (s t : State) (h : step s = .next t) : stepMany (k + 1) s = stepMany k t := by
  simp only [stepMany, h]

theorem stepMany_add (m n : Nat) : ∀ s t : State, stepMany m s = .next t → stepMany (m + n) s = stepMany n t := by
  induction m with
  | zero => intro s t h; simp only [stepMany, Host.Outcome.next.injEq] at h; rw [h, Nat.zero_add]
  | succ m ih =>
    intro s t h
    rw [show m + 1 + n = (m + n) + 1 by omega]
    cases hs : step s with
    | next u =>
      rw [stepMany_succ _ _ _ hs] at h ⊢
      exact ih _ _ h
    | fault f => simp only [stepMany, hs] at h; cases h
    | refused r => simp only [stepMany, hs] at h; cases h

end Sys2Proof.Machine
end

