-- ==== Sys2Proof/Tests/Slice0.lean ====
section
/-! SUPPORT. Tests: ill-formed terms, decoding of words written out from spec/30_encoding and spec/95_test_vectors, the
vectors of 95_test_vectors (expected values copied from there), and for every obligation with hypotheses a concrete state
and operands that meet them. -/

namespace Sys2Proof.Tests

open Sys2Proof Sys2Proof.Machine

/-! ## Small states -/

/-- The state an answer gives, if it gives one. -/
def after : Answer → Option State
  | .next s => some s
  | .fault _ => none
  | .refused _ => none

/-- The refusal an answer is, if it is one. -/
def refusalOf : Answer → Option Refusal
  | .refused r => some r
  | .next _ => none
  | .fault _ => none

/-- The fault an answer is, if it is one. -/
def faultOf : Answer → Option Fault
  | .fault f => some f
  | .next _ => none
  | .refused _ => none

/-- The state after reset, with every free bit set instead of open, so that a test can be evaluated: a test expects only
what the spec fixes, whatever these bits are. -/
def plain : State :=
  { State.reset with free := {
      reloadRead := 0xFFFFFFFF#32, restartRead := 0xFFFFFFFF#32, ctrlRead := 0x7FFFFFFF#31, rwRead := 0x3FFFF#18
      fall := 0#32, next := 0 } }

/-- A device with these registers, no controller. -/
def dev (counter reload ctrl : Word) : State :=
  { plain with dev := { plain.dev with counter := counter, reload := reload, ctrl := ctrl } }

/-- With these RESET_WIDTH fields. -/
def width (dur : BitVec 12) (drive pol : Bool) (s : State) : State :=
  { s with dev := { s.dev with rwDur := dur, rwDrive := drive, rwPol := pol } }

/-- With a controller of this mirror. -/
def ctl (mirror : Word) (s : State) : State :=
  { s with ctl := some { ctrl := mirror, timeout := 30, maxHwHeartbeatMs := 4294967 } }

/-- With the recording fake in place of the device. -/
def fake (s : State) : State := { s with iface := .fake }

/-- With this schedule. -/
def sched (ms : List Mover) (s : State) : State := { s with moves := ms }

/-- With the caller waiting inside force_reset. -/
def waiting (us : Nat) (s : State) : State := { s with seq := .running .forceReset 4 [], blockUs := us }

/-- With the host about to call. -/
def calling (pk : Packet) (s : State) : State := { s with inbox := [pk] }

/-- In the middle of start(30), after its first write: EN is set in the mirror and CTRL is 0. -/
def midStart : State :=
  { ctl 0x33#32 (dev 500#32 9#32 0#32) with
    seq := .running .start 1 [.load 30000000#32, .restart, .writeMirror], trace := [.write .ctrl 0#32] }

/-- What the call of an answer has given back. -/
def resultOf (a : Answer) : Option CallResult := (after a).bind (·.result)

/-- The word of an answer's last result. -/
def wordOf (a : Answer) : Option Word :=
  match resultOf a with
  | some (.word v) => some v
  | some .ok => none
  | some (.number _) => none
  | some (.configurationError _) => none
  | none => none

/-- Disarmed by stop, full-chip scope, no external signal: mirror 0x32. -/
def disarmed : State := ctl 0x32#32 (dev 500#32 30000000#32 0x32#32)

/-- Armed, as disarmed: mirror 0x33. -/
def armed (counter : Word) : State := ctl 0x33#32 (dev counter 30000000#32 0x33#32)

/-- A configuration with these two flags and this duration. -/
def config (pushPull activeHigh : Bool) (d : Option Nat) : ResolvedConfiguration :=
  { externalSignal := false, pushPull := pushPull, activeHigh := activeHigh, pulseDurationTicks := d }

/-! ## Well-formedness (30_encoding R75, 42_reset_signal R131) -/

theorem test_wf_restart_other_refuses_magic :
    (Instr.wrRestartOther 0x4755#32).wellFormed Config.Params.known = false ∧
    (Instr.wrRestartOther 0xFFFF4755#32).wellFormed Config.Params.known = true := by decide

theorem test_wf_reset_width_other_refuses_each_selector :
    (Instr.wrResetWidthOther 0xA80003E8#32).wellFormed Config.Params.known = false ∧
    (Instr.wrResetWidthOther 0x8A0003E8#32).wellFormed Config.Params.known = false ∧
    (Instr.wrResetWidthOther 0xA50003E8#32).wellFormed Config.Params.known = false ∧
    (Instr.wrResetWidthOther 0x5A0003E8#32).wellFormed Config.Params.known = false ∧
    (Instr.wrResetWidthOther 0xAD0003E8#32).wellFormed Config.Params.known = true := by decide

theorem test_wf_configure_refuses_long_pulse :
    (Instr.configureResetSignal (config true true (some 4096))).wellFormed Config.Params.known = false ∧
    (Instr.configureResetSignal (config true true (some 4095))).wellFormed Config.Params.known = true := by decide

/-! ## Decoding: words of 30_encoding R60, R75 and 95_test_vectors PR1 to PR6 -/

theorem test_decode_reads :
    decode Config.Params.known (.bus 0x00000000000#48) = .ok .rdStatus ∧
    decode Config.Params.known (.bus 0x00400000000#48) = .ok .rdReloadValue ∧
    decode Config.Params.known (.bus 0x00800000000#48) = .ok .rdRestart ∧
    decode Config.Params.known (.bus 0x00C00000000#48) = .ok .rdCtrl ∧
    decode Config.Params.known (.bus 0x01800000000#48) = .ok .rdResetWidth := by decide

theorem test_decode_plain_writes :
    decode Config.Params.known (.bus 0x10012345678#48) = .ok (.wrStatus 0x12345678#32) ∧
    decode Config.Params.known (.bus 0x10401C9C380#48) = .ok (.wrReloadValue 30000000#32) ∧
    decode Config.Params.known (.bus 0x104FFFFFED8#48) = .ok (.wrReloadValue 4294967000#32) ∧
    decode Config.Params.known (.bus 0x10C00000033#48) = .ok (.wrCtrl 0x33#32) := by decide

theorem test_decode_restart :
    decode Config.Params.known (.bus 0x10800004755#48) = .ok .wrRestartMagic ∧
    decode Config.Params.known (.bus 0x10800000000#48) = .ok (.wrRestartOther 0#32) ∧
    decode Config.Params.known (.bus 0x108FFFF4755#48) = .ok (.wrRestartOther 0xFFFF4755#32) := by decide

theorem test_decode_reset_width :
    decode Config.Params.known (.bus 0x118A80003E8#48) = .ok (.wrResetWidthPushPull 0#12 1000#12) ∧
    decode Config.Params.known (.bus 0x1188A000000#48) = .ok (.wrResetWidthOpenDrain 0#12 0#12) ∧
    decode Config.Params.known (.bus 0x118A50003E8#48) = .ok (.wrResetWidthActiveHigh 0#12 1000#12) ∧
    decode Config.Params.known (.bus 0x1185A0000FF#48) = .ok (.wrResetWidthActiveLow 0#12 255#12) ∧
    decode Config.Params.known (.bus 0x118A8001000#48) = .ok (.wrResetWidthPushPull 1#12 0#12) ∧
    decode Config.Params.known (.bus 0x118AD0003E8#48) = .ok (.wrResetWidthOther 0xAD0003E8#32) := by decide

theorem test_decode_operations :
    decode Config.Params.known (.cmd 0#8 (.config (config true false none))) = .ok (.attach (config true false none)) ∧
    decode Config.Params.known (.cmd 1#8 (.seconds 30)) = .ok (.start 30) ∧
    decode Config.Params.known (.cmd 2#8 .nothing) = .ok .stop ∧
    decode Config.Params.known (.cmd 3#8 .nothing) = .ok .ping ∧
    decode Config.Params.known (.cmd 4#8 (.seconds 5000)) = .ok (.setTimeout 5000) ∧
    decode Config.Params.known (.cmd 5#8 .nothing) = .ok .forceReset ∧
    decode Config.Params.known (.cmd 6#8 .nothing) = .ok .currentTimeout ∧
    decode Config.Params.known (.cmd 7#8 .nothing) = .ok .maxTimeout ∧
    decode Config.Params.known (.cmd 8#8 (.ticks (some 4096))) = .ok (.validatePulseDuration (some 4096)) ∧
    decode Config.Params.known (.cmd 9#8 (.config (config false true none))) =
      .ok (.configureResetSignal (config false true none)) ∧
    decode Config.Params.known (.cmd 10#8 (.flag true)) = .ok (.setDriveMode true) ∧
    decode Config.Params.known (.cmd 11#8 (.flag false)) = .ok (.setPolarity false) := by decide

theorem test_decode_rejects_by_name :
    decode Config.Params.known (.bus 0x11000000000#48) = .error (.hole 0x10#8) ∧
    decode Config.Params.known (.bus 0x20000000000#48) = .error .strayBits ∧
    decode Config.Params.known (.cmd 12#8 .nothing) = .error (.noSuchOperation 12#8) ∧
    decode Config.Params.known (.cmd 1#8 .nothing) = .error (.wrongArgument 1#8) := by decide

theorem test_encode_writes_out_the_spec_words :
    encode Config.Params.known (.wrResetWidthActiveLow 0#12 255#12) = some (.bus 0x1185A0000FF#48) ∧
    encode Config.Params.known .wrRestartMagic = some (.bus 0x10800004755#48) ∧
    encode Config.Params.known .rdResetWidth = some (.bus 0x01800000000#48) ∧
    encode Config.Params.known .time = none := by decide

theorem test_table_words :
    decodeTableWord 48 0x1188A000000 = some (.wrResetWidthOpenDrain 0#12 0#12) ∧
    decodeTableWord 8 0x5 = some .forceReset ∧ decodeTableWord 8 0x1 = some (.start 0) := by decide

/-! ## Encoders (95_test_vectors V1 to V8) -/

theorem test_reload_of :
    reloadOf 0 = 0#32 ∧ reloadOf 30 = 0x01C9C380#32 ∧ reloadOf 4294 = 0xFFF13D80#32 ∧
    reloadOf 4295 = 0xFFFFFED8#32 ∧ reloadOf 1000000000 = 0xFFFFFED8#32 ∧ forceResetWord = 0x0001F400#32 := by decide

theorem test_enc_ctrl_flags :
    encCtrlFlags { resetScope := .soc, externalSignal := false } = 0x12#32 ∧
    encCtrlFlags { resetScope := .soc, externalSignal := true } = 0x1A#32 ∧
    encCtrlFlags { externalSignal := false } = 0x32#32 ∧ encCtrlFlags { externalSignal := true } = 0x3A#32 ∧
    encCtrlFlags { resetScope := .cpu, externalSignal := false } = 0x52#32 ∧
    encCtrlFlags { resetScope := .cpu, externalSignal := true } = 0x5A#32 := by decide

theorem test_reset_width_words :
    encRw 1000#32 0xA8#8 = 0xA80003E8#32 ∧ encRw 4095#32 0x5A#8 = 0x5A000FFF#32 ∧
    decRw 0xC00003E8#32 = (1000#12, true, true) ∧ decRw 0x40000FFF#32 = (4095#12, true, false) ∧
    decRw 0x8003F001#32 = (1#12, false, true) ∧ 0xFFFFFFFF#32 &&& durMask = 0x00000FFF#32 := by decide

/-! ## Transactions on the device (95_test_vectors T1 to T10) -/

theorem test_restart_reloads :
    (after (exec .wrRestartMagic (dev 12#32 30000000#32 0x33#32))).map (·.dev.counter) = some 30000000#32 ∧
    (after (exec .wrRestartMagic (dev 12#32 30000000#32 0#32))).map (·.dev.ctrl) = some 0#32 := by decide

theorem test_restart_other_refused :
    refusalOf (exec (.wrRestartOther 0xFFFF4755#32) (dev 12#32 7#32 0x33#32)) = some .restartNotMagic := by decide

theorem test_reload_value_keeps_counter :
    (after (exec (.wrReloadValue 0x03938700#32) (dev 500#32 30000000#32 0x33#32))).map
      (fun s => (s.dev.counter, s.dev.reload)) = some (500#32, 60000000#32) := by decide

theorem test_ctrl_write_halts :
    (after (exec (.wrCtrl 0x32#32) (dev 500#32 9#32 0x33#32))).map (fun s => (s.dev.ctrl, s.dev.counter)) =
      some (0x32#32, 500#32) ∧
    (after (exec (.wrCtrl 0x30#32) (dev 500#32 9#32 0x33#32))).map (·.dev.ctrl) = some 0x30#32 := by decide

theorem test_ctrl_write_refuses :
    refusalOf (exec (.wrCtrl 0x73#32) plain) = some .ctrlReserved ∧
    refusalOf (exec (.wrCtrl 0x83#32) plain) = some .ctrlReserved ∧
    refusalOf (exec (.wrCtrl 0x23#32) plain) = some .ctrlClockSource ∧
    refusalOf (exec (.wrCtrl 0x31#32) plain) = some .ctrlNoAction := by decide

theorem test_push_pull_and_open_drain :
    (after (exec (.wrResetWidthPushPull 0#12 1000#12) (width 7#12 false false plain))).map
      (fun s => (s.dev.rwDur, s.dev.rwDrive, s.dev.rwPol)) = some (1000#12, true, false) ∧
    (after (exec (.wrResetWidthOpenDrain 0#12 1000#12) (width 1000#12 true true plain))).map
      (fun s => (s.dev.rwDur, s.dev.rwDrive, s.dev.rwPol)) = some (1000#12, false, true) := by decide

theorem test_active_high_and_active_low :
    (after (exec (.wrResetWidthActiveHigh 0#12 1000#12) (width 1000#12 true false plain))).map
      (fun s => (s.dev.rwDur, s.dev.rwDrive, s.dev.rwPol)) = some (1000#12, true, true) ∧
    (after (exec (.wrResetWidthActiveLow 0#12 0#12) (width 1000#12 true true plain))).map
      (fun s => (s.dev.rwDur, s.dev.rwDrive, s.dev.rwPol)) = some (0#12, true, false) := by decide

theorem test_reset_width_refuses :
    refusalOf (exec (.wrResetWidthOther 0x000003E8#32) plain) = some .resetWidthSelector ∧
    refusalOf (exec (.wrResetWidthPushPull 1#12 0#12) plain) = some .resetWidthZeroField := by decide

theorem test_reset_width_read :
    (wordOf (exec .rdResetWidth (width 1000#12 true false plain))).map decRw = some (1000#12, true, false) ∧
    (wordOf (exec .rdResetWidth (width 255#12 false true plain))).map decRw = some (255#12, false, true) := by decide

theorem test_ctrl_read :
    (wordOf (exec .rdCtrl (dev 5#32 9#32 0x33#32))).map (·.getLsbD 0) = some true ∧
    (wordOf (exec .rdCtrl (dev 5#32 9#32 0x32#32))).map (·.getLsbD 0) = some false := by decide

theorem test_status_read_and_write :
    wordOf (exec .rdStatus (dev 29999995#32 9#32 0x33#32)) = some 0x01C9C37B#32 ∧
    refusalOf (exec (.wrStatus 5#32) plain) = some .statusReadOnly := by decide

theorem test_open_reads_change_no_register :
    (after (exec .rdRestart (dev 5#32 9#32 0x33#32))).map (·.dev) = some (dev 5#32 9#32 0x33#32).dev ∧
    (after (exec .rdReloadValue (dev 5#32 9#32 0x33#32))).map (·.dev) = some (dev 5#32 9#32 0x33#32).dev := by decide

/-! ## Controller operations (95_test_vectors O1 to O9, PR1, PR2, X1) -/

theorem test_attach_on_stopped_timer :
    (after (exec (.attach (config false false none)) (dev 5#32 9#32 0#32))).map (fun s => (writesOf s.trace, s.ctl)) =
      some ([(.resetWidth, 0x8A000000#32), (.resetWidth, 0x5A000000#32)],
        some { ctrl := 0x32#32, timeout := 30, maxHwHeartbeatMs := 4294967 }) := by decide

theorem test_attach_on_running_timer :
    (after (exec (.attach { externalSignal := true, pushPull := true })
        (width 255#12 false false (dev 5000000#32 20000000#32 0x3#32)))).map (fun s => (writesOf s.trace, s.dev.ctrl)) =
      some ([(.ctrl, 0#32), (.reloadValue, 0x01C9C380#32), (.restart, 0x4755#32), (.ctrl, 0x3B#32),
        (.resetWidth, 0xA80000FF#32), (.resetWidth, 0x5A0000FF#32)], 0x3B#32) := by decide

theorem test_start_writes_in_order :
    (after (exec (.start 30) disarmed)).map (·.trace) = some [.write .ctrl 0#32, .write .reloadValue 0x01C9C380#32,
      .write .restart 0x4755#32, .write .ctrl 0x33#32] ∧
    (after (exec (.start 1) (ctl 0x5A#32 plain))).map (·.dev.ctrl) = some 0x5B#32 := by decide

theorem test_start_above_ceiling :
    (after (exec (.start 4295) disarmed)).map (fun s => (s.dev.counter, s.ctl.map (·.timeout))) =
      some (0xFFFFFED8#32, some 4295) := by decide

theorem test_stop_writes_once_in_either_state :
    (after (exec .stop (armed 7#32))).map (·.trace) = some [.write .ctrl 0x32#32] ∧
    (after (exec .stop disarmed)).map (·.trace) = some [.write .ctrl 0x32#32] := by decide

theorem test_ping_reloads :
    (after (exec .ping (armed 7#32))).map (fun s => (s.trace, s.dev.counter)) =
      some ([.write .restart 0x4755#32], 30000000#32) := by decide

theorem test_set_timeout_above_ceiling :
    (after (exec (.setTimeout 5000) (armed 7#32))).map (fun s => (s.trace, s.ctl.map (·.timeout))) =
      some ([.write .reloadValue 0xFFFFFED8#32, .write .restart 0x4755#32], some 5000) := by decide

theorem test_force_reset_arms_and_blocks :
    (after (exec .forceReset (ctl 0x32#32 plain))).map (fun s => (s.dev.counter, s.dev.ctrl, s.blockUs)) =
      some (128000#32, 0x33#32, 1000000) := by decide

theorem test_queries :
    (after (exec .currentTimeout disarmed)).map (·.result) = some (some (.number 30)) ∧
    (after (exec .maxTimeout disarmed)).map (·.result) = some (some (.number 4294967)) := by decide

theorem test_attach_rejects_long_pulse :
    (after (exec (.attach (config true true (some 5000))) plain)).map (fun s => (s.result, s.trace, s.ctl)) =
      some (some (.configurationError 5000), [], none) := by decide

/-! ## Configurator operations, after attach (95_test_vectors S1 to S4, PR6) -/

theorem test_validate :
    resultOf (exec (.validatePulseDuration (some 4095)) disarmed) = some .ok ∧
    resultOf (exec (.validatePulseDuration (some 4096)) disarmed) = some (.configurationError 4096) := by decide

theorem test_configure_supplied_duration :
    (after (exec (.configureResetSignal (config true false (some 1000))) (width 7#12 false true disarmed))).map
      (fun s => (writesOf s.trace, s.dev.rwDur, s.dev.rwDrive, s.dev.rwPol)) =
      some ([(.resetWidth, 0xA80003E8#32), (.resetWidth, 0x5A0003E8#32)], 1000#12, true, false) := by decide

theorem test_configure_keeps_read_duration :
    (after (exec (.configureResetSignal (config false false none)) (width 255#12 true true disarmed))).map
      (fun s => (writesOf s.trace, s.dev.rwDur)) =
      some ([(.resetWidth, 0x8A0000FF#32), (.resetWidth, 0x5A0000FF#32)], 255#12) := by decide

theorem test_set_drive_mode :
    (after (exec (.setDriveMode false) (width 1000#12 true true disarmed))).map
      (fun s => (writesOf s.trace, s.dev.rwDrive, s.dev.rwPol)) =
      some ([(.resetWidth, 0x8A0003E8#32)], false, true) := by decide

theorem test_set_polarity :
    (after (exec (.setPolarity true) (width 1000#12 true false disarmed))).map
      (fun s => (writesOf s.trace, s.dev.rwDrive, s.dev.rwPol)) =
      some ([(.resetWidth, 0xA50003E8#32)], true, true) := by decide

/-- Before attach none of them can be called (70_reset_and_hazards R186). -/
theorem test_configurator_before_attach :
    [exec (.validatePulseDuration none) plain, exec (.configureResetSignal (config true true none)) plain,
      exec (.setDriveMode true) plain, exec (.setPolarity true) plain].map faultOf =
      [some .notAttached, some .notAttached, some .notAttached, some .notAttached] := by decide

/-! ## The counter agent (95_test_vectors K1 to K3) -/

theorem test_time :
    (after (exec .time (dev 3#32 9#32 0x33#32))).map (·.dev.counter) = some 2#32 ∧
    (after (exec .time (dev 3#32 9#32 0x32#32))).map (·.dev.counter) = some 3#32 ∧
    faultOf (exec .time (dev 0#32 9#32 0x33#32)) = some .timeDisabled := by decide

theorem test_time_lowers_the_wait :
    (after (exec .time (waiting 10 (dev 3#32 9#32 0x33#32)))).map (·.blockUs) = some 9 := by decide

theorem test_expire_full_chip_and_unspecified :
    (after (exec .expire (width 1000#12 true true (dev 0#32 9#32 0x33#32)))).map (·.dev.expired) =
      some (some (.actions (some .fullChip) false none)) ∧
    (after (exec .expire (dev 0#32 9#32 0x11#32))).map (·.dev.expired) = some (some (.unspecified none)) := by decide

theorem test_expire_pulse_and_interrupt :
    (after (exec .expire (width 1000#12 true true (dev 0#32 9#32 0x5B#32)))).map (·.dev.expired) =
      some (some (.actions (some .cpuOnly) false (some ⟨1000#12, true, true⟩))) ∧
    (after (exec .expire (width 1000#12 true true (dev 0#32 9#32 0x1F#32)))).map (·.dev.expired) =
      some (some (.actions (some .soc) true (some ⟨1000#12, true, true⟩))) := by decide

/-! ## A step -/

/-- A packed word presented after reset runs (95_test_vectors PR1, word 6). -/
theorem test_step_runs_the_presented_word :
    (after (step (State.reset.withFetchWord 48 0x10401C9C380))).map (fun s => (s.dev.reload, s.inbox)) =
      some (30000000#32, []) := by decide

/-- One step makes one transaction: the first of start leaves CTRL = 0 and the call not returned (41_controller R111). -/
theorem test_step_makes_the_first_write :
    (after (step (calling (.cmd 1#8 (.seconds 30)) disarmed))).map (fun s => (s.trace, s.dev.ctrl, s.result)) =
      some ([.write .ctrl 0#32], 0#32, none) ∧
    (after (step midStart)).map (fun s => (s.trace, s.dev.reload, s.dev.counter)) =
      some ([.write .ctrl 0#32, .write .reloadValue 30000000#32], 30000000#32, 500#32) := by decide

/-- force_reset has not returned when the last microsecond has passed: its return is the next step (41_controller R116). -/
theorem test_step_returns_from_the_wait :
    (after (step (waiting 1 disarmed))).map (fun s => (s.blockUs, s.seq, s.result)) =
      some (0, .running .forceReset 4 [], none) ∧
    (after (step (waiting 0 disarmed))).map (fun s => (s.seq, s.result)) = some (.idle, some .ok) := by decide

/-- 95_test_vectors PR7: at counter zero a ping and an expiry are both possible, and the schedule says which comes. -/
theorem test_late_ping_races_the_expiry :
    (after (step (sched [.counter] (calling (.cmd 3#8 .nothing) (armed 0#32))))).map
      (fun s => s.dev.expired.isSome) = some true ∧
    (after (step (calling (.cmd 3#8 .nothing) (armed 0#32)))).map (·.dev.counter) = some 30000000#32 := by decide

/-! ## Every obligation's hypotheses are met

`test_hyps_<Name>` gives a state and operands for `Obligations.<Name>`; where the statement has several clauses, one for
each, at the boundary of its range. -/

theorem test_hyps_StatusReadReturnsCounter :
    CallMayEnter (armed 7#32) ∧ (armed 7#32).iface = .device := by decide

theorem test_hyps_OpenReadsReturnAnyWord :
    CallMayEnter disarmed ∧ disarmed.iface = .device := by decide

theorem test_hyps_CtrlReadPromisesBitZero :
    CallMayEnter (armed 7#32) ∧ (armed 7#32).iface = .device ∧
    (0xFFFFFFFF#32).getLsbD 0 = (armed 7#32).dev.ctrl.getLsbD 0 := by decide

theorem test_hyps_ResetWidthReadShowsFields :
    CallMayEnter (width 1000#12 true true disarmed) ∧ (width 1000#12 true true disarmed).iface = .device ∧
    (0xFFFFF3E8#32).extractLsb' 0 12 = (width 1000#12 true true disarmed).dev.rwDur ∧
    (0xFFFFF3E8#32).getLsbD 30 = (width 1000#12 true true disarmed).dev.rwDrive ∧
    (0xFFFFF3E8#32).getLsbD 31 = (width 1000#12 true true disarmed).dev.rwPol := by decide

theorem test_hyps_ReloadWriteLeavesCounter : CallMayEnter (armed 0#32) ∧ (armed 0#32).iface = .device := by decide

theorem test_hyps_RestartMagicReloadsCounter : CallMayEnter disarmed ∧ disarmed.iface = .device := by decide

theorem test_hyps_CtrlWriteTakesEffect :
    CallMayEnter disarmed ∧ disarmed.iface = .device ∧ CtrlDefined 0x33#32 ∧ CtrlDefined 0x30#32 ∧
    CtrlDefined 0x5F#32 ∧ ¬ CtrlDefined 0x33000033#32 ∧ ¬ CtrlDefined 0x60#32 := by decide

theorem test_hyps_TaggedWriteStoresDurationAndOneFlag :
    CallMayEnter (armed 0#32) ∧ (armed 0#32).iface = .device := by decide

theorem test_hyps_UndefinedWritesRefused :
    CallMayEnter disarmed ∧ disarmed.iface = .device ∧ (0x800#12) ≠ 0#12 ∧
    (0x80000000#32).extractLsb' 7 25 ≠ 0#25 ∧ (0x60#32).extractLsb' 5 2 = 3#2 ∧
    ((0x03#32).extractLsb' 7 25 = 0#25 ∧ (0x03#32).extractLsb' 5 2 ≠ 3#2 ∧
      (0x03#32).getLsbD 0 = true ∧ (0x03#32).getLsbD 4 = false) ∧
    ((0x51#32).extractLsb' 7 25 = 0#25 ∧ (0x51#32).extractLsb' 5 2 ≠ 3#2 ∧ (0x51#32).getLsbD 0 = true ∧
      (0x51#32).getLsbD 4 = true ∧ (0x51#32).getLsbD 1 = false ∧ (0x51#32).getLsbD 2 = false) := by decide

theorem test_hyps_FakeStoresAndReturnsWords :
    CallMayEnter (fake plain) ∧ (fake plain).iface = .fake := by decide

theorem test_hyps_OnlyLongPulsesRaiseConfigurationError :
    (Instr.validatePulseDuration (some 4096)).level ≠ .agent ∧
    resultOf (exec (.validatePulseDuration (some 4096)) disarmed) = some (.configurationError 4096) ∧
    CallMayEnter disarmed ∧ disarmed.ctl ≠ none ∧ 4095 < 4096 ∧ CallMayEnter plain ∧ plain.ctl = none ∧
    (config true true (some 4096)).pulseDurationTicks = some 4096 := by decide

theorem test_hyps_AttachLeavesStoppedTimerDisarmed :
    AtRest (dev 0#32 0#32 0x32#32) ∧ (dev 0#32 0#32 0x32#32).par.Distinct ∧ Halted (dev 0#32 0#32 0x32#32) ∧
    (dev 0#32 0#32 0x32#32).ctl = none ∧ DurationOk (config true true (some 4095)).pulseDurationTicks := by decide

theorem test_hyps_AttachRearmsRunningTimer :
    AtRest (dev 5#32 9#32 0x3#32) ∧ (dev 5#32 9#32 0x3#32).par.Distinct ∧ (dev 5#32 9#32 0x3#32).iface = .device ∧
    (dev 5#32 9#32 0x3#32).moves = [] ∧ (dev 5#32 9#32 0x3#32).dev.ctrl.getLsbD 0 = true ∧
    (dev 5#32 9#32 0x3#32).ctl = none ∧ DurationOk (config true false none).pulseDurationTicks := by decide

theorem test_hyps_AttachNeverLeavesRunningTimerDisabled :
    AtRest (sched [.counter] (dev 5#32 9#32 0x33#32)) ∧ (sched [.counter] (dev 5#32 9#32 0x33#32)).par.Distinct ∧
    (sched [.counter] (dev 5#32 9#32 0x33#32)).iface = .device ∧
    (sched [.counter] (dev 5#32 9#32 0x33#32)).dev.ctrl.getLsbD 0 = true ∧
    (sched [.counter] (dev 5#32 9#32 0x33#32)).ctl = none ∧
    DurationOk (config true false (some 0)).pulseDurationTicks ∧
    (after (exec (.attach (config true false (some 0))) (sched [.counter] (dev 5#32 9#32 0x33#32)))).map
      (·.dev.expired) = some none := by decide

theorem test_hyps_StartArmsTimer :
    AtRest (sched [.counter, .counter] (armed 0#32)) ∧ (sched [.counter, .counter] (armed 0#32)).iface = .device ∧
    ∃ c, (sched [.counter, .counter] (armed 0#32)).ctl = some c ∧ c.Sound := ⟨by decide, rfl, _, rfl, by decide⟩

theorem test_hyps_StopHaltsTimer :
    CallMayEnter (armed 7#32) ∧ (armed 7#32).iface = .device ∧ ∃ c, (armed 7#32).ctl = some c ∧ c.Sound :=
  ⟨by decide, rfl, _, rfl, by decide⟩

theorem test_hyps_PingReloadsCounter :
    CallMayEnter disarmed ∧ disarmed.iface = .device ∧ ∃ c, disarmed.ctl = some c := ⟨by decide, rfl, _, rfl⟩

theorem test_hyps_SetTimeoutTakesEffectAtOnce :
    (AtRest (sched [.counter] disarmed) ∧ Halted (sched [.counter] disarmed) ∧
      ∃ c, (sched [.counter] disarmed).ctl = some c) ∧
    (AtRest (sched [.counter, .issuer] (armed 1#32)) ∧ Running (sched [.counter, .issuer] (armed 1#32)) ∧
      leadingTurns (sched [.counter, .issuer] (armed 1#32)).moves ≤
        (sched [.counter, .issuer] (armed 1#32)).dev.counter.toNat ∧
      ∃ c, (sched [.counter, .issuer] (armed 1#32)).ctl = some c) :=
  ⟨⟨by decide, by decide, _, rfl⟩, by decide, by decide, by decide, _, rfl⟩

theorem test_hyps_SetTimeoutCanLoseTheRace :
    AtRest (sched [.counter, .counter] (armed 1#32)) ∧ Running (sched [.counter, .counter] (armed 1#32)) ∧
    (sched [.counter, .counter] (armed 1#32)).dev.counter.toNat <
      leadingTurns (sched [.counter, .counter] (armed 1#32)).moves ∧
    ∃ c, (sched [.counter, .counter] (armed 1#32)).ctl = some c := ⟨by decide, by decide, by decide, _, rfl⟩

theorem test_hyps_ForceResetArmsAndBlocks :
    AtRest (armed 17000000#32) ∧ (armed 17000000#32).iface = .device ∧ (armed 17000000#32).moves = [] ∧
    ∃ c, (armed 17000000#32).ctl = some c ∧ c.Sound := ⟨by decide, rfl, rfl, _, rfl, by decide⟩

theorem test_hyps_QueriesReportControllerFields :
    CallMayEnter disarmed ∧ ∃ c, disarmed.ctl = some c ∧ c.Sound := ⟨by decide, _, rfl, by decide⟩

theorem test_hyps_FakeRecordsOperationWrites :
    AtRest (fake disarmed) ∧ (fake disarmed).iface = .fake ∧ ∃ c, (fake disarmed).ctl = some c :=
  ⟨by decide, rfl, _, rfl⟩

theorem test_hyps_FakeRecordsConfiguratorAndAttach :
    AtRest (fake plain) ∧ (fake plain).iface = .fake ∧
    DurationOk (config true true (some 4095)).pulseDurationTicks ∧
    (0#12) = (fake plain).store.resetWidth.extractLsb' 0 12 ∧
    (4095#12) = ((config true true (some 4095)).pulseDurationTicks.map (BitVec.ofNat 12)).getD 0#12 ∧
    (fake plain).ctl = none ∧ (fake plain).store.ctrl.getLsbD 0 = false ∧
    ({ fake plain with store := { plain.store with ctrl := 1#32 } } : State).store.ctrl.getLsbD 0 = true ∧
    AtRest (fake disarmed) ∧ (fake disarmed).iface = .fake ∧ (fake disarmed).ctl ≠ none := by
  decide

theorem test_hyps_CallsOutsideTheSpecStop :
    (CallMayEnter plain ∧ plain.ctl = none ∧ (Instr.setPolarity true).level = .cmd) ∧
    (CallMayEnter disarmed ∧ disarmed.ctl ≠ none) ∧
    (config true true (some 4096)).pulseDurationTicks = some 4096 ∧ 4095 < 4096 := by decide

theorem test_hyps_OperationsAlwaysReturn :
    (AtRest (sched [.counter] (armed 7#32)) ∧ (sched [.counter] (armed 7#32)).par.Distinct ∧
      (Instr.configureResetSignal (config true true (some 4095))).level = .cmd ∧
      (Instr.configureResetSignal (config true true (some 4095))).wellFormed (armed 7#32).par = true ∧
      (after (exec (.configureResetSignal (config true true (some 4095))) (sched [.counter] (armed 7#32)))).map
        (·.dev.expired) = some none) ∧
    ∃ c, (sched [.counter] (armed 7#32)).ctl = some c ∧ c.Sound := ⟨by decide, _, rfl, by decide⟩

theorem test_hyps_ValidationAcceptsUpTo4095 :
    CallMayEnter disarmed ∧ disarmed.ctl ≠ none ∧ DurationOk none ∧ DurationOk (some 0) ∧ DurationOk (some 4095) ∧
    4095 < 4096 := by decide

theorem test_hyps_ConfigureWritesDriveThenPolarity :
    (AtRest (sched [.counter] disarmed) ∧ (sched [.counter] disarmed).par.Distinct ∧
      (sched [.counter] disarmed).iface = .device ∧ (sched [.counter] disarmed).ctl ≠ none ∧
      Halted (sched [.counter] disarmed)) ∧
    (AtRest (armed 7#32) ∧ (armed 7#32).par.Distinct ∧ (armed 7#32).iface = .device ∧ (armed 7#32).ctl ≠ none ∧
      (armed 7#32).moves = []) ∧
    DurationOk (config true false none).pulseDurationTicks := by decide

theorem test_hyps_TaggedUpdatesKeepDuration :
    (AtRest (sched [.counter] disarmed) ∧ (sched [.counter] disarmed).par.Distinct ∧
      (sched [.counter] disarmed).iface = .device ∧ (sched [.counter] disarmed).ctl ≠ none ∧
      Halted (sched [.counter] disarmed)) ∧
    (AtRest (armed 0#32) ∧ (armed 0#32).par.Distinct ∧ (armed 0#32).iface = .device ∧ (armed 0#32).ctl ≠ none ∧
      (armed 0#32).moves = []) := by
  decide

theorem test_hyps_ConfiguratorUnaffectedByCounter :
    CallMayEnter (sched [.counter] (armed 7#32)) ∧ (sched [.counter] (armed 7#32)).par.Distinct ∧
    (sched [.counter] (armed 7#32)).iface = .device ∧ (sched [.counter] (armed 7#32)).ctl ≠ none ∧
    DurationOk (config true true none).pulseDurationTicks ∧
    (after (exec (.configureResetSignal (config true true none)) (sched [.counter] (armed 7#32)))).map
      (·.dev.expired) = some none ∧
    (after (exec (.setDriveMode true) (sched [.counter] (armed 7#32)))).map (·.dev.expired) = some none ∧
    (after (exec (.setPolarity true) (sched [.counter] (armed 7#32)))).map (·.dev.expired) = some none := by decide

theorem test_hyps_OneReadShapeEqualsTwoReadShape :
    AtRest (armed 7#32) ∧ (armed 7#32).par.Distinct ∧ (armed 7#32).moves = [] ∧ (armed 7#32).ctl ≠ none ∧
    (config true false none).pulseDurationTicks = none := by decide

theorem test_hyps_TimeCountsOnlyWhileEnabled :
    ((armed 1#32).dev.expired = none ∧ Running (armed 1#32) ∧ (armed 1#32).dev.counter ≠ 0#32) ∧
    ((waiting 1 disarmed).dev.expired = none ∧ Halted (waiting 1 disarmed)) ∧
    ((dev 1#32 9#32 0x23#32).iface = .device ∧ (dev 1#32 9#32 0x23#32).dev.expired = none ∧
      (dev 1#32 9#32 0x23#32).dev.ctrl.getLsbD 0 = true ∧ (dev 1#32 9#32 0x23#32).dev.ctrl.getLsbD 4 = false ∧
      (dev 1#32 9#32 0x23#32).dev.counter ≠ 0#32 ∧ (1#32).toNat ≤ (dev 1#32 9#32 0x23#32).dev.counter.toNat) ∧
    Due (armed 0#32) := by decide

theorem test_hyps_ForceResetReturnsAfterItsWait :
    ((waiting 1 disarmed).dev.expired = none ∧ (waiting 1 disarmed).seq = .running .forceReset 4 [] ∧
      (waiting 1 disarmed).blockUs ≠ 0 ∧ (after (step (waiting 1 disarmed))).isSome = true) ∧
    ((waiting 0 disarmed).blockUs = 0 ∧ (waiting 0 disarmed).moves = []) ∧
    (sched [.issuer, .counter] (waiting 0 disarmed)).moves = .issuer :: [.counter] := by decide

theorem test_hyps_ExpireRecordsActions :
    (Due (dev 0#32 9#32 0x33#32) ∧ (dev 0#32 9#32 0x33#32).dev.ctrl.getLsbD 1 = true) ∧
    (Due (dev 0#32 9#32 0x1D#32) ∧ (dev 0#32 9#32 0x1D#32).dev.ctrl.getLsbD 2 = true) ∧
    Due (dev 0#32 9#32 0x73#32) := by decide

theorem test_hyps_ExpiryWithoutActionIsUnspecified :
    Due (dev 0#32 9#32 0x19#32) ∧ (dev 0#32 9#32 0x19#32).dev.ctrl.getLsbD 1 = false ∧
    (dev 0#32 9#32 0x19#32).dev.ctrl.getLsbD 2 = false := by decide

theorem test_hyps_ExactlyOneCounterStepEnabled :
    (armed 0#32).dev.expired = none ∧ Due (armed 0#32) ∧ (armed 1#32).dev.expired = none ∧ ¬ Due (armed 1#32) := by decide

theorem test_hyps_TerminalStateHasNoStep :
    (after (exec .expire (armed 0#32))).map (·.dev.expired) = some (some (.actions (some .fullChip) false none)) := by
  decide

theorem test_hyps_BlockedCallerHoldsUpTheHost :
    ((waiting 5 (armed 7#32)).dev.expired = none ∧ (waiting 5 (armed 7#32)).seq ≠ .idle) ∧
    (Instr.ping).level ≠ .agent ∧ (midStart.dev.expired = none ∧ midStart.seq ≠ .idle) ∧
    (after (step (calling (.cmd 3#8 .nothing) midStart))).isSome = true ∧
    ∃ k, (waiting 5 (armed 7#32)).seq = .running .forceReset k [] :=
  ⟨by decide, by decide, by decide, by decide, _, rfl⟩

theorem test_hyps_RunningTimerExpiresOnTime :
    Running (armed 0xFFFFFED8#32) ∧ (armed 0xFFFFFED8#32).seq = .idle ∧ (armed 0xFFFFFED8#32).blockUs = 0 ∧
    (armed 0xFFFFFED8#32).inbox = [] := by decide

theorem test_hyps_StartThenSilenceResetsOnTime :
    AtRest disarmed ∧ disarmed.iface = .device ∧ disarmed.inbox = [] ∧ ∃ c, disarmed.ctl = some c ∧ c.Sound :=
  ⟨by decide, rfl, rfl, _, rfl, by decide⟩

theorem test_hyps_ForceResetAlwaysEndsInReset :
    AtRest (armed 7#32) ∧ (armed 7#32).iface = .device ∧ ∃ c, (armed 7#32).ctl = some c ∧ c.Sound :=
  ⟨by decide, rfl, _, rfl, by decide⟩

theorem test_hyps_DecodeInvertsEncode :
    Config.Params.known.Distinct ∧ (Instr.wrResetWidthOther 0xAD0003E8#32).wellFormed Config.Params.known = true ∧
    encode Config.Params.known (.wrResetWidthOther 0xAD0003E8#32) = some (.bus 0x118AD0003E8#48) := by decide

theorem test_hyps_OnlyMapWordsDecode :
    decode Config.Params.known (.bus 0x10800000000#48) = .ok (.wrRestartOther 0#32) ∧
    decode Config.Params.known (.bus 0x00C0000FFFF#48) = .ok .rdCtrl ∧
    decode Config.Params.known (.cmd 11#8 (.flag true)) = .ok (.setPolarity true) ∧
    decode Config.Params.known (.cmd 9#8 (.config (config true true (some 5000)))) =
      .ok (.configureResetSignal (config true true (some 5000))) := by decide

theorem test_hyps_ReloadWordCapsAtCeiling : 4294 ≤ 4294 ∧ 4295 ≤ 4295 := by decide

theorem test_hyps_CtrlFlagsFollowConfiguration :
    ({ resetScope := .soc, externalSignal := true } : ResolvedConfiguration).resetScope = .soc ∧
    (config true true none).resetScope = .system ∧
    ({ resetScope := .cpu, externalSignal := true } : ResolvedConfiguration).resetScope = .cpu := by decide

theorem test_hyps_ResetWidthEncodingRoundTrip : 4095 ≤ 4095 := by decide

theorem test_hyps_StepRunsDecodedInstruction :
    CallMayEnter (calling (.cmd 3#8 .nothing) (armed 7#32)) ∧
    decode (armed 7#32).par (.cmd 3#8 .nothing) = .ok .ping ∧ (calling (.cmd 3#8 .nothing) (armed 7#32)).moves = [] ∧
    (sched [.issuer, .counter] (calling (.cmd 3#8 .nothing) (armed 7#32))).moves = .issuer :: [.counter] ∧
    (Instr.rdStatus).level = .bus ∧ CallMayEnter disarmed ∧ disarmed.par = Config.Params.known ∧
    decodeTableWord 48 0x11800000000 = some (.wrResetWidthOther 0#32) ∧
    decodeTableWord 8 0xB = some (.setPolarity false) := by decide

theorem test_hyps_StepsMakeUpTheInstruction :
    CallMayEnter (calling (.cmd 1#8 (.seconds 30)) disarmed) ∧
    decode disarmed.par (.cmd 1#8 (.seconds 30)) = .ok (.start 30) ∧
    (calling (.cmd 1#8 (.seconds 30)) disarmed).moves = [] ∧
    (sched [.issuer, .counter] (calling (.cmd 1#8 (.seconds 30)) disarmed)).moves = .issuer :: [.counter] := by decide

theorem test_hyps_StartTakesOneStepPerWrite :
    (AtRest (calling (.cmd 1#8 (.seconds 30)) disarmed) ∧ (calling (.cmd 1#8 (.seconds 30)) disarmed).iface = .device ∧
      (calling (.cmd 1#8 (.seconds 30)) disarmed).moves = [] ∧
      (calling (.cmd 1#8 (.seconds 30)) disarmed).inbox = .cmd 1#8 (.seconds 30) :: []) ∧
    ∃ c, (calling (.cmd 1#8 (.seconds 30)) disarmed).ctl = some c ∧ c.Sound := ⟨by decide, _, rfl, by decide⟩

theorem test_hyps_StepRunsCounterAgent :
    ((armed 0#32).dev.expired = none ∧ (armed 0#32).seq = .idle ∧ (armed 0#32).inbox = [] ∧ Due (armed 0#32)) ∧
    ((waiting 5 (armed 1#32)).dev.expired = none ∧ (5 : Nat) ≠ 0 ∧ ¬ Due (waiting 5 (armed 1#32))) ∧
    ((calling (.cmd 3#8 .nothing) (armed 7#32)).seq = .idle ∧ (calling (.cmd 3#8 .nothing) (armed 7#32)).inbox ≠ [] ∧
      (sched [.counter] (calling (.cmd 3#8 .nothing) (armed 7#32))).moves = .counter :: []) ∧
    (midStart.seq.todo ≠ [] ∧ (sched [.counter] midStart).moves = .counter :: []) ∧
    Waits 5 (waiting 5 (armed 1#32)) ∧ Waits 0 (waiting 0 disarmed) :=
  ⟨by decide, by decide, by decide, by decide, ⟨_, rfl, rfl⟩, _, rfl, rfl⟩

theorem test_hyps_StepKeepsInvariant :
    (Legal (armed 7#32) ∧ ∃ t, step (armed 7#32) = .next t) ∧
    (CtrlDefined midStart.dev.ctrl ∧ ∃ t, step midStart = .next t) := by
  refine ⟨⟨⟨by decide, ?_, by decide, fun _ => rfl, fun _ => by decide⟩, _, rfl⟩, by decide, _, rfl⟩
  intro c h
  cases h
  decide

theorem test_hyps_StepMakesAtMostOneTransaction :
    (∃ t, step (calling (.cmd 3#8 .nothing) (armed 7#32)) = .next t) ∧
    (∃ t, step midStart = .next t) ∧ (∃ t, step (sched [.counter] midStart) = .next t) ∧
    midStart.seq = .running .start 1 [.load 30000000#32, .restart, .writeMirror] :=
  ⟨⟨_, rfl⟩, ⟨_, rfl⟩, ⟨_, rfl⟩, rfl⟩

theorem test_hyps_OperationsMoveBetweenArmedAndDisarmed :
    disarmed.ctl.isSome = true ∧ (after (exec (.start 1) disarmed)).isSome = true ∧
    (after (exec .forceReset disarmed)).isSome = true ∧ (after (exec .stop disarmed)).isSome = true ∧
    (after (exec .ping disarmed)).isSome = true ∧ (after (exec (.setTimeout 1) disarmed)).isSome = true ∧
    (after (exec .currentTimeout disarmed)).isSome = true ∧ (after (exec .maxTimeout disarmed)).isSome = true := by decide

theorem test_hyps_OnlyFourOperationsWriteTheMirror : ∃ t, exec .ping (armed 7#32) = .next t := ⟨_, rfl⟩

theorem test_hyps_MirrorStaysSynced :
    ((armed 7#32).iface = .device ∧ (armed 7#32).ctl.isSome = true ∧ MirrorSynced (armed 7#32) ∧
      ∃ t, exec .stop (armed 7#32) = .next t ∧ t.dev.expired = none) ∧
    (EnAgrees (ctl 0x32#32 (dev 5#32 9#32 0#32)) ∧
      ∃ t, exec .ping (ctl 0x32#32 (dev 5#32 9#32 0#32)) = .next t ∧ t.dev.expired = none) ∧
    (midStart.iface = .device ∧ midStart.inbox = [] ∧ Rearms midStart.seq.todo ∧ Action.writeMirror ∈ midStart.seq.todo ∧
      ∃ t, step midStart = .next t) := by
  refine ⟨⟨rfl, rfl, ?_, _, rfl, rfl⟩, ⟨?_, _, rfl, rfl⟩, rfl, rfl, ?_, by decide, _, rfl⟩
  · intro c h; cases h; decide
  · intro c h; cases h; decide
  · simp [midStart, Seq.todo, Rearms]

theorem test_hyps_OnlyReloadsAndTimeMoveTheCounter : (∃ t, exec .stop (armed 7#32) = .next t) ∧ (armed 7#32).moves = [] :=
  ⟨⟨_, rfl⟩, rfl⟩

theorem test_hyps_CounterAgentLeavesRegisters :
    (∃ t, exec .time (armed 7#32) = .next t) ∧ ∃ t, exec .expire (armed 0#32) = .next t := ⟨⟨_, rfl⟩, _, rfl⟩

theorem test_hyps_PingsAreIdempotentOnTheDevice :
    CallMayEnter (armed 7#32) ∧ (armed 7#32).iface = .device ∧ ∃ c, (armed 7#32).ctl = some c := ⟨by decide, rfl, _, rfl⟩

theorem test_hyps_EnableReloadsUnobservable :
    ((Instr.attach (config true true none)).level = .cmd ∧ AtRest (dev 5#32 9#32 0x33#32) ∧
      (dev 5#32 9#32 0x33#32).ctl = none ∧
      ∃ t, exec (.attach (config true true none)) (dev 5#32 9#32 0x33#32) = .next t) ∧
    (AtRest disarmed ∧ (∃ c, disarmed.ctl = some c ∧ c.Sound) ∧ ∃ t, exec (.start 30) disarmed = .next t) :=
  ⟨⟨rfl, by decide, rfl, _, rfl⟩, by decide, ⟨_, rfl, by decide⟩, _, rfl⟩

end Sys2Proof.Tests
end

section
/-! PROOFS. The words the controller computes: the reload word of 30_encoding R64 and the configured flag word of
R62, R63. -/

namespace Sys2Proof.Machine

/-! ## The reload word -/

/-- The cap keeps the argument of `word32` below 2^32, so the word is that number itself and nothing wraps. -/
theorem reloadOf_toNat (ts : Nat) :
    (reloadOf ts).toNat = min (ts * 1000) Config.maxHwHeartbeatMs * 1000 := by
  have hcap : min (ts * 1000) Config.maxHwHeartbeatMs ≤ 4294967 := Nat.min_le_right _ _
  rw [reloadOf, word32, BitVec.toNat_ofNat, Nat.mod_eq_of_lt (by omega)]

/-- Settles O44: the word is the capped product as a number, and the cap first binds at 4295 seconds. -/
theorem reloadWordCapsAtCeiling : Obligations.ReloadWordCapsAtCeiling := by
  unfold Obligations.ReloadWordCapsAtCeiling
  intro ts
  rw [reloadOf_toNat, Config.maxHwHeartbeatMs]
  constructor
  · intro hle
    rw [Nat.min_eq_left (by omega)]
    omega
  · intro hge
    rw [Nat.min_eq_right (by omega)]

/-! ## The configured flag word -/

/-- `enc_scope` sets bits of SCOPE only: none of the five flags below it. -/
theorem encScope_flag_bit (sc : ScopeName) (i : Nat) (hi : i < 5) : (encScope sc).getLsbD i = false := by
  cases sc <;> interval_cases i <;> rfl

/-- A flag bit of the configured word does not depend on the scope. -/
theorem encCtrlFlags_flag_bit (cfg : ResolvedConfiguration) (i : Nat) (hi : i < 5) :
    (encCtrlFlags cfg).getLsbD i =
      (maskRst ||| maskClk1m ||| if cfg.externalSignal then maskExt else 0#32).getLsbD i := by
  simp only [encCtrlFlags, BitVec.getLsbD_or, encScope_flag_bit _ i hi, Bool.or_false]

theorem encCtrlFlags_rst (cfg : ResolvedConfiguration) : ctrlRst (encCtrlFlags cfg) = true := by
  rw [ctrlRst, encCtrlFlags_flag_bit cfg 1 (by decide)]
  cases cfg.externalSignal <;> rfl

theorem encCtrlFlags_intr (cfg : ResolvedConfiguration) : ctrlIntr (encCtrlFlags cfg) = false := by
  rw [ctrlIntr, encCtrlFlags_flag_bit cfg 2 (by decide)]
  cases cfg.externalSignal <;> rfl

theorem encCtrlFlags_ext (cfg : ResolvedConfiguration) : ctrlExt (encCtrlFlags cfg) = cfg.externalSignal := by
  rw [ctrlExt, encCtrlFlags_flag_bit cfg 3 (by decide)]
  cases cfg.externalSignal <;> rfl

theorem encCtrlFlags_clk1m (cfg : ResolvedConfiguration) : ctrlClk1m (encCtrlFlags cfg) = true := by
  rw [ctrlClk1m, encCtrlFlags_flag_bit cfg 4 (by decide)]
  cases cfg.externalSignal <;> rfl

/-- SCOPE of the configured word is the one `enc_scope` gives: no flag reaches bits 6:5. -/
theorem encCtrlFlags_scope (cfg : ResolvedConfiguration) :
    ctrlScope (encCtrlFlags cfg) = ctrlScope (encScope cfg.resetScope) := by
  rw [encCtrlFlags]
  cases cfg.resetScope <;> cases cfg.externalSignal <;> rfl

/-- The reserved bits are 0 because the word is a mirror word, which the device accepts. -/
theorem encCtrlFlags_reserved (cfg : ResolvedConfiguration) : ctrlReservedBits (encCtrlFlags cfg) = 0#25 :=
  (mirrorWords_defined _ (encCtrlFlags_mem cfg)).1

/-- Settles O45: the fields one by one; the table holds the word, and with each word the one with EN. -/
theorem ctrlFlagsFollowConfiguration : Obligations.CtrlFlagsFollowConfiguration := by
  unfold Obligations.CtrlFlagsFollowConfiguration
  intro cfg
  have hscope (sc : ScopeName) (h : cfg.resetScope = sc) :
      ctrlScope (encCtrlFlags cfg) = ctrlScope (encScope sc) := by rw [encCtrlFlags_scope, h]
  exact ⟨encCtrlFlags_en cfg, encCtrlFlags_rst cfg, encCtrlFlags_intr cfg, encCtrlFlags_ext cfg,
    encCtrlFlags_clk1m cfg, hscope .soc, hscope .system, hscope .cpu, encCtrlFlags_reserved cfg,
    encCtrlFlags_mem cfg, mirrorWords_or_en _ (encCtrlFlags_mem cfg)⟩

end Sys2Proof.Machine
end

section
/-! PROOFS. The register interface: what each raw transaction does on the device (40_register_interface R92 to R105) and on
the recording fake (R107). -/

namespace Sys2Proof.Machine

/-! ## The words a device read can return -/

/-- Bits 31:1 of a CTRL read are free, so every word that shows EN at bit 0 is read for some free values (R95). -/
theorem deviceRead_ctrl_of_bits (d : Device) (f : FreeBits) (v : Word) (hen : v.getLsbD 0 = d.ctrl.getLsbD 0) :
    deviceRead .ctrl d { f with ctrlRead := v.extractLsb' 1 31 } = v := by
  apply BitVec.eq_of_getLsbD_eq
  intro i hi
  simp only [deviceRead, ← hen, BitVec.getLsbD_append, BitVec.getLsbD_extractLsb', BitVec.getLsbD_ofBool]
  cases i with
  | zero => simp
  | succ i => simp [show i < 31 by omega, Nat.add_comm]

/-- A word that shows the three fields is the word of those fields and its bits 29:12. -/
theorem deviceRead_resetWidth_of_bits (d : Device) (f : FreeBits) (v : Word) (hdur : v.extractLsb' 0 12 = d.rwDur)
    (hdrive : v.getLsbD 30 = d.rwDrive) (hpol : v.getLsbD 31 = d.rwPol) :
    deviceRead .resetWidth d { f with rwRead := v.extractLsb' 12 18 } = v := by
  apply BitVec.eq_of_getLsbD_eq
  intro i hi
  simp only [deviceRead, ← hdur, ← hdrive, ← hpol, BitVec.getLsbD_append, BitVec.getLsbD_extractLsb',
    BitVec.getLsbD_ofBool]
  by_cases h12 : i < 12
  · simp [h12]
  by_cases h30 : i < 30
  · simp [h12, show i - 12 < 18 by omega, show 12 + (i - 12) = i by omega]
  obtain rfl | rfl : i = 30 ∨ i = 31 := by omega
  · simp
  · simp

/-- A raw read with the free values `f`, for a word they give. -/
theorem busRead_of_free (r : Reg) (s : State) (f : FreeBits) (v : Word) (henter : CallMayEnter s)
    (hdev : s.iface = .device) (hv : deviceRead r s.dev f = v) :
    busRead r { s with free := f } = .next { s with
      result := some (.word v), trace := s.trace ++ [.read r v], free := redraw r f } := by
  subst hv
  exact busRead_of_device r { s with free := f } henter hdev

/-! ## What the device's write rows answer -/

/-- A CTRL word outside the requires of R100 is refused by the device's row. -/
theorem devWriteCtrl_of_undefined (p : Config.Params) (v : Word) (d : Device) (h : ¬ CtrlDefined v) :
    ∃ r, devWriteCtrl p v d = .error r := by
  obtain ⟨r, hr⟩ := Option.ne_none_iff_exists'.1 (mt (ctrlRefusal_eq_none_iff v).1 h)
  exact ⟨r, by simp [devWriteCtrl, hr]⟩

/-- A tagged write with an empty middle field is accepted, whichever flag its row sets (R101). -/
theorem devTagged_of_zero (dur : BitVec 12) (field : Device → Device) (d : Device) :
    devTagged 0#12 dur field d = .ok (field { d with rwDur := dur }) := by
  simp [devTagged]

/-! ## The device -/

/-- Settles O1: a STATUS read draws no free value. -/
theorem statusReadReturnsCounter : Obligations.StatusReadReturnsCounter := by
  unfold Obligations.StatusReadReturnsCounter
  intro s henter hdev
  exact busRead_of_device .status s henter hdev

/-- Settles O2: the word read is the free value itself, so the free values can be chosen to give any word. -/
theorem openReadsReturnAnyWord : Obligations.OpenReadsReturnAnyWord := by
  unfold Obligations.OpenReadsReturnAnyWord
  intro s v henter hdev
  exact ⟨⟨_, busRead_of_device .reloadValue s henter hdev⟩, ⟨_, busRead_of_device .restart s henter hdev⟩,
    ⟨_, _, busRead_of_free .reloadValue s { s.free with reloadRead := v } v henter hdev rfl⟩,
    ⟨_, _, busRead_of_free .restart s { s.free with restartRead := v } v henter hdev rfl⟩⟩

/-- Settles O3: a read shows EN, and bits 31:1 can be chosen. -/
theorem ctrlReadPromisesBitZero : Obligations.CtrlReadPromisesBitZero := by
  unfold Obligations.CtrlReadPromisesBitZero
  intro s henter hdev
  exact ⟨⟨_, _, deviceRead_ctrl_en s.dev s.free, busRead_of_device .ctrl s henter hdev⟩, fun v hen =>
    ⟨_, _, busRead_of_free .ctrl s _ v henter hdev (deviceRead_ctrl_of_bits s.dev s.free v hen)⟩⟩

/-- Settles O4: a read shows the three fields, and bits 29:12 can be chosen. -/
theorem resetWidthReadShowsFields : Obligations.ResetWidthReadShowsFields := by
  unfold Obligations.ResetWidthReadShowsFields
  intro s henter hdev
  exact ⟨⟨_, _, deviceRead_resetWidth_fields s.dev s.free, busRead_of_device .resetWidth s henter hdev⟩,
    fun v hdur hdrive hpol => ⟨_, _, busRead_of_free .resetWidth s _ v henter hdev
      (deviceRead_resetWidth_of_bits s.dev s.free v hdur hdrive hpol)⟩⟩

/-- Settles O5: the row sets dev.reload alone. -/
theorem reloadWriteLeavesCounter : Obligations.ReloadWriteLeavesCounter := by
  unfold Obligations.ReloadWriteLeavesCounter
  intro s v henter hdev
  exact busWrite_of_device .reloadValue v (devWriteReloadValue v) s _ henter hdev rfl

/-- Settles O6: the row sets dev.counter alone and does not look at CTRL. -/
theorem restartMagicReloadsCounter : Obligations.RestartMagicReloadsCounter := by
  unfold Obligations.RestartMagicReloadsCounter
  intro s henter hdev
  exact busWrite_of_device .restart (restartWord s.par) devRestart s _ henter hdev rfl

/-- Settles O7: the device accepts exactly the words of `CtrlDefined`. -/
theorem ctrlWriteTakesEffect : Obligations.CtrlWriteTakesEffect := by
  unfold Obligations.CtrlWriteTakesEffect
  intro s v henter hdev
  constructor
  · intro hdef
    have hwrite := busWrite_of_device .ctrl v _ s _ henter hdev (devWriteCtrl_of_defined s.par v s.dev hdef)
    simp only [ctrlEn, Bool.and_eq_true, Bool.not_eq_true', and_assoc] at hwrite
    exact hwrite
  · intro hundef
    obtain ⟨r, hr⟩ := devWriteCtrl_of_undefined s.par v s.dev hundef
    exact ⟨r, busWrite_of_refused .ctrl v _ s r henter hdev hr⟩

/-- Settles O8: each row is `devTagged` with its own flag, and the middle field is zero. -/
theorem taggedWriteStoresDurationAndOneFlag : Obligations.TaggedWriteStoresDurationAndOneFlag := by
  unfold Obligations.TaggedWriteStoresDurationAndOneFlag
  intro s dur henter hdev
  have htagged (sel : BitVec 8) (field : Device → Device) :=
    busWrite_of_device .resetWidth (rwwWord sel 0#12 dur) (devTagged 0#12 dur field) s _ henter hdev
      (devTagged_of_zero dur field s.dev)
  exact ⟨htagged s.par.pushPullMagic fun d => { d with rwDrive := true },
    htagged s.par.openDrainMagic fun d => { d with rwDrive := false },
    htagged s.par.activeHighMagic fun d => { d with rwPol := true },
    htagged s.par.activeLowMagic fun d => { d with rwPol := false }⟩

/-! ## The recording fake -/

/-- Settles O10: on the fake every row is the one store or the one load of its register. -/
theorem fakeStoresAndReturnsWords : Obligations.FakeStoresAndReturnsWords := by
  unfold Obligations.FakeStoresAndReturnsWords
  intro s v zero dur henter hfake
  have hread (r : Reg) := busRead_of_fake r s henter hfake
  have hwrite (r : Reg) (w : Word) (row : Device → Except Refusal Device) := busWrite_of_fake r w row s henter hfake
  exact ⟨hread .status, hread .reloadValue, hread .restart, hread .ctrl, hread .resetWidth,
    hwrite .status v _, hwrite .reloadValue v _, hwrite .restart (restartWord s.par) _, hwrite .restart v _,
    hwrite .ctrl v _, hwrite .resetWidth (rwwWord s.par.pushPullMagic zero dur) _,
    hwrite .resetWidth (rwwWord s.par.openDrainMagic zero dur) _,
    hwrite .resetWidth (rwwWord s.par.activeHighMagic zero dur) _,
    hwrite .resetWidth (rwwWord s.par.activeLowMagic zero dur) _, hwrite .resetWidth v _⟩

end Sys2Proof.Machine
end

section
/-! PROOFS. The controller's operations on the device: start, stop, ping, set_timeout and the two queries (41_controller
R112 to R115, R117, R118). -/

namespace Sys2Proof.Machine

/-! ## Between two transactions -/

/-- When nothing expires between two transactions, whatever the schedule, the next one is made from the state after the
lapse. -/
theorem resume_stage_of_lapse {n : Nat} {s m m' : State} {op : OpName} {k : Nat} {a : Action} {l : List Action}
    {r : Answer} (h : s.seq = .running op k (a :: l)) (ha : act a { s with seq := .running op k l } = .next m)
    (hp : pending m.seq = true) (hl : lapse m = m') (he : m'.dev.expired = none)
    (hr : resume n (controllerStep m') = r) :
    resume (n + 1) (controllerStep s) = r := by
  rw [resume_controllerStep h ha, settle_of_pending m hp]
  simp only [runCall, hp, if_true, hl, he, Option.isSome_none, Bool.false_eq_true, if_false]
  exact hr

/-- A lapse that does not pass the end of the countdown moves the counter and uses up the schedule, and that is all: a
halted timer stands still, a running one loses a tick per turn. -/
theorem lapse_moves_only_counter (s : State) (he : s.dev.expired = none) (hb : s.blockUs = 0)
    (ht : Halted s ∨ (Running s ∧ leadingTurns s.moves ≤ s.dev.counter.toNat)) :
    ∃ v, lapse s = { s with dev := { s.dev with counter := v }, moves := afterTurns s.moves } := by
  obtain hhalt | ⟨hrun, hturns⟩ := ht
  · exact ⟨s.dev.counter, lapse_of_quiet s (.inl hhalt) hb he⟩
  · exact ⟨_, lapse_of_running s hrun hb hturns⟩

/-! ## The operations -/

/-- Settles O15: the arm sequence first halts the timer, so no schedule can disturb it. -/
theorem startArmsTimer : Obligations.StartArmsTimer := by
  unfold Obligations.StartArmsTimer
  intro s c ts hrest hdev hctl ⟨hword, _⟩
  obtain ⟨hexp, hidle, hblock⟩ := hrest
  refine ⟨afterTurns (afterTurns (afterTurns s.moves)), ?_⟩
  simp only [exec, execStart, beginStart, controllerTurn_of_enter s c _ ⟨hexp, hidle⟩ hctl]
  refine (arm_of_device 5 (reloadOf ts) .start 0 [] { c with timeout := ts } _ rfl (by exact hdev)
    (by exact hexp) (by exact hblock) rfl hword).trans ?_
  rw [settle_last _ .start 4 rfl (by decide), runCall_of_not_pending 5 _ rfl]
  simp [hidle, restartWord, Controller.enable, maskEn]

/-- Settles O16: the one write carries a mirror word with EN clear, so the device accepts it and P16 plays no part. -/
theorem stopHaltsTimer : Obligations.StopHaltsTimer := by
  unfold Obligations.StopHaltsTimer
  intro s c henter hdev hctl ⟨hword, _⟩
  have hdef : CtrlDefined c.disable.ctrl := mirrorWords_defined _ (mirrorWords_and_not_en _ hword)
  have hen : c.disable.ctrl.getLsbD 0 = false := mirrorWords_and_not_en_bit _ hword
  simp only [exec, execStop, beginStop, controllerTurn_of_enter s c _ henter hctl]
  refine resume_last rfl (act_writeMirror_of_device _ c.disable (by exact hdev) rfl hdef (.inl hen)) rfl (by decide) ?_
  simp [henter.2, Controller.disable, maskEn]

/-- Settles O17: RESTART copies the reload value to the counter whatever CTRL is. -/
theorem pingReloadsCounter : Obligations.PingReloadsCounter := by
  unfold Obligations.PingReloadsCounter
  intro s c henter hdev hctl
  simp only [exec, execPing, beginPing, controllerTurn_of_enter s c _ henter hctl]
  refine resume_last rfl (act_restart_of_device _ (by exact hdev)) rfl (by decide) ?_
  simp [henter.2, restartWord]

/-- Settles O18: the lapse between the two writes moves the counter only, and RESTART then sets it. -/
theorem setTimeoutTakesEffectAtOnce : Obligations.SetTimeoutTakesEffectAtOnce := by
  unfold Obligations.SetTimeoutTakesEffectAtOnce
  intro s c ts hrest hdev hctl htimer
  obtain ⟨hexp, hidle, hblock⟩ := hrest
  refine ⟨afterTurns s.moves, ?_⟩
  simp only [exec, execSetTimeout, beginSetTimeout, controllerTurn_of_enter s c _ ⟨hexp, hidle⟩ hctl]
  obtain ⟨v, hlapse⟩ := lapse_moves_only_counter
    { s with
      dev := { s.dev with reload := reloadOf ts }, ctl := some { c with timeout := ts }
      trace := s.trace ++ [.write .reloadValue (reloadOf ts)]
      seq := .running .setTimeout 1 [.restart], result := none } hexp hblock htimer
  refine resume_stage_of_lapse rfl (act_load_of_device _ _ (by exact hdev)) rfl hlapse (by exact hexp) ?_
  refine resume_last rfl (act_restart_of_device _ (by exact hdev)) rfl (by decide) ?_
  simp [hidle, restartWord]

/-- Settles O21: each query answers its field of the controller. -/
theorem queriesReportControllerFields : Obligations.QueriesReportControllerFields := by
  unfold Obligations.QueriesReportControllerFields
  intro s c henter hctl
  simp only [exec, execCurrentTimeout, execMaxTimeout, controllerTurn_of_enter s c _ henter hctl, true_and]
  rintro ⟨-, hceiling⟩
  rw [hceiling]

end Sys2Proof.Machine
end

section
/-! PROOFS. The configurator on the device: validation, configure_reset_signal, set_drive_mode and set_polarity
(42_reset_signal R130 to R133). -/

namespace Sys2Proof.Machine

/-- At an operation boundary of the device nothing can happen between two transactions when the timer is halted or no turn
is scheduled. -/
theorem still_of_atRest (s : State) (hrest : AtRest s) (h : Halted s ∨ s.moves = []) : Still s := by
  obtain ⟨hexp, -, hblock⟩ := hrest
  exact ⟨hexp, h.imp_left fun hhalt => ⟨.inl hhalt, hblock⟩⟩

/-- Settles O26: validation rejects exactly the durations above 4095. -/
theorem validationAcceptsUpTo4095 : Obligations.ValidationAcceptsUpTo4095 := by
  unfold Obligations.ValidationAcceptsUpTo4095
  intro s d henter hctl
  obtain ⟨c, hc⟩ := Option.ne_none_iff_exists'.1 hctl
  simp only [exec, execValidatePulseDuration, controllerTurn_of_enter s c _ henter hc]
  constructor
  · intro hok
    rw [(durationError_eq_none_iff d).2 hok]
  · rintro n rfl hlong
    rw [durationError_of_long n hlong]
    rfl

/-- Settles O27: nothing can happen between the three transactions, and the duration has passed validation. -/
theorem configureWritesDriveThenPolarity : Obligations.ConfigureWritesDriveThenPolarity := by
  unfold Obligations.ConfigureWritesDriveThenPolarity
  intro s cfg hrest hdistinct hdev hctl hquiet hok
  obtain ⟨c, hc⟩ := Option.ne_none_iff_exists'.1 hctl
  have hstill : Still s := still_of_atRest s hrest hquiet
  obtain ⟨hexp, hidle, -⟩ := hrest
  refine ⟨_, afterTurns (afterTurns s.moves), redraw .resetWidth s.free,
    chosenDuration cfg.pulseDurationTicks (deviceRead .resetWidth s.dev s.free),
    (deviceRead_resetWidth_fields s.dev s.free).1, ?_⟩
  simp only [exec, execConfigureResetSignal, beginConfigureResetSignal, controllerTurn_of_enter s c _ ⟨hexp, hidle⟩ hc,
    (durationError_eq_none_iff _).2 hok]
  refine (configure_of_device 6 cfg .configureResetSignal 0 _ rfl (by decide) (by exact hdev) (by exact hdistinct) hok
    (by exact hstill)).trans ?_
  simp only [hidle, rwwWord, selDrive, selPol]

/-- Settles O28: nothing can happen between the two transactions, and the duration written is the one read. -/
theorem taggedUpdatesKeepDuration : Obligations.TaggedUpdatesKeepDuration := by
  unfold Obligations.TaggedUpdatesKeepDuration
  intro s b hrest hdistinct hdev hctl hquiet
  obtain ⟨c, hc⟩ := Option.ne_none_iff_exists'.1 hctl
  have hstill : Still s := still_of_atRest s hrest hquiet
  obtain ⟨hexp, hidle, -⟩ := hrest
  have hread := (deviceRead_resetWidth_fields s.dev s.free).1
  constructor
  · refine ⟨_, afterTurns s.moves, redraw .resetWidth s.free, deviceRead .resetWidth s.dev s.free &&& durMask, hread, ?_⟩
    simp only [exec, execSetDriveMode, beginSetDriveMode, controllerTurn_of_enter s c _ ⟨hexp, hidle⟩ hc]
    refine (retag_drive_of_device 7 b .setDriveMode 0 _ rfl (by decide) (by exact hdev) (by exact hdistinct)
      (by exact hstill)).trans ?_
    simp only [hidle, rwwWord, selDrive]
  · refine ⟨_, afterTurns s.moves, redraw .resetWidth s.free, deviceRead .resetWidth s.dev s.free &&& durMask, hread, ?_⟩
    simp only [exec, execSetPolarity, beginSetPolarity, controllerTurn_of_enter s c _ ⟨hexp, hidle⟩ hc]
    refine (retag_pol_of_device 7 b .setPolarity 0 _ rfl (by decide) (by exact hdev) (by exact hdistinct)
      (by exact hstill)).trans ?_
    simp only [hidle, rwwWord, selPol]

end Sys2Proof.Machine
end

section
/-! PROOFS. The counter agent's TIME on the device (43_counter R145, R151). -/

namespace Sys2Proof.Machine

/-! ## A tick with CLK1M = 0 -/

/-- Where a tick with CLK1M = 0 takes a counter that stands at `c` (R151). -/
def fallFrom (f : FreeBits) (c : Word) : Word := if f.fall.toNat ≤ c.toNat then f.fall else c

/-- The free values after such a tick. -/
def redrawFall (f : FreeBits) : FreeBits := { f with fall := Config.freeWord f.next, next := f.next + 1 }

theorem fallFrom_le (f : FreeBits) (c : Word) : (fallFrom f c).toNat ≤ c.toNat := by
  unfold fallFrom
  split
  · assumption
  · exact le_rfl

/-- Every value in the bound is taken for some free values. -/
theorem fallFrom_of_le (f : FreeBits) (c x : Word) (hx : x.toNat ≤ c.toNat) : fallFrom { f with fall := x } c = x :=
  if_pos hx

theorem tickCounter_of_otherClock (s : State) (hdev : s.iface = .device) (hen : s.dev.ctrl.getLsbD 0 = true)
    (hclk : s.dev.ctrl.getLsbD 4 = false) :
    tickCounter s =
      { s with dev := { s.dev with counter := fallFrom s.free s.dev.counter }, free := redrawFall s.free } := by
  simp only [tickCounter, hdev, ctrlEn, hen, ctrlClk1m, hclk, beq_self_eq_true, Bool.and_self, Bool.false_eq_true,
    if_true, if_false, fallFrom, redrawFall]

/-! ## TIME, by the setting of the clock -/

theorem not_due_of_counter_ne_zero (s : State) (h : s.dev.counter ≠ 0#32) : ¬ Due s := by
  rintro ⟨-, -, -, hzero⟩
  exact h hzero

theorem exec_time_of_running (s : State) (hrun : Running s) (hcount : s.dev.counter ≠ 0#32) :
    exec .time s = .next { s with
      dev := { s.dev with counter := s.dev.counter - 1#32 }, blockUs := s.blockUs - 1 } := by
  have ⟨_, hexp, _⟩ := hrun
  rw [exec_time_of_not_due s hexp (not_due_of_counter_ne_zero s hcount), passMicrosecond,
    tickCounter_of_running s hrun hcount]
  rfl

theorem exec_time_of_otherClock (s : State) (hexp : s.dev.expired = none) (hdev : s.iface = .device)
    (hen : s.dev.ctrl.getLsbD 0 = true) (hclk : s.dev.ctrl.getLsbD 4 = false) (hcount : s.dev.counter ≠ 0#32) :
    exec .time s = .next { s with
      dev := { s.dev with counter := fallFrom s.free s.dev.counter }, blockUs := s.blockUs - 1
      free := redrawFall s.free } := by
  rw [exec_time_of_not_due s hexp (not_due_of_counter_ne_zero s hcount), passMicrosecond,
    tickCounter_of_otherClock s hdev hen hclk]
  rfl

theorem exec_time_of_halted (s : State) (hexp : s.dev.expired = none) (hhalt : Halted s) :
    exec .time s = .next { s with blockUs := s.blockUs - 1 } := by
  rw [exec_time_of_not_due s hexp (not_due_of_halted s (.inl hhalt)), passMicrosecond,
    tickCounter_of_halted s (.inl hhalt)]
  rfl

/-- Settles O31: one clause per setting of the clock; with CLK1M = 0 the free value `fall` can be chosen to be any value
in the bound. -/
theorem timeCountsOnlyWhileEnabled : Obligations.TimeCountsOnlyWhileEnabled := by
  unfold Obligations.TimeCountsOnlyWhileEnabled
  intro s hexp
  refine ⟨exec_time_of_running s, ?_, exec_time_of_halted s hexp, ?_⟩
  · intro hdev hen hclk hcount
    constructor
    · exact ⟨_, _, fallFrom_le s.free s.dev.counter, exec_time_of_otherClock s hexp hdev hen hclk hcount⟩
    · intro x hx
      refine ⟨{ s.free with fall := x }, redrawFall { s.free with fall := x }, ?_⟩
      rw [exec_time_of_otherClock { s with free := { s.free with fall := x } } hexp hdev hen hclk hcount]
      simp only [fallFrom_of_le s.free s.dev.counter x hx]
  · intro hdue t
    rw [exec_time_of_due s hdue]
    nofun

end Sys2Proof.Machine
end

section
/-! PROOFS. The exceptions: which calls report the configuration error (60_exceptions R160), and what an expiry records
(R162 to R164). -/

namespace Sys2Proof.Machine

/-! ## The configuration error -/

theorem durationError_eq_some_iff (d : Option Nat) (n : Nat) : durationError d = some n ↔ d = some n ∧ 4095 < n := by
  constructor
  · intro h
    cases d with
    | none => cases h
    | some m =>
      simp only [durationError] at h
      split at h
      · next hlong =>
        injection h with h
        subst h
        exact ⟨rfl, hlong⟩
      · cases h
  · rintro ⟨rfl, hlong⟩
    exact durationError_of_long n hlong

/-- The last call has not been answered with the configuration error. -/
def NoConfigurationError (s : State) : Prop := ∀ n, s.result ≠ some (.configurationError n)

theorem lapse_noConfigurationError (s : State) (h : NoConfigurationError s) : NoConfigurationError (lapse s) := by
  simpa only [NoConfigurationError, lapse_result] using h

theorem settle_noConfigurationError (s : State) (h : NoConfigurationError s) : NoConfigurationError (settle s) := by
  obtain e | e | ⟨-, e⟩ := settle_cases s <;> rw [e]
  · exact h
  · exact nofun
  · exact h

/-- The sequencer answers ok or nothing. -/
theorem controllerStep_noConfigurationError (s t : State) (hs : NoConfigurationError s)
    (h : controllerStep s = .next t) : NoConfigurationError t := by
  obtain ⟨-, rfl⟩ | ⟨op, k, -, rfl⟩ | ⟨op, k, a, l, m, -, ha, rfl⟩ := controllerStep_eq_next s t h
  · exact hs
  · exact nofun
  · obtain ⟨-, -, -, -, -, hresult, -⟩ := act_frame _ _ _ ha
    exact settle_noConfigurationError m fun n => hresult ▸ hs n

theorem call_noConfigurationError {op : OpName} {prog : List Action} {s t : State} (h : call op prog s = .next t) :
    NoConfigurationError t :=
  controllerStep_noConfigurationError _ t (by exact nofun) h

theorem runCall_noConfigurationError {n : Nat} {s t : State} (hs : NoConfigurationError s)
    (h : runCall n s = .next t) : NoConfigurationError t :=
  runCall_keeps NoConfigurationError lapse_noConfigurationError
    (fun s t hs _ h => controllerStep_noConfigurationError s t hs h) n s t hs h

theorem busRead_noConfigurationError {r : Reg} {s t : State} (h : busRead r s = .next t) : NoConfigurationError t := by
  obtain ⟨-, h⟩ := (hostTurn_eq_next _ _ _).1 h
  injection h with h
  subst h
  exact nofun

theorem busWrite_noConfigurationError {r : Reg} {v : Word} {row : Device → Except Refusal Device} {s t : State}
    (h : busWrite r v row s = .next t) : NoConfigurationError t := by
  obtain ⟨-, h⟩ := (hostTurn_eq_next _ _ _).1 h
  obtain ⟨-, d, -, rfl⟩ | ⟨-, rfl⟩ := (rowWrite_eq_next _ _ _ _ _).1 h <;> exact nofun

/-- The first step of a row answers the configuration error only from the two places that validate a duration; an
operation that enters, a raw transaction and a query cannot. -/
theorem begin_configurationError (i : Instr) (s t : State) (n : Nat) (ha : i.level ≠ .agent) (h : begin i s = .next t)
    (hresult : t.result = some (.configurationError n)) :
    (i = .validatePulseDuration (some n) ∨ ∃ cfg, i = .attach cfg ∧ cfg.pulseDurationTicks = some n) ∧
      4095 < n ∧ t = raiseConfigurationError n s := by
  cases i <;> simp only [begin, exec] at h
  case time | expire => exact absurd rfl ha
  case rdStatus | rdReloadValue | rdRestart | rdCtrl | rdResetWidth =>
    exact absurd hresult (busRead_noConfigurationError h n)
  case wrStatus | wrReloadValue | wrRestartMagic | wrRestartOther | wrCtrl | wrResetWidthPushPull
      | wrResetWidthOpenDrain | wrResetWidthActiveHigh | wrResetWidthActiveLow | wrResetWidthOther =>
    exact absurd hresult (busWrite_noConfigurationError h n)
  case start | stop | ping | setTimeout | forceReset | setDriveMode | setPolarity =>
    obtain ⟨-, c, -, h⟩ := (controllerTurn_eq_next _ _ _).1 h
    exact absurd hresult (call_noConfigurationError h n)
  case currentTimeout | maxTimeout =>
    obtain ⟨-, c, -, h⟩ := (controllerTurn_eq_next _ _ _).1 h
    injection h with h
    subst h
    cases hresult
  case configureResetSignal cfg =>
    obtain ⟨-, c, -, h⟩ := (controllerTurn_eq_next _ _ _).1 h
    split at h
    · cases h
    · exact absurd hresult (call_noConfigurationError h n)
  case validatePulseDuration d =>
    obtain ⟨-, c, -, h⟩ := (controllerTurn_eq_next _ _ _).1 h
    split at h
    · next herror =>
      injection h with h
      subst h
      cases hresult
      obtain ⟨rfl, hlong⟩ := (durationError_eq_some_iff _ _).1 herror
      exact ⟨.inl rfl, hlong, rfl⟩
    · injection h with h
      subst h
      cases hresult
  case attach cfg =>
    obtain ⟨-, h⟩ := (hostTurn_eq_next _ _ _).1 h
    split at h
    · cases h
    split at h
    · next herror =>
      injection h with h
      subst h
      cases hresult
      obtain ⟨hticks, hlong⟩ := (durationError_eq_some_iff _ _).1 herror
      exact ⟨.inr ⟨cfg, rfl, hticks⟩, hlong, rfl⟩
    · exact absurd hresult (call_noConfigurationError h n)

theorem exec_attach_of_long (s : State) (cfg : ResolvedConfiguration) (n : Nat) (henter : CallMayEnter s)
    (hctl : s.ctl = none) (hticks : cfg.pulseDurationTicks = some n) (hlong : 4095 < n) :
    exec (.attach cfg) s = .next (raiseConfigurationError n s) := by
  refine (complete_eq_next _ _).2 ⟨raiseConfigurationError n s, ?_, ?_⟩
  · simp [beginAttach, hostTurn_of_enter s _ henter, hctl, hticks, durationError_of_long n hlong]
  · exact runCall_of_not_pending _ _ (by simp [henter.2])

/-- Settles O11: an operation that enters answers ok or nothing however it goes on, so the error comes from the first
step; and a validation that fails ends the call there. -/
theorem onlyLongPulsesRaiseConfigurationError : Obligations.OnlyLongPulsesRaiseConfigurationError := by
  unfold Obligations.OnlyLongPulsesRaiseConfigurationError
  constructor
  · intro s t i n ha h hresult
    obtain ⟨-, ⟨hbegin, -⟩ | ⟨op, prog, c, m, -, hcall, hrun, -⟩⟩ := exec_eq_next i s t ha h
    · exact begin_configurationError i s t n ha hbegin hresult
    · exact absurd hresult (runCall_noConfigurationError (call_noConfigurationError hcall) hrun n)
  · intro s cfg n henter hlong
    constructor
    · intro hctl
      exact (validationAcceptsUpTo4095 s (some n) henter hctl).2 n rfl hlong
    · intro hctl hticks
      exact exec_attach_of_long s cfg n henter hctl hticks hlong

/-! ## What an expiry records -/

/-- With RST or INTR set the record lists the actions, each by its own bit (R162 to R164). -/
theorem expiryActions_of_action (d : Device) (h : d.ctrl.getLsbD 1 = true ∨ d.ctrl.getLsbD 2 = true) :
    expiryActions d =
      .actions (if d.ctrl.getLsbD 1 then some (scopeOf d.ctrl) else none) (d.ctrl.getLsbD 2) (pulseOf d) := by
  have hact : ¬ (!ctrlRst d.ctrl && !ctrlIntr d.ctrl) = true := by
    obtain hrst | hintr := h
    · simp [ctrlRst, hrst]
    · simp [ctrlIntr, hintr]
  rw [expiryActions, if_neg hact]
  rfl

/-- Settles O33: EXPIRE records the actions of R162 to R164; for SCOPE = 11 the model's record names no part. -/
theorem expireRecordsActions : Obligations.ExpireRecordsActions := by
  unfold Obligations.ExpireRecordsActions
  intro s hdue haction
  refine ⟨.notDefined, (takeExpiry s).dev.irqLine, (takeExpiry s).dev.extPulse, ?_⟩
  rw [exec_expire_of_due s hdue, takeExpiry, expiryActions_of_action s.dev haction]
  rfl

end Sys2Proof.Machine
end

section
/-! PROOFS. The packets: the decoder and the encoder are inverse to each other (30_encoding R60, R71, R75), and the
RESET_WIDTH encoding keeps its fields apart (R77). -/

namespace Sys2Proof

/-! ## The write rows -/

/-- Whatever the magic values are, the row a written word decodes to encodes to that write. -/
theorem encode_decodeWrite (p : Config.Params) (v : Word) (r : Reg) :
    encode p (decodeWrite p v r) = encodeWrite r v := by
  have htag (sel : BitVec 8) (h : selField v = sel) :
      encodeTagged sel (zeroField v) (durField v) = encodeWrite .resetWidth v := by
    rw [encodeTagged, ← h, rwwWord_of_fields]
  cases r with
  | status | reloadValue | ctrl => rfl
  | restart =>
    simp only [decodeWrite]
    split
    · next h => rw [h]; rfl
    · rfl
  | resetWidth =>
    simp only [decodeWrite, decodeResetWidth]
    split
    · next h => exact htag _ h
    split
    · next h => exact htag _ h
    split
    · next h => exact htag _ h
    split
    · next h => exact htag _ h
    · rfl

/-- A MAGIC word never lands in an OTHER row. -/
theorem decodeWrite_wellFormed (p : Config.Params) (v : Word) (r : Reg) :
    (decodeWrite p v r).wellFormed p = true := by
  cases r with
  | status | reloadValue | ctrl => rfl
  | restart =>
    simp only [decodeWrite]
    split
    · rfl
    · next h => simpa [Instr.wellFormed, restartWord] using h
  | resetWidth =>
    simp only [decodeWrite, decodeResetWidth]
    split
    · rfl
    split
    · rfl
    split
    · rfl
    split
    · rfl
    · simp_all [Instr.wellFormed, isMagicSelector, selField]

/-- A tagged write decodes to the row its selector names first. -/
theorem decode_encodeTagged (p : Config.Params) (sel : BitVec 8) (zero dur : BitVec 12) :
    decode p (.bus (busWord true .resetWidth (rwwWord sel zero dur))) = .ok (
      if sel = p.pushPullMagic then .wrResetWidthPushPull zero dur
      else if sel = p.openDrainMagic then .wrResetWidthOpenDrain zero dur
      else if sel = p.activeHighMagic then .wrResetWidthActiveHigh zero dur
      else if sel = p.activeLowMagic then .wrResetWidthActiveLow zero dur
      else .wrResetWidthOther (rwwWord sel zero dur)) := by
  obtain ⟨hsel, hzero, hdur⟩ := Machine.rwwWord_fields sel zero dur
  rw [decode_busWord_write, decodeWrite, decodeResetWidth, hsel, hzero, hdur]

/-! ## From an instruction to its packet and back -/

theorem encode_eq_none_iff (p : Config.Params) (i : Instr) : i.level = .agent ↔ encode p i = none := by
  cases i <;> simp [Instr.level, encode, encodeRead, encodeWrite, encodeTagged]

theorem decode_of_encode (p : Config.Params) (i : Instr) (hp : p.Distinct) (hwf : i.wellFormed p = true) (pk : Packet)
    (h : encode p i = some pk) : decode p pk = .ok i := by
  obtain ⟨h1, h2, h3, h4, h5, h6⟩ := hp
  cases i <;> cases h
  case rdStatus | rdReloadValue | rdRestart | rdCtrl | rdResetWidth => exact decode_busWord_read p _ _
  case wrStatus | wrReloadValue | wrCtrl => exact decode_busWord_write p _ _
  case wrRestartMagic => rw [decode_busWord_write, decodeWrite, if_pos rfl]
  case wrRestartOther v =>
    have hv : v ≠ restartWord p := by simpa [Instr.wellFormed, restartWord] using hwf
    rw [decode_busWord_write, decodeWrite, if_neg hv]
  case wrResetWidthPushPull => rw [decode_encodeTagged, if_pos rfl]
  case wrResetWidthOpenDrain => rw [decode_encodeTagged, if_neg h1.symm, if_pos rfl]
  case wrResetWidthActiveHigh => rw [decode_encodeTagged, if_neg h3.symm, if_neg h5.symm, if_pos rfl]
  case wrResetWidthActiveLow => rw [decode_encodeTagged, if_neg h4.symm, if_neg h6.symm, if_neg h2.symm, if_pos rfl]
  case wrResetWidthOther v =>
    have hsel : ((selField v ≠ p.pushPullMagic ∧ selField v ≠ p.openDrainMagic) ∧ selField v ≠ p.activeHighMagic) ∧
        selField v ≠ p.activeLowMagic := by
      simpa [Instr.wellFormed, isMagicSelector, selField] using hwf
    obtain ⟨⟨⟨hpush, hopen⟩, hhigh⟩, hlow⟩ := hsel
    rw [decode_busWord_write, decodeWrite, decodeResetWidth, if_neg hpush, if_neg hopen, if_neg hhigh, if_neg hlow]
  all_goals rfl

/-- Settles O41: a packet is read by its register and selector, and a well-formed OTHER row holds no magic word. -/
theorem decodeInvertsEncode : Obligations.DecodeInvertsEncode := by
  unfold Obligations.DecodeInvertsEncode
  intro p i hp hwf
  exact ⟨encode_eq_none_iff p i, decode_of_encode p i hp hwf⟩

/-! ## From a packet to its instruction and back -/

theorem takeSeconds_eq_ok (op : BitVec 8) (f : Nat → Instr) (arg : Arg) (i : Instr) :
    takeSeconds op f arg = .ok i ↔ ∃ n, arg = .seconds n ∧ i = f n := by
  cases arg <;> simp [takeSeconds, eq_comm]

theorem takeConfig_eq_ok (op : BitVec 8) (f : ResolvedConfiguration → Instr) (arg : Arg) (i : Instr) :
    takeConfig op f arg = .ok i ↔ ∃ c, arg = .config c ∧ i = f c := by
  cases arg <;> simp [takeConfig, eq_comm]

theorem takeFlag_eq_ok (op : BitVec 8) (f : Bool → Instr) (arg : Arg) (i : Instr) :
    takeFlag op f arg = .ok i ↔ ∃ b, arg = .flag b ∧ i = f b := by
  cases arg <;> simp [takeFlag, eq_comm]

theorem takeTicks_eq_ok (op : BitVec 8) (f : Option Nat → Instr) (arg : Arg) (i : Instr) :
    takeTicks op f arg = .ok i ↔ ∃ d, arg = .ticks d ∧ i = f d := by
  cases arg <;> simp [takeTicks, eq_comm]

theorem takeNothing_eq_ok (op : BitVec 8) (j : Instr) (arg : Arg) (i : Instr) :
    takeNothing op j arg = .ok i ↔ arg = .nothing ∧ i = j := by
  cases arg <;> simp [takeNothing, eq_comm]

/-- A call that decodes is the pair its operation encodes to; only configure_reset_signal has a condition on its
argument. -/
theorem encode_of_decodeCmd (p : Config.Params) (op : BitVec 8) (arg : Arg) (i : Instr) (h : decodeCmd op arg = .ok i) :
    encode p i = some (.cmd op arg) ∧ ((∀ cfg, i ≠ .configureResetSignal cfg) → i.wellFormed p = true) := by
  have index (k : Nat) (hk : op.toNat = k) : op = BitVec.ofNat 8 k := by rw [← hk, BitVec.ofNat_toNat, BitVec.setWidth_eq]
  unfold decodeCmd at h
  split at h
  case h_1 hop =>
    obtain ⟨c, rfl, rfl⟩ := (takeConfig_eq_ok _ _ _ _).1 h
    rw [index _ hop]
    exact ⟨rfl, fun _ => rfl⟩
  case h_10 hop =>
    obtain ⟨c, rfl, rfl⟩ := (takeConfig_eq_ok _ _ _ _).1 h
    rw [index _ hop]
    exact ⟨rfl, fun hcfg => absurd rfl (hcfg c)⟩
  case h_2 hop | h_5 hop =>
    obtain ⟨n, rfl, rfl⟩ := (takeSeconds_eq_ok _ _ _ _).1 h
    rw [index _ hop]
    exact ⟨rfl, fun _ => rfl⟩
  case h_3 hop | h_4 hop | h_6 hop | h_7 hop | h_8 hop =>
    obtain ⟨rfl, rfl⟩ := (takeNothing_eq_ok _ _ _ _).1 h
    rw [index _ hop]
    exact ⟨rfl, fun _ => rfl⟩
  case h_9 hop =>
    obtain ⟨d, rfl, rfl⟩ := (takeTicks_eq_ok _ _ _ _).1 h
    rw [index _ hop]
    exact ⟨rfl, fun _ => rfl⟩
  case h_11 hop | h_12 hop =>
    obtain ⟨b, rfl, rfl⟩ := (takeFlag_eq_ok _ _ _ _).1 h
    rw [index _ hop]
    exact ⟨rfl, fun _ => rfl⟩
  case h_13 => cases h

theorem encode_decodeRead (p : Config.Params) (r : Reg) : encode p (decodeRead r) = encodeRead r := by
  cases r <;> rfl

theorem decodeRead_wellFormed (p : Config.Params) (r : Reg) : (decodeRead r).wellFormed p = true := by
  cases r <;> rfl

/-- A packed transaction that decodes names a register, and has no stray bit. -/
theorem decodeBus_eq_ok (p : Config.Params) (w : BitVec 48) (i : Instr) (h : decodeBus p w = .ok i) :
    ∃ r, busWord (busDir w) r (busData w) = w ∧
      i = if busDir w then decodeWrite p (busData w) r else decodeRead r := by
  unfold decodeBus at h
  split at h
  · cases h
  next hstray =>
  split at h
  · cases h
  · next r hr =>
    injection h with h
    exact ⟨r, busWord_of_fields w r (by simpa using hstray) hr, h.symm⟩

/-- The bits above the data of a packed transaction do not depend on the data. -/
theorem busWord_head (dir : Bool) (r : Reg) (v : Word) :
    (busWord dir r v).extractLsb' 32 16 = 0#7 ++ BitVec.ofBool dir ++ regOffset r := by
  rw [busWord]
  exact BitVec.extractLsb'_append_eq_left

/-- Settles O42: a packed transaction is the word of its fields, so its row encodes to it up to a read's data; a call is
the pair of its index and argument. -/
theorem onlyMapWordsDecode : Obligations.OnlyMapWordsDecode := by
  unfold Obligations.OnlyMapWordsDecode
  intro p pk i h
  cases pk with
  | cmd op arg =>
    obtain ⟨henc, hwf⟩ := encode_of_decodeCmd p op arg i h
    exact ⟨⟨_, henc, .inl rfl⟩, hwf⟩
  | bus w =>
    obtain ⟨r, hw, rfl⟩ := decodeBus_eq_ok p w i h
    cases hdir : busDir w with
    | true =>
      rw [hdir] at hw
      exact ⟨⟨_, encode_decodeWrite p _ r, .inl (by rw [hw])⟩, fun _ => decodeWrite_wellFormed p _ r⟩
    | false =>
      have hhead : (busWord false r 0#32).extractLsb' 32 16 = w.extractLsb' 32 16 := by
        rw [← hw, hdir, busWord_head, busWord_head]
      exact ⟨⟨_, encode_decodeRead p r, .inr ⟨w, _, rfl, rfl, hdir, hhead, (busWord_fields false r 0#32).2.2.2⟩⟩,
        fun _ => decodeRead_wellFormed p r⟩

/-- Settles O43. -/
theorem specWordsDecode : Obligations.SpecWordsDecode := by
  unfold Obligations.SpecWordsDecode
  decide

end Sys2Proof

namespace Sys2Proof.Machine

/-! ## The RESET_WIDTH word -/

theorem masked_le (w : Word) : (w &&& durMask).toNat ≤ 4095 := by
  rw [BitVec.toNat_and]
  exact Nat.and_le_right

/-- Settles O46: a duration that fits is its own masked word, and `enc_rw` of a masked word is the word of three fields. -/
theorem resetWidthEncodingRoundTrip : Obligations.ResetWidthEncodingRoundTrip := by
  unfold Obligations.ResetWidthEncodingRoundTrip
  intro dur sel w hdur
  have henc : encRw (word32 dur) sel = rwwWord sel 0#12 (BitVec.ofNat 12 dur) := by
    rw [← word32_masked dur hdur, encRw_of_masked, word32_low]
  obtain ⟨hsel, hzero, hlow⟩ := rwwWord_fields sel 0#12 (BitVec.ofNat 12 dur)
  rw [henc]
  refine ⟨?_, hsel, hzero, masked_le w⟩
  calc (durField (rwwWord sel 0#12 (BitVec.ofNat 12 dur))).toNat
      = (BitVec.ofNat 12 dur).toNat := by rw [hlow]
    _ = dur := by rw [BitVec.toNat_ofNat]; omega

end Sys2Proof.Machine
end

section
/-! PROOFS. Where the machine stops (40_register_interface R97 to R108, 60_exceptions R166, R173, 70_reset_and_hazards
R186), and the steps of the counter agent (43_counter R145, R147). -/

namespace Sys2Proof.Machine

/-! ## Writes without a meaning -/

theorem devTagged_of_ne_zero (zero dur : BitVec 12) (field : Device → Device) (d : Device) (h : zero ≠ 0#12) :
    devTagged zero dur field d = .error .resetWidthZeroField := if_pos h

theorem devWriteCtrl_of_refusal (p : Config.Params) (v : Word) (d : Device) (e : Refusal)
    (h : ctrlRefusal v = some e) : devWriteCtrl p v d = .error e := by
  rw [devWriteCtrl, h]

theorem ctrlRefusal_reserved (v : Word) (h : ctrlReservedBits v ≠ 0#25 ∨ ctrlScope v = 3#2) :
    ctrlRefusal v = some .ctrlReserved := if_pos h

theorem ctrlRefusal_clockSource (v : Word) (hres : ctrlReservedBits v = 0#25) (hscope : ctrlScope v ≠ 3#2)
    (hen : ctrlEn v = true) (hclk : ctrlClk1m v = false) : ctrlRefusal v = some .ctrlClockSource := by
  rw [ctrlRefusal, if_neg (by simp [hres, hscope]), if_pos (by simp [hen, hclk])]

theorem ctrlRefusal_noAction (v : Word) (hres : ctrlReservedBits v = 0#25) (hscope : ctrlScope v ≠ 3#2)
    (hen : ctrlEn v = true) (hclk : ctrlClk1m v = true) (hrst : ctrlRst v = false) (hintr : ctrlIntr v = false) :
    ctrlRefusal v = some .ctrlNoAction := by
  rw [ctrlRefusal, if_neg (by simp [hres, hscope]), if_neg (by simp [hclk]), if_pos (by simp [hen, hrst, hintr])]

/-- Settles O9: each row answers its refusal, a CTRL word the first of R100's requires that it breaks. -/
theorem undefinedWritesRefused : Obligations.UndefinedWritesRefused := by
  unfold Obligations.UndefinedWritesRefused
  intro s v zero dur henter hdev
  have hctrl (e : Refusal) (h : ctrlRefusal v = some e) : exec (.wrCtrl v) s = .refused e :=
    busWrite_of_refused .ctrl v _ s e henter hdev (devWriteCtrl_of_refusal s.par v s.dev e h)
  have htagged (hzero : zero ≠ 0#12) (sel : BitVec 8) (field : Device → Device) :=
    busWrite_of_refused .resetWidth (rwwWord sel zero dur) _ s _ henter hdev
      (devTagged_of_ne_zero zero dur field s.dev hzero)
  exact ⟨busWrite_of_refused .status v _ s _ henter hdev rfl, busWrite_of_refused .restart v _ s _ henter hdev rfl,
    busWrite_of_refused .resetWidth v _ s _ henter hdev rfl,
    fun hzero => ⟨htagged hzero _ _, htagged hzero _ _, htagged hzero _ _, htagged hzero _ _⟩,
    fun h => hctrl _ (ctrlRefusal_reserved v h),
    fun hres hscope hen hclk => hctrl _ (ctrlRefusal_clockSource v hres hscope hen hclk),
    fun hres hscope hen hclk hrst hintr => hctrl _ (ctrlRefusal_noAction v hres hscope hen hclk hrst hintr)⟩

/-! ## Calls that cannot enter -/

/-- Where nothing can enter, every row of the host stops in the same way. -/
theorem exec_of_shut (s : State) (f : Fault) (hshut : ∀ k, hostTurn s k = .fault f) (i : Instr)
    (hlevel : i.level ≠ .agent) : exec i s = .fault f := by
  have hcontroller (k : Controller → State → Answer) : controllerTurn s k = .fault f := hshut _
  have hread (r : Reg) : busRead r s = .fault f := hshut _
  have hwrite (r : Reg) (v : Word) (row : Device → Except Refusal Device) : busWrite r v row s = .fault f := hshut _
  cases i
  case time | expire => exact absurd rfl hlevel
  case attach cfg => exact congrArg complete (hshut _)
  case rdStatus | rdReloadValue | rdRestart | rdCtrl | rdResetWidth => exact hread _
  case start | stop | ping | setTimeout | forceReset | configureResetSignal | setDriveMode | setPolarity =>
    exact congrArg complete (hcontroller _)
  case currentTimeout | maxTimeout | validatePulseDuration =>
    simp only [exec, execCurrentTimeout, execMaxTimeout, execValidatePulseDuration, hcontroller]
  all_goals exact hwrite _ _ _

theorem exec_of_expired (s : State) (h : s.dev.expired ≠ none) (i : Instr) : exec i s = .fault .terminal := by
  by_cases hlevel : i.level = .agent
  · cases i <;> cases hlevel <;> exact if_pos (Option.isSome_iff_ne_none.2 h)
  · exact exec_of_shut s .terminal (fun k => hostTurn_of_expired s k h) i hlevel

theorem step_of_expired (s : State) (h : s.dev.expired ≠ none) : step s = .fault .terminal := by
  rw [step, nextAction, if_pos (Option.isSome_iff_ne_none.2 h)]

/-- Settles O36. -/
theorem terminalStateHasNoStep : Obligations.TerminalStateHasNoStep := by
  unfold Obligations.TerminalStateHasNoStep
  intro s r hexp
  have hsome : s.dev.expired ≠ none := by simp [hexp]
  exact ⟨exec_of_expired s hsome, step_of_expired s hsome⟩

/-- Before attach every operation but attach stops at its door. -/
theorem exec_of_detached (s : State) (i : Instr) (henter : CallMayEnter s) (hctl : s.ctl = none)
    (hlevel : i.level = .cmd) (hattach : ∀ cfg, i ≠ .attach cfg) : exec i s = .fault .notAttached := by
  have hshut (k : Controller → State → Answer) : controllerTurn s k = .fault .notAttached :=
    controllerTurn_of_detached s k henter hctl
  cases i <;> cases hlevel
  case attach cfg => exact absurd rfl (hattach cfg)
  case currentTimeout | maxTimeout | validatePulseDuration =>
    simp only [exec, execCurrentTimeout, execMaxTimeout, execValidatePulseDuration, hshut]
  all_goals exact congrArg complete (hshut _)

/-- Settles O24: each stop is the first test of its operation that fails. -/
theorem callsOutsideTheSpecStop : Obligations.CallsOutsideTheSpecStop := by
  unfold Obligations.CallsOutsideTheSpecStop
  intro s i n cfg henter
  refine ⟨exec_of_detached s i henter, ?_, ?_⟩
  · intro hctl
    simp only [exec, execAttach, beginAttach, hostTurn_of_enter s _ henter, Option.isSome_iff_ne_none.2 hctl, if_true,
      complete_refused]
  · intro hctl hticks hlong
    obtain ⟨c, hc⟩ := Option.ne_none_iff_exists'.1 hctl
    simp only [exec, execConfigureResetSignal, beginConfigureResetSignal, controllerTurn_of_enter s c _ henter hc, hticks,
      durationError_of_long n hlong, complete_refused]

/-! ## TIME and EXPIRE -/

theorem exec_time_eq_next (s t : State) (h : exec .time s = .next t) : t = passMicrosecond s := by
  simp only [exec, execTime] at h
  split at h
  · cases h
  split at h
  · cases h
  · injection h with h
    exact h.symm

theorem exec_expire_eq_next (s t : State) (h : exec .expire s = .next t) : t = takeExpiry s := by
  simp only [exec, execExpire] at h
  split at h
  · cases h
  split at h
  · injection h with h
    exact h.symm
  · cases h

/-- Settles O35: each of the two is enabled by the condition that disables the other. -/
theorem exactlyOneCounterStepEnabled : Obligations.ExactlyOneCounterStepEnabled := by
  unfold Obligations.ExactlyOneCounterStepEnabled
  intro s hexp
  exact ⟨fun hdue => ⟨exec_time_of_due s hdue, _, exec_expire_of_due s hdue⟩,
    fun hdue => ⟨exec_expire_of_not_due s hexp hdue, _, exec_time_of_not_due s hexp hdue⟩⟩

theorem expiryActions_of_no_action (d : Device) (hrst : d.ctrl.getLsbD 1 = false) (hintr : d.ctrl.getLsbD 2 = false) :
    expiryActions d = .unspecified (pulseOf d) :=
  if_pos (by simp only [ctrlRst, ctrlIntr, hrst, hintr, Bool.not_false, Bool.and_self])

/-- Settles O34: the record names no action, and the state is terminal like any other expired one. -/
theorem expiryWithoutActionIsUnspecified : Obligations.ExpiryWithoutActionIsUnspecified := by
  unfold Obligations.ExpiryWithoutActionIsUnspecified
  intro s hdue hrst hintr
  refine ⟨pulseOf s.dev, takeExpiry s, exec_expire_of_due s hdue, ?_, exec_of_expired _ (by simp)⟩
  rw [takeExpiry_dev_expired, expiryActions_of_no_action s.dev hrst hintr]

/-- The pulse output after an expiry: the pulse of R164 when EXT asks for one. -/
theorem takeExpiry_extPulse (s : State) :
    (takeExpiry s).dev.extPulse = if s.dev.ctrl.getLsbD 3
      then some { ticks := s.dev.rwDur, activeHigh := s.dev.rwPol, pushPull := s.dev.rwDrive } else s.dev.extPulse := by
  rw [takeExpiry_dev_extPulse, ctrlExt]
  split
  · next hext => exact if_pos hext
  · rfl

/-- Settles O58: by the frame lemmas of a tick and of the expiry. -/
theorem counterAgentLeavesRegisters : Obligations.CounterAgentLeavesRegisters := by
  unfold Obligations.CounterAgentLeavesRegisters
  rintro s t i (rfl | rfl) h
  · rw [exec_time_eq_next s t h]
    simp [passMicrosecond]
  · rw [exec_expire_eq_next s t h]
    simp only [takeExpiry_extPulse]
    simp [ctrlIntr]

/-! ## Who moves -/

theorem callerWaits_of_waits (s : State) (us : Nat) (h : Waits us s) : callerWaits s = (us != 0) := by
  obtain ⟨k, hseq, rfl⟩ := h
  rw [callerWaits, hseq]

theorem onlyCounter_of_waiting (s : State) (us : Nat) (hus : us ≠ 0) (h : Waits us s) : onlyCounter s = true := by
  simp [onlyCounter, callerWaits_of_waits s us h, hus]

theorem onlyCounter_of_silent (s : State) (hseq : s.seq = .idle) (hinbox : s.inbox = []) : onlyCounter s = true := by
  simp [onlyCounter, hseq, hinbox]

theorem callerWaits_of_todo (s : State) (h : s.seq.todo ≠ []) : callerWaits s = false := by
  unfold callerWaits
  split
  · next hseq => rw [hseq] at h; exact absurd rfl h
  · rfl
  · rfl

theorem onlyCounter_of_busy (s : State) (hseq : s.seq ≠ .idle) (hwait : callerWaits s = false) :
    onlyCounter s = false := by
  simp [onlyCounter, hwait, hseq]

theorem onlyCounter_of_called (s : State) (hseq : s.seq = .idle) (hinbox : s.inbox ≠ []) : onlyCounter s = false := by
  simp [onlyCounter, callerWaits, hseq, hinbox]

/-- A turn of the counter agent as the instruction that is enabled. -/
theorem counterTurn_as_exec (s : State) (hexp : s.dev.expired = none) :
    (Due s → .next (counterTurn s) = exec .expire s) ∧ (¬ Due s → .next (counterTurn s) = exec .time s) := by
  rw [← exec_counterInstr s hexp]
  exact ⟨fun hdue => by rw [counterInstr_of_due s hdue], fun hdue => by rw [counterInstr_of_not_due s hdue]⟩

/-- Settles O50: the premises say when only the counter agent can move, and when somebody else could. -/
theorem stepRunsCounterAgent : Obligations.StepRunsCounterAgent := by
  unfold Obligations.StepRunsCounterAgent
  intro s hexp
  constructor
  · intro hwho
    have honly : onlyCounter s = true := by
      obtain ⟨hseq, hinbox⟩ | ⟨us, hus, hwaits⟩ := hwho
      · exact onlyCounter_of_silent s hseq hinbox
      · exact onlyCounter_of_waiting s us hus hwaits
    rw [step_of_onlyCounter s hexp honly]
    exact counterTurn_as_exec s hexp
  · intro ms hwho hmoves
    have hother : onlyCounter s = false := by
      obtain ⟨hseq, hinbox⟩ | htodo | hwaits := hwho
      · exact onlyCounter_of_called s hseq hinbox
      · exact onlyCounter_of_busy s (fun hseq => htodo (by rw [hseq]; rfl)) (callerWaits_of_todo s htodo)
      · obtain ⟨k, hseq, -⟩ := id hwaits
        exact onlyCounter_of_busy s (by simp [hseq]) (callerWaits_of_waits s 0 hwaits)
    rw [step_of_counterFirst s ms hexp hother hmoves, ← counterTurn_moves_comm]
    exact counterTurn_as_exec { s with moves := ms } hexp

/-- The return from the wait, when the schedule lets the controller move. -/
theorem step_of_return (s : State) (k : Nat) (hexp : s.dev.expired = none) (hseq : s.seq = .running .forceReset k [])
    (hblock : s.blockUs = 0) (hmoves : counterFirst s.moves = false) :
    step s = .next { s with seq := .idle, result := some .ok, moves := afterIssuer s.moves } := by
  have hwait : callerWaits s = false := callerWaits_of_waits s 0 ⟨k, hseq, hblock⟩
  rw [step_of_proceed s hexp (by simp [hseq]) hwait hmoves, controllerStep_nil _ .forceReset k (by exact hseq)]

/-- Settles O32: while microseconds are left only the counter agent moves; then the return is the controller's step. -/
theorem forceResetReturnsAfterItsWait : Obligations.ForceResetReturnsAfterItsWait := by
  unfold Obligations.ForceResetReturnsAfterItsWait
  intro s k hexp hseq
  refine ⟨?_, ?_, ?_⟩
  · intro hblock t ht
    rw [step_of_onlyCounter s hexp (onlyCounter_of_waiting s s.blockUs hblock ⟨k, hseq, rfl⟩)] at ht
    injection ht with ht
    subst ht
    exact ⟨counterTurn_seq s, counterTurn_result s⟩
  · intro hblock hmoves
    rw [step_of_return s k hexp hseq hblock (by rw [hmoves]; rfl)]
    simp only [hmoves, afterIssuer]
  · intro ms hblock hmoves
    rw [step_of_return s k hexp hseq hblock (by rw [hmoves]; rfl)]
    simp only [hmoves, afterIssuer]

/-- A step of the controller leaves the host's packets. -/
theorem controllerStep_inbox (s t : State) (h : controllerStep s = .next t) : t.inbox = s.inbox := by
  obtain ⟨-, rfl⟩ | ⟨op, k, -, rfl⟩ | ⟨op, k, a, l, m, -, ha, rfl⟩ := controllerStep_eq_next s t h
  · rfl
  · rfl
  · obtain ⟨-, -, hinbox, -⟩ := act_frame _ _ _ ha
    rw [settle_inbox, hinbox]

/-- Settles O37: a packet enters only with no operation running. -/
theorem blockedCallerHoldsUpTheHost : Obligations.BlockedCallerHoldsUpTheHost := by
  unfold Obligations.BlockedCallerHoldsUpTheHost
  intro s hexp hseq
  refine ⟨exec_of_shut s _ fun k => hostTurn_of_blocked s k hexp hseq, ?_, ?_⟩
  · intro t ht
    obtain ⟨-, mv, rfl | ⟨-, -, hc⟩ | ⟨hidle, -⟩⟩ := step_cases s t ht
    · exact counterTurn_inbox _
    · exact controllerStep_inbox { s with moves := mv } t hc
    · exact absurd hidle hseq
  · rintro us ⟨k, hk, hblock⟩
    by_cases hus : us = 0
    swap
    · exact ⟨_, step_of_onlyCounter s hexp (onlyCounter_of_waiting s us hus ⟨k, hk, hblock⟩)⟩
    have hwait : callerWaits s = false := callerWaits_of_waits s 0 ⟨k, hk, hblock.trans hus⟩
    cases hmoves : s.moves with
    | cons m ms =>
      cases m with
      | counter => exact ⟨_, step_of_counterFirst s ms hexp (onlyCounter_of_busy s hseq hwait) hmoves⟩
      | issuer => exact ⟨_, step_of_return s k hexp hk (hblock.trans hus) (by rw [hmoves]; rfl)⟩
    | nil => exact ⟨_, step_of_return s k hexp hk (hblock.trans hus) (by rw [hmoves]; rfl)⟩

/-! ## The row a step begins -/

/-- A register transaction, a query and the validation are one step. -/
theorem begin_eq_exec (i : Instr) (s : State)
    (hi : i.level = .bus ∨ i = .currentTimeout ∨ i = .maxTimeout ∨ ∃ d, i = .validatePulseDuration d) :
    begin i s = exec i s := by
  obtain hbus | rfl | rfl | ⟨d, rfl⟩ := hi
  · cases i <;> cases hbus <;> rfl
  all_goals rfl

theorem decodeTableWord_eq_some (nbits w : Nat) (i : Instr) (h : decodeTableWord nbits w = some i) :
    ∃ pk, packetOf nbits w = some pk ∧ decode Config.Params.known pk = .ok i := by
  unfold decodeTableWord at h
  split at h
  · cases h
  next pk hpk =>
  split at h
  · next j hj =>
    injection h with h
    exact ⟨pk, hpk, h ▸ hj⟩
  · cases h

/-- Settles O47: the packet enters with the issuer's turn used up; a presented table word is such a packet. -/
theorem stepRunsDecodedInstruction : Obligations.StepRunsDecodedInstruction := by
  unfold Obligations.StepRunsDecodedInstruction
  intro s i henter
  refine ⟨?_, begin_eq_exec i s, ?_⟩
  · intro pk rest hinbox hdecode
    constructor
    · intro hmoves
      rw [step_of_issue s pk rest i henter hinbox (by rw [hmoves]; rfl) hdecode]
      simp only [hmoves, afterIssuer]
    · intro ms hmoves
      rw [step_of_issue s pk rest i henter hinbox (by rw [hmoves]; rfl) hdecode]
      simp only [hmoves, afterIssuer]
  · intro nbits w hpar hword
    obtain ⟨pk, hpk, hdecode⟩ := decodeTableWord_eq_some nbits w i hword
    rw [State.withFetchWord, hpk]
    exact step_of_issue (present pk s) pk s.inbox i henter rfl rfl (by rw [present_par, hpar]; exact hdecode)

end Sys2Proof.Machine
end

section
/-! PROOFS. What every step keeps: the invariant of the machine (10_state R17, R23, R25, 41_controller R122), a CTRL word
the spec defines (40_register_interface R100), the parameters and the interface, and the trace but for one entry
(20_memory R54). -/

namespace Sys2Proof.Machine

/-! ## The device under one transaction -/

/-- No write expires the watchdog or moves an output, and a defined CTRL word is followed by a defined one. -/
def OutputsKept (d e : Device) : Prop :=
  e.expired = d.expired ∧ e.irqLine = d.irqLine ∧ e.extPulse = d.extPulse ∧ (CtrlDefined d.ctrl → CtrlDefined e.ctrl)

theorem OutputsKept.refl (d : Device) : OutputsKept d d := ⟨rfl, rfl, rfl, id⟩

theorem OutputsKept.ctrlDefined {d e : Device} (h : OutputsKept d e) (hd : CtrlDefined d.ctrl) : CtrlDefined e.ctrl := by
  obtain ⟨-, -, -, hdef⟩ := h
  exact hdef hd

theorem WriteFrame.outputsKept {r : Reg} {v : Word} {d e : Device} (h : WriteFrame r v d e) : OutputsKept d e := by
  obtain ⟨hexp, hirq, hpulse, hdef, -⟩ := h
  exact ⟨hexp, hirq, hpulse, hdef⟩

theorem act_outputsKept (a : Action) (s t : State) (h : act a s = .next t) : OutputsKept s.dev t.dev := by
  obtain ⟨hdev, -⟩ | ⟨-, r, v, hwrite, -⟩ := act_dev a s t h
  · rw [hdev]
    exact .refl _
  · exact (deviceWrite_frame _ _ _ _ _ hwrite).outputsKept

/-- A write of a row, seen from the device: nothing, or what the row allows. -/
theorem rowWrite_dev {r : Reg} {v : Word} {row : Device → Except Refusal Device} {s t : State}
    (hrow : ∀ d e, row d = .ok e → WriteFrame r v d e) (h : rowWrite r v row s = .next t) :
    t.dev = s.dev ∨ WriteFrame r v s.dev t.dev := by
  obtain ⟨-, d, hd, rfl⟩ | ⟨-, rfl⟩ := (rowWrite_eq_next _ _ _ _ _).1 h
  · exact .inr (hrow _ _ hd)
  · exact .inl rfl

/-- What a write of a row leaves of the rest of the state. -/
theorem rowWrite_frame {r : Reg} {v : Word} {row : Device → Except Refusal Device} {s t : State}
    (h : rowWrite r v row s = .next t) :
    t.par = s.par ∧ t.iface = s.iface ∧ t.ctl = s.ctl ∧ t.seq = advance s.seq ∧ t.blockUs = s.blockUs ∧
      t.trace = s.trace ++ [.write r v] := by
  obtain ⟨-, d, -, rfl⟩ | ⟨-, rfl⟩ := (rowWrite_eq_next _ _ _ _ _).1 h <;> simp

/-! ## One step of the controller -/

/-- What a step of the controller leaves alone, and that it changes the controller record by setting EN at most. -/
theorem controllerStep_frame (s t : State) (h : controllerStep s = .next t) :
    t.par = s.par ∧ t.iface = s.iface ∧ (t.ctl = s.ctl ∨ t.ctl = s.ctl.map Controller.enable) ∧
      OutputsKept s.dev t.dev := by
  obtain ⟨-, rfl⟩ | ⟨op, k, -, rfl⟩ | ⟨op, k, a, l, m, -, ha, rfl⟩ := controllerStep_eq_next s t h
  · exact ⟨rfl, rfl, .inl rfl, .refl _⟩
  · exact ⟨rfl, rfl, .inl rfl, .refl _⟩
  · obtain ⟨hpar, hiface, -, -, -, -, -, hctl⟩ := act_frame _ _ _ ha
    rw [settle_par, settle_iface, settle_ctl, settle_dev, hctl]
    have hdev := act_outputsKept _ _ _ ha
    refine ⟨hpar, hiface, ?_, hdev⟩
    by_cases hdis : a = .disable
    · rw [if_pos hdis]
      exact .inr rfl
    · rw [if_neg hdis]
      exact .inl rfl

theorem controllerStep_outputsKept (s t : State) (h : controllerStep s = .next t) : OutputsKept s.dev t.dev := by
  obtain ⟨-, -, -, hdev⟩ := controllerStep_frame s t h
  exact hdev

theorem controllerStep_expired (s t : State) (h : controllerStep s = .next t) : t.dev.expired = s.dev.expired := by
  obtain ⟨hexp, -⟩ := controllerStep_outputsKept s t h
  exact hexp

/-- A transaction inside an operation leaves the operation in progress, one transaction further. -/
theorem act_running (a : Action) (s t : State) (op : OpName) (k : Nat) (l : List Action)
    (hseq : s.seq = .running op k l) (h : act a s = .next t) : ∃ l', t.seq = .running op (k + 1) l' := by
  obtain hadv | ⟨n, -, -, hpush⟩ := act_seq a s t h
  · exact ⟨l, by rw [hadv, hseq, advance_running]⟩
  · exact ⟨_, by rw [hpush, hseq, advance_running, push_running]⟩

theorem seqLegal_mono {q : Seq} {us us' : Nat} (hle : us' ≤ us) (h : SeqLegal q us) : SeqLegal q us' := by
  unfold SeqLegal at h ⊢
  split at h
  · omega
  · omega
  · exact ⟨h.1, hle.trans h.2⟩

/-- With transactions still to make nobody waits. -/
theorem seqLegal_cons {op : OpName} {k us : Nat} {a : Action} {l : List Action} :
    SeqLegal (.running op k (a :: l)) us ↔ us = 0 := Iff.rfl

theorem settle_seqLegal (s : State) (op : OpName) (k : Nat) (l : List Action) (hseq : s.seq = .running op k l)
    (hblock : s.blockUs = 0) : SeqLegal (settle s).seq (settle s).blockUs := by
  cases l with
  | cons a l =>
    rw [settle_of_pending s (by rw [hseq]; rfl), hseq]
    exact hblock
  | nil =>
    by_cases hop : op = .forceReset
    · subst hop
      rw [settle_forceReset s k hseq]
      show SeqLegal s.seq 1000000
      rw [hseq]
      exact ⟨rfl, le_rfl⟩
    · rw [settle_last s op k hseq hop]
      exact hblock

theorem controllerStep_seqLegal (s t : State) (hs : SeqLegal s.seq s.blockUs) (hwait : callerWaits s = false)
    (h : controllerStep s = .next t) : SeqLegal t.seq t.blockUs := by
  obtain ⟨-, rfl⟩ | ⟨op, k, hseq, rfl⟩ | ⟨op, k, a, l, m, hseq, ha, rfl⟩ := controllerStep_eq_next s t h
  · exact hs
  · show s.blockUs = 0
    simpa [callerWaits, hseq] using hwait
  · rw [hseq] at hs
    obtain ⟨-, -, -, -, hblock, -⟩ := act_frame _ _ _ ha
    obtain ⟨l', hm⟩ := act_running _ _ _ op k l rfl ha
    exact settle_seqLegal m op (k + 1) l' hm (hblock.trans (seqLegal_cons.1 hs))

/-! ## The invariant -/

theorem sound_enable (c : Controller) (h : c.Sound) : c.enable.Sound := ⟨mirrorWords_or_en _ h.1, h.2⟩

theorem sound_disable (c : Controller) (h : c.Sound) : c.disable.Sound := ⟨mirrorWords_and_not_en _ h.1, h.2⟩

/-- Every operation enters with a controller as the operations leave it. -/
theorem Enters.sound {s : State} {i : Instr} {op : OpName} {prog : List Action} {c : Controller}
    (h : Enters s i op prog c) (hs : ∀ c, s.ctl = some c → c.Sound) : c.Sound := by
  cases h with
  | attach cfg => exact ⟨encCtrlFlags_mem cfg, rfl⟩
  | start c ts hc | setTimeout c ts hc => exact hs c hc
  | stop c hc => exact sound_disable c (hs c hc)
  | forceReset c hc | ping c hc => exact hs _ hc
  | configureResetSignal c cfg hc => exact hs _ hc
  | setDriveMode c b hc | setPolarity c b hc => exact hs _ hc

theorem legal_counterTurn (s : State) (h : Legal s) : Legal (counterTurn s) := by
  obtain ⟨hpar, hsound, hattached, hseq, hout⟩ := h
  refine ⟨by rwa [counterTurn_par], by rwa [counterTurn_ctl], by rwa [counterTurn_seq, counterTurn_ctl], ?_, ?_⟩
  · intro hexp
    rw [counterTurn_seq]
    exact seqLegal_mono (counterTurn_blockUs_le s) (hseq (counterTurn_outputs s hexp).1)
  · intro hexp
    obtain ⟨hexp', hirq, hpulse⟩ := counterTurn_outputs s hexp
    rw [hirq, hpulse]
    exact hout hexp'

theorem legal_controllerStep (s t : State) (hs : Legal s) (hexp : s.dev.expired = none)
    (hwait : callerWaits s = false) (h : controllerStep s = .next t) : Legal t := by
  obtain ⟨hpar, hsound, hattached, hseq, hout⟩ := hs
  obtain ⟨hpar', -, hctl, -, hirq, hpulse, -⟩ := controllerStep_frame s t h
  refine ⟨by rwa [hpar'], ?_, ?_, fun _ => controllerStep_seqLegal s t (hseq hexp) hwait h,
    fun _ => by rw [hirq, hpulse]; exact hout hexp⟩
  · intro c hc
    obtain e | e := hctl <;> rw [e] at hc
    · exact hsound c hc
    · obtain ⟨c', hc', rfl⟩ := Option.map_eq_some_iff.1 hc
      exact sound_enable c' (hsound c' hc')
  · intro hrunning
    have hsome : s.ctl ≠ none := hattached fun hidle => by
      rw [controllerStep, hidle] at h
      injection h with h
      exact hrunning (h ▸ hidle)
    obtain e | e := hctl <;> rw [e]
    · exact hsome
    · simpa using hsome

/-- An operation that enters is in the invariant before its first transaction. -/
theorem legal_entered {s : State} {i : Instr} {op : OpName} {prog : List Action} {c : Controller} (hs : Legal s)
    (hexp : s.dev.expired = none) (hidle : s.seq = .idle) (h : Enters s i op prog c) :
    Legal { s with ctl := some c, seq := .running op 0 prog, result := none } := by
  obtain ⟨hpar, hsound, -, hseq, hout⟩ := hs
  obtain ⟨a, l, rfl⟩ := List.exists_cons_of_ne_nil h.prog_ne_nil
  refine ⟨hpar, ?_, fun _ => by simp, fun _ => ?_, hout⟩
  · rintro _ ⟨⟩
    exact h.sound hsound
  · have := hseq hexp
    rwa [hidle] at this

theorem legal_begin (i : Instr) (s t : State) (hi : i.level ≠ .agent) (hs : Legal s) (h : begin i s = .next t) :
    Legal t := by
  obtain ⟨⟨hexp, hidle⟩, ⟨-, r, rfl⟩ | ⟨-, r, rfl⟩ | ⟨-, r, v, row, hwrite, hrow, -⟩ |
    ⟨-, op, prog, c, henters, hcall⟩⟩ := begin_eq_next i s t hi h
  · exact hs
  · obtain ⟨hpar, hsound, -, hseq, hout⟩ := hs
    refine ⟨hpar, hsound, fun hne => absurd ?_ hne, fun he => ?_, hout⟩
    · simp [hidle]
    · have := hseq he
      simpa [hidle] using this
  · obtain ⟨hpar, -, hctl, hseq, hblock, -⟩ := rowWrite_frame hwrite
    obtain ⟨hpar₀, hsound₀, -, hseq₀, hout₀⟩ := hs
    have hadv : t.seq = .idle := by rw [hseq]; exact congrArg advance hidle
    obtain ⟨hexp', hirq, hpulse, -⟩ : OutputsKept s.dev t.dev := by
      obtain e | e := rowWrite_dev hrow hwrite
      · rw [e]; exact .refl _
      · exact e.outputsKept
    refine ⟨by rwa [hpar], by rwa [hctl], fun hne => absurd hadv hne, fun _ => ?_, fun _ => ?_⟩
    · rw [hadv, hblock]
      have := hseq₀ hexp
      rwa [hidle] at this
    · rw [hirq, hpulse]
      exact hout₀ hexp
  · obtain ⟨a, l, rfl⟩ := List.exists_cons_of_ne_nil henters.prog_ne_nil
    exact legal_controllerStep _ t (legal_entered hs hexp hidle henters) hexp rfl hcall

/-- A row's first step moves no output, and keeps a defined CTRL word defined. -/
theorem begin_outputsKept (i : Instr) (s t : State) (hi : i.level ≠ .agent) (h : begin i s = .next t) :
    OutputsKept s.dev t.dev := by
  obtain ⟨-, ⟨-, r, rfl⟩ | ⟨-, r, rfl⟩ | ⟨-, r, v, row, hwrite, hrow, -⟩ | ⟨-, op, prog, c, -, hcall⟩⟩ :=
    begin_eq_next i s t hi h
  · exact .refl _
  · exact .refl _
  · obtain e | e := rowWrite_dev hrow hwrite
    · rw [e]; exact .refl _
    · exact e.outputsKept
  · exact controllerStep_outputsKept { s with ctl := some c, seq := .running op 0 prog, result := none } t hcall

/-- Settles O51: each kind of step keeps the invariant, and a CTRL word comes from a write the device accepts. -/
theorem stepKeepsInvariant : Obligations.StepKeepsInvariant := by
  unfold Obligations.StepKeepsInvariant
  constructor
  · intro s t hs h
    obtain ⟨hexp, mv, rfl | ⟨-, hwait, hc⟩ | ⟨-, pk, rest, i, -, hdecode, hbegin⟩⟩ := step_cases s t h
    · exact legal_counterTurn _ (by exact hs)
    · exact legal_controllerStep { s with moves := mv } t hs hexp hwait hc
    · exact legal_begin i _ t (decode_level _ _ _ hdecode) (by exact hs) hbegin
  · intro s t hs h
    obtain ⟨-, mv, rfl | ⟨-, -, hc⟩ | ⟨-, pk, rest, i, -, hdecode, hbegin⟩⟩ := step_cases s t h
    · rwa [counterTurn_dev_ctrl]
    · exact (controllerStep_outputsKept _ t hc).ctrlDefined hs
    · exact (begin_outputsKept i _ t (decode_level _ _ _ hdecode) hbegin).ctrlDefined hs

/-- Settles O52. -/
theorem resetMeetsInvariant : Obligations.ResetMeetsInvariant := by
  unfold Obligations.ResetMeetsInvariant
  refine ⟨⟨by decide, nofun, fun h => absurd rfl h, fun _ => rfl, fun _ => ⟨rfl, rfl⟩⟩, ctrlDefined_zero⟩

/-! ## The trace -/

/-- At most one entry more in the trace, and neither the parameters nor the interface changed. -/
def AtMostOneTransaction (s t : State) : Prop :=
  (∃ l, l.length ≤ 1 ∧ t.trace = s.trace ++ l) ∧ t.par = s.par ∧ t.iface = s.iface

theorem controllerStep_atMostOne (s t : State) (h : controllerStep s = .next t) : AtMostOneTransaction s t := by
  obtain ⟨hpar, hiface, -⟩ := controllerStep_frame s t h
  refine ⟨?_, hpar, hiface⟩
  obtain ⟨-, rfl⟩ | ⟨op, k, -, rfl⟩ | ⟨op, k, a, l, m, -, ha, rfl⟩ := controllerStep_eq_next s t h
  · exact ⟨[], by simp⟩
  · exact ⟨[], by simp⟩
  · obtain ⟨-, -, -, -, -, -, ⟨e, he⟩, -⟩ := act_frame _ _ _ ha
    exact ⟨[e], le_rfl, by rw [settle_trace, he]⟩

theorem begin_atMostOne (i : Instr) (s t : State) (hi : i.level ≠ .agent) (h : begin i s = .next t) :
    AtMostOneTransaction s t := by
  obtain ⟨-, ⟨-, r, rfl⟩ | ⟨-, r, rfl⟩ | ⟨-, r, v, row, hwrite, -⟩ | ⟨-, op, prog, c, -, hcall⟩⟩ :=
    begin_eq_next i s t hi h
  · exact ⟨⟨[], by simp⟩, rfl, rfl⟩
  · exact ⟨⟨_, le_rfl, rfl⟩, rfl, rfl⟩
  · obtain ⟨hpar, hiface, -, -, -, htrace⟩ := rowWrite_frame hwrite
    exact ⟨⟨_, le_rfl, htrace⟩, hpar, hiface⟩
  · exact controllerStep_atMostOne { s with ctl := some c, seq := .running op 0 prog, result := none } t hcall

/-- With transactions to make, a step of the controller makes exactly one. -/
theorem controllerStep_makes_one (s t : State) (op : OpName) (k : Nat) (a : Action) (l : List Action)
    (hseq : s.seq = .running op k (a :: l)) (h : controllerStep s = .next t) :
    ∃ e, t.trace = s.trace ++ [e] ∧ (t.seq = .idle ∨ ∃ l', t.seq = .running op (k + 1) l') := by
  rw [controllerStep_cons s op k a l hseq] at h
  obtain ⟨m, ha, rfl⟩ := (settled_eq_next _ _).1 h
  obtain ⟨-, -, -, -, -, -, ⟨e, he⟩, -⟩ := act_frame _ _ _ ha
  obtain ⟨l', hm⟩ := act_running _ _ _ op k l rfl ha
  refine ⟨e, by rw [settle_trace, he], ?_⟩
  obtain hsame | hback | ⟨-, hblocks⟩ := settle_cases m
  · exact .inr ⟨l', by rw [hsame, hm]⟩
  · exact .inl (by rw [hback])
  · exact .inr ⟨l', by rw [hblocks]; exact hm⟩

/-- Settles O53: a turn of the counter agent makes no entry, a step of the controller or a row at most one. -/
theorem stepMakesAtMostOneTransaction : Obligations.StepMakesAtMostOneTransaction := by
  unfold Obligations.StepMakesAtMostOneTransaction
  intro s t h
  obtain ⟨-, mv, rfl | ⟨-, -, hc⟩ | ⟨hidle, pk, rest, i, -, hdecode, hbegin⟩⟩ := step_cases s t h
  · exact ⟨⟨[], by simp⟩, counterTurn_par _, counterTurn_iface _,
      fun _ _ _ _ _ => .inl ⟨counterTurn_trace _, counterTurn_seq _⟩⟩
  · obtain ⟨htrace, hpar, hiface⟩ := controllerStep_atMostOne { s with moves := mv } t hc
    exact ⟨htrace, hpar, hiface, fun op k a l hseq =>
      .inr (controllerStep_makes_one { s with moves := mv } t op k a l hseq hc)⟩
  · obtain ⟨htrace, hpar, hiface⟩ := begin_atMostOne i _ t (decode_level _ _ _ hdecode) hbegin
    exact ⟨htrace, hpar, hiface, fun op k a l hseq => by rw [hidle] at hseq; cases hseq⟩

end Sys2Proof.Machine
end

section
/-! PROOFS. The controller record and the mirror: what the operations leave it in (41_controller R119, R122), and that no
operation leaves mirror and hardware CTRL divergent (10_state R19). -/

namespace Sys2Proof.Machine

/-! ## Running an operation -/

/-- An operation of the controller that answers a next state has made its first transaction, and then the others. -/
theorem operation_eq_next {op : OpName} {prog : List Action} {s t : State} (k : Controller → State → State)
    (h : complete (controllerTurn s fun c s => call op prog (k c s)) = .next t) :
    ∃ c m, s.ctl = some c ∧ call op prog (k c s) = .next m ∧ runCall maxTransactions m = .next t := by
  obtain ⟨m, hm, hrun⟩ := (complete_eq_next _ _).1 h
  obtain ⟨-, c, hc, hcall⟩ := (controllerTurn_eq_next _ _ _).1 hm
  exact ⟨c, m, hc, hcall, hrun⟩

/-- A call makes the first transaction of its sequence. -/
theorem call_cons (op : OpName) (a : Action) (l : List Action) (s : State) :
    call op (a :: l) s = settled (act a { s with seq := .running op 0 l, result := none }) := rfl

/-- The counter agent's instruction, if it answers, is the agent's turn. -/
theorem exec_agent_eq_next (i : Instr) (s t : State) (hi : i.level = .agent) (h : exec i s = .next t) :
    t = counterTurn s := by
  have hexp : s.dev.expired = none := by
    by_contra hsome
    rw [exec_of_expired s hsome] at h
    cases h
  by_cases hdue : Due s
  · cases i <;> cases hi
    · rw [exec_time_of_due s hdue] at h
      cases h
    · rw [exec_expire_eq_next s t h, counterTurn_of_due s hdue]
  · cases i <;> cases hi
    · rw [exec_time_eq_next s t h, counterTurn_of_not_due s hdue]
    · rw [exec_expire_of_not_due s hexp hdue] at h
      cases h

/-! ## Sequences that leave the controller record -/

/-- No transaction of the sequence sets EN in the mirror, or may put one before the rest that does. -/
def KeepsController (l : List Action) : Prop := ∀ a ∈ l, a ≠ .disable ∧ ∀ n, a ≠ .takeOver n

theorem controllerStep_ctl_of_keeps (s t : State) (hs : KeepsController s.seq.todo) (h : controllerStep s = .next t) :
    t.ctl = s.ctl ∧ KeepsController t.seq.todo := by
  obtain ⟨-, rfl⟩ | ⟨op, k, -, rfl⟩ | ⟨op, k, a, l, m, hseq, ha, rfl⟩ := controllerStep_eq_next s t h
  · exact ⟨rfl, hs⟩
  · exact ⟨rfl, nofun⟩
  · rw [hseq, todo_running, KeepsController, List.forall_mem_cons] at hs
    obtain ⟨⟨hdis, htake⟩, hl⟩ := hs
    obtain ⟨-, -, -, -, -, -, -, hctl⟩ := act_frame _ _ _ ha
    rw [if_neg hdis] at hctl
    obtain hadv | ⟨n, rfl, -⟩ := act_seq _ _ _ ha
    · rw [settle_ctl, settle_todo, hctl, hadv]
      exact ⟨rfl, hl⟩
    · exact absurd rfl (htake n)

theorem operation_ctl_of_keeps {op : OpName} {prog : List Action} {n : Nat} {s m t : State} (hp : KeepsController prog)
    (hcall : call op prog s = .next m) (hrun : runCall n m = .next t) : t.ctl = s.ctl := by
  have hm := controllerStep_ctl_of_keeps { s with seq := .running op 0 prog, result := none } m hp hcall
  refine (runCall_keeps (fun u => u.ctl = s.ctl ∧ KeepsController u.seq.todo) ?_ ?_ n m t hm hrun).1
  · intro u hu
    rwa [lapse_ctl, lapse_seq]
  · rintro u v ⟨hctl, hkeeps⟩ - hc
    obtain ⟨hctl', hkeeps'⟩ := controllerStep_ctl_of_keeps u v hkeeps hc
    exact ⟨hctl'.trans hctl, hkeeps'⟩

theorem keepsController_configure (cfg : ResolvedConfiguration) : KeepsController (configureProgram cfg) := by
  simp [KeepsController, configureProgram]

/-- Settles O55: every other operation makes a sequence that leaves the controller record. -/
theorem onlyFourOperationsWriteTheMirror : Obligations.OnlyFourOperationsWriteTheMirror := by
  unfold Obligations.OnlyFourOperationsWriteTheMirror
  intro i s t h hattach hstart hstop hforce
  by_cases hi : i.level = .agent
  · rw [exec_agent_eq_next i s t hi h, counterTurn_ctl]
  obtain ⟨-, ⟨-, ⟨r, rfl⟩ | ⟨r, rfl⟩ | ⟨r, v, row, hwrite, -⟩⟩ | ⟨op, prog, c, m, henters, hcall, hrun, -⟩⟩ :=
    exec_eq_next i s t hi h
  · rfl
  · rfl
  · obtain ⟨-, -, hctl, -⟩ := rowWrite_frame hwrite
    rw [hctl]
  · cases henters with
    | attach cfg => exact absurd rfl (hattach cfg)
    | start c ts => exact absurd rfl (hstart ts)
    | stop => exact absurd rfl hstop
    | forceReset => exact absurd rfl hforce
    | ping _ hc | setDriveMode _ b hc | setPolarity _ b hc | setTimeout c ts hc =>
      have ht := operation_ctl_of_keeps (by simp [KeepsController]) hcall hrun
      simp only [ht, hc, Option.map_some]
    | configureResetSignal _ cfg hc =>
      have ht := operation_ctl_of_keeps (keepsController_configure cfg) hcall hrun
      simp only [ht, hc, Option.map_some]

/-! ## Armed and Disarmed -/

theorem enable_en (c : Controller) : c.enable.ctrl.getLsbD 0 = true := by simp

theorem disable_en (c : Controller) : c.disable.ctrl.getLsbD 0 = false := by simp

theorem controllerStep_armed (s t : State) (hs : Armed s) (h : controllerStep s = .next t) : Armed t := by
  obtain ⟨c, hc, hen⟩ := hs
  obtain ⟨-, -, e | e, -⟩ := controllerStep_frame s t h
  · exact ⟨c, e.trans hc, hen⟩
  · exact ⟨c.enable, by rw [e, hc]; rfl, enable_en c⟩

/-- The first transaction of the arm sequence sets EN in the mirror, and nothing after it clears it. -/
theorem operation_armed {op : OpName} {count : Word} {n : Nat} {s m t : State} (hctl : s.ctl ≠ none)
    (hcall : call op (armProgram count) s = .next m) (hrun : runCall n m = .next t) : Armed t := by
  have hm : Armed m := by
    rw [armProgram, call_cons] at hcall
    obtain ⟨u, hact, rfl⟩ := (settled_eq_next _ _).1 hcall
    obtain ⟨-, -, -, -, -, -, -, hu⟩ := act_frame _ _ _ hact
    obtain ⟨c, hc⟩ := Option.ne_none_iff_exists'.1 hctl
    exact ⟨c.enable, by rw [settle_ctl, hu, if_pos rfl, hc]; rfl, enable_en c⟩
  refine runCall_keeps Armed ?_ ?_ n m t hm hrun
  · intro u hu
    rwa [Armed, lapse_ctl]
  · intro u v hu _ hc
    exact controllerStep_armed u v hu hc

/-- Settles O54: start and force_reset set EN in the mirror with their first transaction, stop clears it before its own,
and the others make sequences that leave the controller record. -/
theorem operationsMoveBetweenArmedAndDisarmed : Obligations.OperationsMoveBetweenArmedAndDisarmed := by
  unfold Obligations.OperationsMoveBetweenArmedAndDisarmed
  intro s t ts hsome
  refine ⟨?_, ?_, ?_, ?_, ?_, ?_, ?_⟩
  · intro h
    obtain ⟨c, m, -, hcall, hrun⟩ :=
      operation_eq_next (fun c s => { s with ctl := some { c with timeout := ts } }) h
    exact operation_armed (by simp) hcall hrun
  · intro h
    obtain ⟨c, m, hc, hcall, hrun⟩ := operation_eq_next (fun _ s => s) h
    exact operation_armed (by simp [hc]) hcall hrun
  · intro h
    obtain ⟨c, m, -, hcall, hrun⟩ := operation_eq_next (fun c s => { s with ctl := some c.disable }) h
    exact ⟨c.disable, operation_ctl_of_keeps (by simp [KeepsController]) hcall hrun, disable_en c⟩
  · intro h
    obtain ⟨c, m, -, hcall, hrun⟩ := operation_eq_next (fun _ s => s) h
    exact operation_ctl_of_keeps (by simp [KeepsController]) hcall hrun
  · intro h
    obtain ⟨c, m, hc, hcall, hrun⟩ :=
      operation_eq_next (fun c s => { s with ctl := some { c with timeout := ts } }) h
    have ht : t.ctl = some { c with timeout := ts } :=
      operation_ctl_of_keeps (by simp [KeepsController]) hcall hrun
    simp [Armed, ht, hc]
  · intro h
    simp only [exec, execCurrentTimeout, controllerTurn_eq_next, Host.Outcome.next.injEq] at h
    obtain ⟨-, c, -, rfl⟩ := h
    rfl
  · intro h
    simp only [exec, execMaxTimeout, controllerTurn_eq_next, Host.Outcome.next.injEq] at h
    obtain ⟨-, c, -, rfl⟩ := h
    rfl

/-! ## Mirror and hardware CTRL -/

/-- Mirror and CTRL agree in what `f` shows of a word: all of it for `MirrorSynced`, EN for `EnAgrees`. -/
def Agree {α : Type} (f : Word → α) (s : State) : Prop := ∀ c, s.ctl = some c → f s.dev.ctrl = f c.ctrl

/-- A divergence always has the mirror's write still to come. -/
def Repairs {α : Type} (f : Word → α) (s : State) : Prop :=
  Rearms s.seq.todo ∧ (Agree f s ∨ .writeMirror ∈ s.seq.todo)

theorem rearms_armProgram (count : Word) (l : List Action) (h : Rearms l) : Rearms (armProgram count ++ l) := by
  simpa [armProgram, Rearms] using h

theorem writeMirror_mem_armProgram (count : Word) (l : List Action) : .writeMirror ∈ armProgram count ++ l := by
  simp [armProgram]

theorem rearms_configureProgram (cfg : ResolvedConfiguration) : Rearms (configureProgram cfg) := by
  simp [configureProgram, Rearms]

theorem Enters.rearms {s : State} {i : Instr} {op : OpName} {prog : List Action} {c : Controller}
    (h : Enters s i op prog c) : Rearms prog := by
  cases h with
  | attach cfg => exact ⟨nofun, rearms_configureProgram cfg⟩
  | configureResetSignal c cfg => exact rearms_configureProgram cfg
  | start c ts => exact rearms_armProgram _ [] trivial
  | forceReset => exact rearms_armProgram _ [] trivial
  | stop | ping | setTimeout | setDriveMode | setPolarity => simp [Rearms]

/-- Every operation but attach either leaves the mirror word as it enters, or writes the mirror. -/
theorem Enters.agree {α : Type} {f : Word → α} {s : State} {i : Instr} {op : OpName} {prog : List Action}
    {c : Controller} (h : Enters s i op prog c) (hctl : s.ctl ≠ none) (hs : Agree f s) :
    f s.dev.ctrl = f c.ctrl ∨ .writeMirror ∈ prog := by
  cases h with
  | attach cfg hnone => exact absurd hnone hctl
  | start c ts => exact .inr (writeMirror_mem_armProgram _ [])
  | forceReset => exact .inr (writeMirror_mem_armProgram _ [])
  | stop => exact .inr (by simp)
  | ping _ hc | setDriveMode _ b hc | setPolarity _ b hc => exact .inl (hs _ hc)
  | setTimeout c ts hc => exact .inl (hs c hc)
  | configureResetSignal _ cfg hc => exact .inl (hs _ hc)

/-- A transaction that is not arm's first line nor the mirror's write leaves CTRL. -/
theorem act_dev_ctrl (a : Action) (s t : State) (hdis : a ≠ .disable) (hmir : a ≠ .writeMirror)
    (h : act a s = .next t) : t.dev.ctrl = s.dev.ctrl := by
  obtain ⟨hdev, -⟩ | ⟨-, r, v, hwrite, hr, -⟩ := act_dev a s t h
  · rw [hdev]
  · obtain ⟨-, -, -, -, hctrl, -⟩ := deviceWrite_frame _ _ _ _ _ hwrite
    refine hctrl fun hc => ?_
    obtain ⟨rfl, -⟩ | ⟨rfl, -⟩ := hr hc
    · exact hdis rfl
    · exact hmir rfl

/-- The mirror's write leaves CTRL equal to the mirror. -/
theorem act_writeMirror_agree (s t : State) (hdev : s.iface = .device) (h : act .writeMirror s = .next t) :
    MirrorSynced t := by
  obtain ⟨-, hfake⟩ | ⟨-, r, v, hwrite, hr, hctrl⟩ := act_dev _ s t h
  · rw [hdev] at hfake
    cases hfake (.inr rfl)
  · obtain rfl := hctrl (.inr rfl)
    obtain ⟨hdis, -⟩ | ⟨-, c, hc, rfl⟩ := hr rfl
    · cases hdis
    obtain ⟨-, -, -, -, -, heq, -⟩ := deviceWrite_frame _ _ _ _ _ hwrite
    obtain ⟨-, -, -, -, -, -, -, hctl⟩ := act_frame _ _ _ h
    intro c' hc'
    rw [hctl, if_neg nofun, hc] at hc'
    cases hc'
    exact heq rfl

theorem act_repairs {α : Type} (f : Word → α) (a : Action) (s t : State) (op : OpName) (k : Nat) (l : List Action)
    (hdev : s.iface = .device) (hseq : s.seq = .running op k l) (hre : Rearms (a :: l))
    (hag : Agree f s ∨ .writeMirror ∈ a :: l) (h : act a s = .next t) : Repairs f t := by
  obtain ⟨hdisable, hl⟩ := hre
  obtain hadv | ⟨n, -, -, hpush⟩ := act_seq a s t h
  swap
  · rw [Repairs, hpush, hseq, advance_running, push_running, todo_running]
    exact ⟨rearms_armProgram _ l hl, .inr (writeMirror_mem_armProgram _ l)⟩
  rw [Repairs, hadv, hseq, advance_running, todo_running]
  refine ⟨hl, ?_⟩
  by_cases hdis : a = .disable
  · exact .inr (hdisable hdis)
  by_cases hmir : a = .writeMirror
  · subst hmir
    exact .inl fun c hc => congrArg f (act_writeMirror_agree s t hdev h c hc)
  obtain ⟨-, -, -, -, -, -, -, hctl⟩ := act_frame _ _ _ h
  rw [if_neg hdis] at hctl
  refine hag.imp (fun hs c hc => ?_) fun hmem => (List.mem_cons.1 hmem).resolve_left (Ne.symm hmir)
  rw [act_dev_ctrl a s t hdis hmir h]
  exact hs c (hctl ▸ hc)

theorem controllerStep_repairs {α : Type} (f : Word → α) (s t : State) (hdev : s.iface = .device) (hs : Repairs f s)
    (h : controllerStep s = .next t) : Repairs f t := by
  obtain ⟨-, rfl⟩ | ⟨op, k, hseq, rfl⟩ | ⟨op, k, a, l, m, hseq, ha, rfl⟩ := controllerStep_eq_next s t h
  · exact hs
  · rw [Repairs, hseq] at hs
    exact hs
  · rw [Repairs, hseq, todo_running] at hs
    obtain ⟨hre, hag⟩ := hs
    have hm := act_repairs f a { s with seq := .running op k l } m op k l hdev rfl hre hag ha
    simpa only [Repairs, Agree, settle_todo, settle_dev, settle_ctl] using hm

/-- attach's read of CTRL: with EN found clear the new mirror agrees in EN, with EN found set the start sequence will write
it. -/
theorem attach_repairs {α : Type} (f : Word → α) (hf : ∀ v w : Word, v.getLsbD 0 = w.getLsbD 0 → f v = f w)
    (cfg : ResolvedConfiguration) (n : Nat) (c : Controller) (s t : State) (hdev : s.iface = .device)
    (hctl : s.ctl = some c) (hc : c.ctrl.getLsbD 0 = false)
    (h : call .attach (.takeOver n :: configureProgram cfg) s = .next t) : Repairs f t := by
  have hact := act_takeOver_of_device n { s with seq := .running .attach 0 (configureProgram cfg), result := none }
    (s.dev.ctrl.getLsbD 0) hdev rfl
  rw [call_cons, hact] at h
  injection h with h
  subst h
  rw [Repairs, settle_todo]
  cases hen : s.dev.ctrl.getLsbD 0
  · refine ⟨rearms_configureProgram cfg, .inl ?_⟩
    rw [Agree, settle_ctl, settle_dev]
    intro c' hc'
    cases hctl.symm.trans hc'
    exact hf _ _ (hen.trans hc.symm)
  · exact ⟨rearms_armProgram _ _ (rearms_configureProgram cfg), .inr (writeMirror_mem_armProgram _ _)⟩

/-- A row's first step: only a raw CTRL write can make mirror and CTRL diverge with no mirror write to come. Where attach
creates the controller, the claim is about EN. -/
theorem begin_repairs {α : Type} (f : Word → α) (i : Instr) (s t : State) (hi : i.level ≠ .agent)
    (hdev : s.iface = .device) (hraw : ∀ v, i ≠ .wrCtrl v)
    (hnew : s.ctl = none → ∀ v w : Word, v.getLsbD 0 = w.getLsbD 0 → f v = f w) (hs : Agree f s)
    (h : begin i s = .next t) : Repairs f t := by
  obtain ⟨⟨-, hidle⟩, ⟨-, r, rfl⟩ | ⟨-, r, rfl⟩ | ⟨-, r, v, row, hwrite, hrow, hctrl⟩ |
    ⟨-, op, prog, c, henters, hcall⟩⟩ := begin_eq_next i s t hi h
  · rw [Repairs, hidle]
    exact ⟨trivial, .inl hs⟩
  · simp only [Repairs, noteRead_seq, hidle]
    exact ⟨trivial, .inl hs⟩
  · obtain ⟨-, -, hctl, hseq, -⟩ := rowWrite_frame hwrite
    have hsame : t.dev.ctrl = s.dev.ctrl := by
      obtain e | ⟨-, -, -, -, e, -⟩ := rowWrite_dev hrow hwrite
      · rw [e]
      · exact e fun hr => hraw v (hctrl hr)
    simp only [Repairs, Agree, hseq, hidle, hctl, hsame]
    exact ⟨trivial, .inl hs⟩
  · by_cases hctl : s.ctl = none
    · cases henters with
      | attach cfg => exact attach_repairs f (hnew hctl) cfg _ _ _ t (by exact hdev) rfl (encCtrlFlags_en cfg) hcall
      | start c ts hc | forceReset c hc | stop c hc | ping c hc | setTimeout c ts hc | configureResetSignal c cfg hc
      | setDriveMode c b hc | setPolarity c b hc => cases hctl.symm.trans hc
    · refine controllerStep_repairs f { s with ctl := some c, seq := .running op 0 prog, result := none } t hdev
        ⟨henters.rearms, (henters.agree hctl hs).imp_left fun heq => ?_⟩ hcall
      rintro _ ⟨⟩
      exact heq

/-- An operation that has answered a next state with the watchdog not expired has no transaction left to make. -/
theorem exec_todo_nil (i : Instr) (s t : State) (hi : i.level ≠ .agent) (h : exec i s = .next t)
    (hexp : t.dev.expired = none) : t.seq.todo = [] := by
  obtain ⟨⟨-, hidle⟩, ⟨-, ⟨r, rfl⟩ | ⟨r, rfl⟩ | ⟨r, v, row, hwrite, -⟩⟩ | ⟨op, prog, c, m, -, -, -, hend⟩⟩ :=
    exec_eq_next i s t hi h
  · rw [hidle, todo_idle]
  · simp [hidle]
  · obtain ⟨-, -, -, hseq, -⟩ := rowWrite_frame hwrite
    simp [hseq, hidle]
  · exact hend.resolve_left fun hne => hne hexp

/-- A whole instruction but a raw CTRL write keeps what mirror and CTRL agree in. -/
theorem exec_agree {α : Type} (f : Word → α) (i : Instr) (s t : State) (hdev : s.iface = .device)
    (hraw : ∀ v, i ≠ .wrCtrl v) (hnew : s.ctl = none → ∀ v w : Word, v.getLsbD 0 = w.getLsbD 0 → f v = f w)
    (hs : Agree f s) (h : exec i s = .next t) (hexp : t.dev.expired = none) : Agree f t := by
  by_cases hi : i.level = .agent
  · rw [exec_agent_eq_next i s t hi h, Agree, counterTurn_ctl, counterTurn_dev_ctrl]
    exact hs
  have hkept : t.iface = .device ∧ Repairs f t := by
    have hbegin (m : State) (hm : begin i s = .next m) : m.iface = .device ∧ Repairs f m := by
      obtain ⟨-, -, hiface⟩ := begin_atMostOne i s m hi hm
      exact ⟨hiface.trans hdev, begin_repairs f i s m hi hdev hraw hnew hs hm⟩
    obtain e | e := exec_eq_begin i s
    · exact hbegin t (e.symm.trans h)
    · refine complete_keeps (fun u => u.iface = .device ∧ Repairs f u) (e.symm.trans h) hbegin ?_ ?_
      · intro u hu
        simpa only [Repairs, Agree, lapse_iface, lapse_seq, lapse_ctl, lapse_dev_ctrl] using hu
      · rintro u v ⟨hudev, hu⟩ - hc
        obtain ⟨-, hiface, -⟩ := controllerStep_frame u v hc
        exact ⟨hiface.trans hudev, controllerStep_repairs f u v hudev hu hc⟩
  obtain ⟨-, -, hag⟩ := hkept
  refine hag.resolve_right ?_
  simp [exec_todo_nil i s t hi h hexp]

/-- Settles O56: a disabling write is always followed by a write of the mirror, and no other transaction of an operation
touches CTRL. -/
theorem mirrorStaysSynced : Obligations.MirrorStaysSynced := by
  unfold Obligations.MirrorStaysSynced
  constructor
  · intro i s t hdev h hraw hexp
    constructor
    · intro hsome hs
      refine exec_agree id i s t hdev hraw (fun hnone => ?_) hs h hexp
      rw [hnone] at hsome
      cases hsome
    · intro hs
      exact exec_agree (fun w => w.getLsbD 0) i s t hdev hraw (fun _ _ _ e => e) hs h hexp
  · intro s t hdev h hraw hre hag
    have hs : Repairs (fun w => w.getLsbD 0) s := ⟨hre, hag⟩
    show Repairs (fun w => w.getLsbD 0) t
    obtain ⟨-, mv, rfl | ⟨-, -, hc⟩ | ⟨hidle, pk, rest, i, hinbox, hdecode, hbegin⟩⟩ := step_cases s t h
    · simpa only [Repairs, Agree, counterTurn_seq, counterTurn_ctl, counterTurn_dev_ctrl] using hs
    · exact controllerStep_repairs _ { s with moves := mv } t hdev hs hc
    · refine begin_repairs _ i _ t (decode_level _ _ _ hdecode) (by exact hdev) ?_ (fun _ _ _ e => e) ?_ hbegin
      · rintro v rfl
        exact hraw pk rest v hinbox hdecode
      · exact hag.resolve_right (by simp [hidle])

end Sys2Proof.Machine
end

section
/-! PROOFS. What leaves the counter alone (10_state R11, 43_counter R148). -/

namespace Sys2Proof.Machine

/-! ## Transactions that leave the counter -/

theorem regWrite_counter {r : Reg} {v : Word} {s t : State} (h : regWrite r v s = .next t) (hr : r ≠ .restart)
    (hen : r = .ctrl → v.getLsbD 0 = false) : t.dev.counter = s.dev.counter := by
  obtain e | ⟨-, -, -, -, -, -, hcounter⟩ := rowWrite_dev (deviceWrite_frame s.par r v) h
  · rw [e]
  · exact hcounter hr hen

/-- A transaction that is no magic write, and no write of a mirror with EN set, leaves the counter. -/
theorem act_counter (a : Action) (s t : State) (hrestart : a ≠ .restart) (hmirror : a = .writeMirror → ¬ Armed s)
    (h : act a s = .next t) : t.dev.counter = s.dev.counter := by
  cases a with
  | restart => exact absurd rfl hrestart
  | takeOver n | fetchDuration d =>
    injection h with h
    rw [← h]
    rfl
  | disable => exact regWrite_counter (s := { s with ctl := s.ctl.map Controller.enable }) h nofun fun _ => rfl
  | load count => exact regWrite_counter (r := .reloadValue) h nofun nofun
  | tagDrive b => exact regWrite_counter (r := .resetWidth) h nofun nofun
  | tagPolarity b => exact regWrite_counter (s := { s with latch := s.latch &&& durMask }) h nofun nofun
  | writeMirror =>
    simp only [act, writeMirror] at h
    split at h
    · cases h
    · next c hc =>
      refine regWrite_counter h nofun fun _ => ?_
      by_contra hen
      exact hmirror rfl ⟨c, hc, by simpa using hen⟩

/-- No transaction of the sequence reloads the counter, or may put one before the rest that does. -/
def KeepsCounter (l : List Action) : Prop := .restart ∉ l ∧ .disable ∉ l ∧ ∀ n, .takeOver n ∉ l

/-- What an operation that reloads nothing keeps when no turn is scheduled. -/
def CounterStands (c : Word) (s : State) : Prop :=
  s.dev.counter = c ∧ s.moves = [] ∧ KeepsCounter s.seq.todo ∧ (.writeMirror ∈ s.seq.todo → ¬ Armed s)

theorem controllerStep_counterStands (c : Word) (s t : State) (hs : CounterStands c s)
    (h : controllerStep s = .next t) : CounterStands c t := by
  obtain ⟨-, rfl⟩ | ⟨op, k, -, rfl⟩ | ⟨op, k, a, l, m, hseq, ha, rfl⟩ := controllerStep_eq_next s t h
  · exact hs
  · obtain ⟨hcounter, hmoves, -, -⟩ := hs
    exact ⟨hcounter, hmoves, by simp [KeepsCounter], nofun⟩
  · rw [CounterStands, hseq] at hs
    obtain ⟨hcounter, hmoves, ⟨hrestart, hdis, htake⟩, hmirror⟩ := hs
    simp only [todo_running, List.mem_cons, not_or] at hrestart hdis htake hmirror
    obtain ⟨-, -, -, hmoves', -, -, -, hctl⟩ := act_frame _ _ _ ha
    rw [if_neg (Ne.symm hdis.1)] at hctl
    have hcounter' := act_counter a { s with seq := .running op k l } m (Ne.symm hrestart.1)
      (fun e => hmirror (.inl e.symm)) ha
    obtain hadv | ⟨n, rfl, -⟩ := act_seq _ _ _ ha
    · refine ⟨by rw [settle_dev, hcounter', hcounter], by rw [settle_moves, hmoves', hmoves], ?_, ?_⟩
      · rw [settle_todo, hadv]
        exact ⟨hrestart.2, hdis.2, fun n => (htake n).2⟩
      · rw [settle_todo, hadv, Armed, settle_ctl, hctl]
        exact fun hmem => hmirror (.inr hmem)
    · exact absurd rfl (htake n).1

theorem complete_counterStands {op : OpName} {prog : List Action} {n : Nat} {s m t : State} (hmoves : s.moves = [])
    (hprog : KeepsCounter prog) (hmirror : .writeMirror ∈ prog → ¬ Armed s) (hcall : call op prog s = .next m)
    (hrun : runCall n m = .next t) : t.dev.counter = s.dev.counter := by
  have hm := controllerStep_counterStands s.dev.counter { s with seq := .running op 0 prog, result := none } m
    ⟨rfl, hmoves, hprog, hmirror⟩ hcall
  refine (runCall_keeps (CounterStands s.dev.counter) ?_ ?_ n m t hm hrun).1
  · intro u hu
    rwa [lapse_of_no_moves u hu.2.1]
  · exact fun u v hu _ hc => controllerStep_counterStands _ u v hu hc

theorem keepsCounter_configure (cfg : ResolvedConfiguration) : KeepsCounter (configureProgram cfg) := by
  simp [KeepsCounter, configureProgram]

/-! ## Rows that leave the counter -/

theorem busRead_dev {r : Reg} {s t : State} (h : busRead r s = .next t) : t.dev = s.dev := by
  obtain ⟨-, h⟩ := (hostTurn_eq_next _ _ _).1 h
  injection h with h
  rw [← h]
  rfl

theorem busWrite_counter {r : Reg} {v : Word} {row : Device → Except Refusal Device} {s t : State}
    (h : busWrite r v row s = .next t) (hrow : ∀ d e, row d = .ok e → WriteFrame r v d e) (hr : r ≠ .restart)
    (hc : r ≠ .ctrl) : t.dev.counter = s.dev.counter := by
  obtain ⟨-, h⟩ := (hostTurn_eq_next _ _ _).1 h
  obtain e | ⟨-, -, -, -, -, -, hcounter⟩ := rowWrite_dev hrow h
  · rw [e]
  · exact hcounter hr fun e => absurd e hc

/-- A row the device always refuses leaves the device, since only the fake stores its word. -/
theorem busWrite_of_refusing_dev {r : Reg} {v : Word} {row : Device → Except Refusal Device} {s t : State}
    (h : busWrite r v row s = .next t) (hrow : ∀ d, ∃ e, row d = .error e) : t.dev = s.dev := by
  obtain ⟨-, h⟩ := (hostTurn_eq_next _ _ _).1 h
  obtain ⟨-, d, hd, -⟩ | ⟨-, rfl⟩ := (rowWrite_eq_next _ _ _ _ _).1 h
  · obtain ⟨e, he⟩ := hrow s.dev
    cases he.symm.trans hd
  · rfl

/-- A register transaction but the magic write and a CTRL write leaves the counter. -/
theorem exec_bus_counter (i : Instr) (s t : State) (hi : i.level = .bus) (hmagic : i ≠ .wrRestartMagic)
    (hctrl : ∀ v, i ≠ .wrCtrl v) (h : exec i s = .next t) : t.dev.counter = s.dev.counter := by
  cases i <;> cases hi
  case wrRestartMagic => exact absurd rfl hmagic
  case wrCtrl v => exact absurd rfl (hctrl v)
  case rdStatus | rdReloadValue | rdRestart | rdCtrl | rdResetWidth =>
    simp only [exec, execRdStatus, execRdReloadValue, execRdRestart, execRdCtrl, execRdResetWidth] at h
    rw [busRead_dev h]
  case wrStatus => rw [busWrite_of_refusing_dev (row := devWriteStatus) h fun _ => ⟨_, rfl⟩]
  case wrRestartOther => rw [busWrite_of_refusing_dev (row := devRestartOther) h fun _ => ⟨_, rfl⟩]
  case wrResetWidthOther => rw [busWrite_of_refusing_dev (row := devResetWidthOther) h fun _ => ⟨_, rfl⟩]
  case wrReloadValue v =>
    exact busWrite_counter (row := devWriteReloadValue v) h (devWriteReloadValue_frame v) nofun nofun
  case wrResetWidthPushPull zero dur =>
    exact busWrite_counter (row := devPushPull zero dur) h (devPushPull_frame _ zero dur) nofun nofun
  case wrResetWidthOpenDrain zero dur =>
    exact busWrite_counter (row := devOpenDrain zero dur) h (devOpenDrain_frame _ zero dur) nofun nofun
  case wrResetWidthActiveHigh zero dur =>
    exact busWrite_counter (row := devActiveHigh zero dur) h (devActiveHigh_frame _ zero dur) nofun nofun
  case wrResetWidthActiveLow zero dur =>
    exact busWrite_counter (row := devActiveLow zero dur) h (devActiveLow_frame _ zero dur) nofun nofun

/-- Settles O57: what may change the counter is a magic write, a write that sets EN and a tick, and the other rows and
operations make none of them. -/
theorem onlyReloadsAndTimeMoveTheCounter : Obligations.OnlyReloadsAndTimeMoveTheCounter := by
  unfold Obligations.OnlyReloadsAndTimeMoveTheCounter
  intro i s t h hmoves hmagic hctrl hattach hstart hping hset hforce htime
  by_cases hbus : i.level = .bus
  · exact exec_bus_counter i s t hbus hmagic hctrl h
  cases i
  case attach cfg => exact absurd rfl (hattach cfg)
  case start ts => exact absurd rfl (hstart ts)
  case ping => exact absurd rfl hping
  case setTimeout ts => exact absurd rfl (hset ts)
  case forceReset => exact absurd rfl hforce
  case time => exact absurd rfl htime
  case expire => rw [exec_expire_eq_next s t h, takeExpiry_dev_counter]
  case currentTimeout | maxTimeout =>
    simp only [exec, execCurrentTimeout, execMaxTimeout, controllerTurn_eq_next, Host.Outcome.next.injEq] at h
    obtain ⟨-, c, -, rfl⟩ := h
    rfl
  case validatePulseDuration d =>
    simp only [exec, execValidatePulseDuration, controllerTurn_eq_next] at h
    obtain ⟨-, c, -, h⟩ := h
    split at h <;>
    · injection h with h
      subst h
      rfl
  case stop =>
    obtain ⟨c, m, -, hcall, hrun⟩ := operation_eq_next (fun c s => { s with ctl := some c.disable }) h
    refine complete_counterStands (s := { s with ctl := some c.disable }) hmoves (by simp [KeepsCounter]) ?_ hcall hrun
    rintro - ⟨_, ⟨⟩, hen⟩
    rw [disable_en] at hen
    cases hen
  case configureResetSignal cfg =>
    obtain ⟨m, hbegin, hrun⟩ := (complete_eq_next _ _).1 h
    obtain ⟨-, c, -, hcall⟩ := (controllerTurn_eq_next _ _ _).1 hbegin
    split at hcall
    · cases hcall
    · exact complete_counterStands hmoves (keepsCounter_configure cfg) (by simp [configureProgram]) hcall hrun
  case setDriveMode b | setPolarity b =>
    obtain ⟨c, m, -, hcall, hrun⟩ := operation_eq_next (fun _ s => s) h
    exact complete_counterStands hmoves (by simp [KeepsCounter]) (by simp) hcall hrun
  all_goals exact absurd rfl hbus

end Sys2Proof.Machine
end

section
/-! PROOFS. What an operation does whatever the schedule, on the device: the configurator's sequences between lapses
(42_reset_signal R131 to R133), and from there attach (41_controller R110, 70_reset_and_hazards R188). -/

namespace Sys2Proof.Machine

/-! ## Between two transactions -/

/-- What neither a lapse nor a RESET_WIDTH transaction touches. -/
def SameRest (s u : State) : Prop :=
  u.ctl = s.ctl ∧ u.par = s.par ∧ u.iface = s.iface ∧ u.dev.reload = s.dev.reload ∧ u.dev.ctrl = s.dev.ctrl ∧
    (s.blockUs = 0 → u.blockUs = 0)

theorem SameRest.refl (s : State) : SameRest s s := ⟨rfl, rfl, rfl, rfl, rfl, id⟩

theorem SameRest.trans {s u v : State} (h : SameRest s u) (h' : SameRest u v) : SameRest s v := by
  obtain ⟨hctl, hpar, hiface, hreload, hctrl, hblock⟩ := h
  obtain ⟨hctl', hpar', hiface', hreload', hctrl', hblock'⟩ := h'
  exact ⟨hctl'.trans hctl, hpar'.trans hpar, hiface'.trans hiface, hreload'.trans hreload, hctrl'.trans hctrl,
    fun h => hblock' (hblock h)⟩

/-- What a lapse leaves of a state. -/
def SameButTime (s u : State) : Prop :=
  SameRest s u ∧ u.latch = s.latch ∧ u.dev.rwDur = s.dev.rwDur ∧ u.dev.rwDrive = s.dev.rwDrive ∧
    u.dev.rwPol = s.dev.rwPol

theorem SameButTime.refl (s : State) : SameButTime s s := ⟨.refl s, rfl, rfl, rfl, rfl⟩

theorem SameButTime.lapse {s u : State} (h : SameButTime s u) : SameButTime s (lapse u) := by
  obtain ⟨hrest, hlatch, hdur, hdrive, hpol⟩ := h
  refine ⟨hrest.trans ⟨lapse_ctl u, lapse_par u, lapse_iface u, lapse_dev_reload u, lapse_dev_ctrl u,
    lapse_blockUs_zero u⟩, ?_⟩
  rw [lapse_latch, lapse_dev_rwDur, lapse_dev_rwDrive, lapse_dev_rwPol]
  exact ⟨hlatch, hdur, hdrive, hpol⟩

/-- The next transaction is made from a state that only time has changed. -/
theorem answers_lapse {Q : State → Prop} {n : Nat} {s : State} (hp : pending s.seq = true)
    (hk : ∀ u, SameButTime s u → u.seq = s.seq → u.dev.expired = none → Answers Q (resume n (controllerStep u))) :
    Answers Q (runCall (n + 1) s) :=
  runCall_answers (P := SameButTime s) (.refl s) hp (fun _ hu => hu.lapse) hk

/-- As `resume_stage`, for every schedule. -/
theorem answers_stage {Q : State → Prop} {n : Nat} {s m : State} {op : OpName} {k : Nat} {a : Action} {l : List Action}
    (h : s.seq = .running op k (a :: l)) (ha : act a { s with seq := .running op k l } = .next m)
    (hp : pending m.seq = true)
    (hk : ∀ u, SameButTime m u → u.seq = m.seq → u.dev.expired = none → Answers Q (resume n (controllerStep u))) :
    Answers Q (resume (n + 1) (controllerStep s)) := by
  rw [resume_controllerStep h ha, settle_of_pending m hp]
  exact answers_lapse hp hk

theorem answers_mono {P Q : State → Prop} {a : Answer} (h : Answers P a) (hPQ : ∀ t, P t → Q t) : Answers Q a := by
  obtain ⟨t, ht, hP⟩ := h
  exact ⟨t, ht, fun he => hPQ t (hP he)⟩

/-! ## The configurator's stages -/

/-- The configurator's call has returned, with these RESET_WIDTH fields and the rest as it found it. -/
def Configured (dur : BitVec 12) (drive pol : Bool) (s t : State) : Prop :=
  SameRest s t ∧ t.dev.rwDur = dur ∧ t.dev.rwDrive = drive ∧ t.dev.rwPol = pol ∧ t.seq = .idle ∧ t.result = some .ok

theorem Configured.of_sameRest {dur : BitVec 12} {drive pol : Bool} {s u t : State} (hsu : SameRest s u)
    (h : Configured dur drive pol u t) : Configured dur drive pol s t := by
  obtain ⟨hrest, h⟩ := h
  exact ⟨hsu.trans hrest, h⟩

/-- The drive-mode write, as the last transaction. -/
theorem answers_tagDrive {n : Nat} {b : Bool} {s : State} {op : OpName} {k : Nat}
    (h : s.seq = .running op k [.tagDrive b]) (hop : op ≠ .forceReset) (hdev : s.iface = .device)
    (hp : s.par.Distinct) (hmask : s.latch &&& durMask = s.latch) :
    Answers (Configured (s.latch.extractLsb' 0 12) b s.dev.rwPol s) (resume n (controllerStep s)) :=
  answers_of_next (resume_last h (act_tagDrive_of_device b _ (by exact hdev) (by exact hp) (by exact hmask)) rfl hop rfl)
    ⟨⟨rfl, rfl, rfl, rfl, rfl, id⟩, rfl, rfl, rfl, rfl, rfl⟩

/-- The polarity write, as the last transaction. -/
theorem answers_tagPolarity {n : Nat} {b : Bool} {s : State} {op : OpName} {k : Nat}
    (h : s.seq = .running op k [.tagPolarity b]) (hop : op ≠ .forceReset) (hdev : s.iface = .device)
    (hp : s.par.Distinct) :
    Answers (Configured (s.latch.extractLsb' 0 12) s.dev.rwDrive b s) (resume n (controllerStep s)) :=
  answers_of_next (resume_last h (act_tagPolarity_of_device b _ (by exact hdev) (by exact hp)) rfl hop rfl)
    ⟨⟨rfl, rfl, rfl, rfl, rfl, id⟩, rfl, rfl, rfl, rfl, rfl⟩

/-- After the configurator's read and a lapse the local word is a masked one, with the duration to write. -/
theorem answers_fetchDuration {Q : State → Prop} {n : Nat} {s : State} {op : OpName} {k : Nat} {d : Option Nat}
    {a : Action} {l : List Action} (h : s.seq = .running op k (.fetchDuration d :: a :: l)) (hdev : s.iface = .device)
    (hd : DurationOk d)
    (hk : ∀ u, SameRest s u → u.dev.rwDrive = s.dev.rwDrive → u.dev.rwPol = s.dev.rwPol →
      u.latch &&& durMask = u.latch →
      u.latch.extractLsb' 0 12 = (d.map (BitVec.ofNat 12)).getD s.dev.rwDur → u.seq = .running op (k + 1) (a :: l) →
      Answers Q (resume n (controllerStep u))) :
    Answers Q (resume (n + 1) (controllerStep s)) := by
  obtain ⟨hmask, hlow⟩ := chosenDuration_of_ok d hd (deviceRead .resetWidth s.dev s.free)
  rw [(deviceRead_resetWidth_fields s.dev s.free).1] at hlow
  refine answers_stage h (act_fetchDuration_of_device d _ (by exact hdev)) rfl fun u hu hseq _ => ?_
  obtain ⟨hrest, hlatch, -, hdrive, hpol⟩ := hu
  exact hk u hrest hdrive hpol (by rw [hlatch]; exact hmask) (by rw [hlatch]; exact hlow) hseq

theorem answers_configure {n : Nat} {cfg : ResolvedConfiguration} {s : State} {op : OpName} {k : Nat}
    (h : s.seq = .running op k (configureProgram cfg)) (hop : op ≠ .forceReset) (hdev : s.iface = .device)
    (hp : s.par.Distinct) (hd : DurationOk cfg.pulseDurationTicks) :
    Answers (Configured ((cfg.pulseDurationTicks.map (BitVec.ofNat 12)).getD s.dev.rwDur) cfg.pushPull cfg.activeHigh s)
      (resume (n + 2) (controllerStep s)) := by
  refine answers_fetchDuration h hdev hd fun u hu _ _ hmask hlow hseq => ?_
  have ⟨_, hpar, hiface, _⟩ := hu
  refine answers_stage hseq (act_tagDrive_of_device _ _ (by exact hiface.trans hdev) (by exact hpar ▸ hp)
    (by exact hmask)) rfl fun v hv hseq' _ => ?_
  obtain ⟨hrest, hlatch, -, hdrive, -⟩ := hv
  have ⟨_, hpar', hiface', _⟩ := hrest
  refine answers_mono (answers_tagPolarity hseq' hop (hiface'.trans (hiface.trans hdev)) (by exact hpar' ▸ hpar ▸ hp))
    fun t ht => ?_
  rw [hlatch, hlow, hdrive] at ht
  exact ht.of_sameRest (hu.trans hrest)

theorem answers_retagDrive {n : Nat} {b : Bool} {s : State} {op : OpName} {k : Nat}
    (h : s.seq = .running op k [.fetchDuration none, .tagDrive b]) (hop : op ≠ .forceReset) (hdev : s.iface = .device)
    (hp : s.par.Distinct) :
    Answers (Configured s.dev.rwDur b s.dev.rwPol s) (resume (n + 1) (controllerStep s)) := by
  refine answers_fetchDuration h hdev nofun fun u hu _ hpol hmask hlow hseq => ?_
  have ⟨_, hpar, hiface, _⟩ := hu
  refine answers_mono (answers_tagDrive hseq hop (hiface.trans hdev) (by exact hpar ▸ hp) hmask) fun t ht => ?_
  rw [hlow, hpol] at ht
  exact ht.of_sameRest hu

theorem answers_retagPolarity {n : Nat} {b : Bool} {s : State} {op : OpName} {k : Nat}
    (h : s.seq = .running op k [.fetchDuration none, .tagPolarity b]) (hop : op ≠ .forceReset)
    (hdev : s.iface = .device) (hp : s.par.Distinct) :
    Answers (Configured s.dev.rwDur s.dev.rwDrive b s) (resume (n + 1) (controllerStep s)) := by
  refine answers_fetchDuration h hdev nofun fun u hu hdrive _ _ hlow hseq => ?_
  have ⟨_, hpar, hiface, _⟩ := hu
  refine answers_mono (answers_tagPolarity hseq hop (hiface.trans hdev) (by exact hpar ▸ hp)) fun t ht => ?_
  rw [hlow, hdrive] at ht
  exact ht.of_sameRest hu

/-! ## The configurator's calls -/

section
variable (s : State) (c : Controller) (henter : CallMayEnter s) (hctl : s.ctl = some c)
include henter hctl

theorem exec_configureResetSignal_of_enter (cfg : ResolvedConfiguration) (hd : DurationOk cfg.pulseDurationTicks) :
    exec (.configureResetSignal cfg) s = resume maxTransactions (controllerStep
      { s with seq := .running .configureResetSignal 0 (configureProgram cfg), result := none }) := by
  simp only [exec, execConfigureResetSignal, beginConfigureResetSignal, controllerTurn_of_enter s c _ henter hctl,
    (durationError_eq_none_iff _).2 hd]
  rfl

theorem exec_setDriveMode_of_enter (b : Bool) :
    exec (.setDriveMode b) s = resume maxTransactions (controllerStep
      { s with seq := .running .setDriveMode 0 [.fetchDuration none, .tagDrive b], result := none }) := by
  simp only [exec, execSetDriveMode, beginSetDriveMode, controllerTurn_of_enter s c _ henter hctl]
  rfl

theorem exec_setPolarity_of_enter (b : Bool) :
    exec (.setPolarity b) s = resume maxTransactions (controllerStep
      { s with seq := .running .setPolarity 0 [.fetchDuration none, .tagPolarity b], result := none }) := by
  simp only [exec, execSetPolarity, beginSetPolarity, controllerTurn_of_enter s c _ henter hctl]
  rfl

variable (hdev : s.iface = .device) (hp : s.par.Distinct)
include hdev hp

theorem exec_configureResetSignal_answers (cfg : ResolvedConfiguration) (hd : DurationOk cfg.pulseDurationTicks) :
    Answers (Configured ((cfg.pulseDurationTicks.map (BitVec.ofNat 12)).getD s.dev.rwDur) cfg.pushPull cfg.activeHigh s)
      (exec (.configureResetSignal cfg) s) := by
  rw [exec_configureResetSignal_of_enter s c henter hctl cfg hd]
  exact answers_configure rfl nofun hdev hp hd

theorem exec_setDriveMode_answers (b : Bool) :
    Answers (Configured s.dev.rwDur b s.dev.rwPol s) (exec (.setDriveMode b) s) := by
  rw [exec_setDriveMode_of_enter s c henter hctl b]
  exact answers_retagDrive rfl nofun hdev hp

theorem exec_setPolarity_answers (b : Bool) :
    Answers (Configured s.dev.rwDur s.dev.rwDrive b s) (exec (.setPolarity b) s) := by
  rw [exec_setPolarity_of_enter s c henter hctl b]
  exact answers_retagPolarity rfl nofun hdev hp

end

/-- The fields of RESET_WIDTH and the registers and record beside them, of a configured state. -/
theorem Configured.fields {dur : BitVec 12} {drive pol : Bool} {s t : State} (h : Configured dur drive pol s t) :
    t.dev.rwDur = dur ∧ t.dev.rwDrive = drive ∧ t.dev.rwPol = pol ∧ t.dev.ctrl = s.dev.ctrl ∧
      t.dev.reload = s.dev.reload ∧ t.ctl = s.ctl := by
  obtain ⟨⟨hctl, -, -, hreload, hctrl, -⟩, hdur, hdrive, hpol, -⟩ := h
  exact ⟨hdur, hdrive, hpol, hctrl, hreload, hctl⟩

/-- Settles O29: a lapse touches neither the local word nor a register the configurator writes. -/
theorem configuratorUnaffectedByCounter : Obligations.ConfiguratorUnaffectedByCounter := by
  unfold Obligations.ConfiguratorUnaffectedByCounter
  intro s cfg henter hp hdev hctl hd
  obtain ⟨c, hc⟩ := Option.ne_none_iff_exists'.1 hctl
  exact ⟨answers_mono (exec_configureResetSignal_answers s c henter hc hdev hp cfg hd) fun _ ht => ht.fields,
    answers_mono (exec_setDriveMode_answers s c henter hc hdev hp cfg.pushPull) fun _ ht => ht.fields,
    answers_mono (exec_setPolarity_answers s c henter hc hdev hp cfg.activeHigh) fun _ ht => ht.fields⟩

/-! ## attach -/

theorem exec_attach_of_enter (s : State) (cfg : ResolvedConfiguration) (henter : CallMayEnter s) (hctl : s.ctl = none)
    (hd : DurationOk cfg.pulseDurationTicks) :
    exec (.attach cfg) s = resume maxTransactions (controllerStep
      { s with
        ctl := some (newController s.par cfg), result := none
        seq := .running .attach 0 (.takeOver s.par.defaultTimeoutS :: configureProgram cfg) }) := by
  simp only [exec, execAttach, beginAttach, hostTurn_of_enter s _ henter, hctl, Option.isSome_none, Bool.false_eq_true,
    if_false, (durationError_eq_none_iff _).2 hd]
  rfl

/-- Settles O12: with the timer halted nothing happens between the transactions, and EN read as 0 leaves the read, then
the configurator's sequence. -/
theorem attachLeavesStoppedTimerDisarmed : Obligations.AttachLeavesStoppedTimerDisarmed := by
  unfold Obligations.AttachLeavesStoppedTimerDisarmed
  intro s cfg hrest hp hhalt hctl hd
  have hstill : Still s := still_of_atRest s hrest (.inl hhalt)
  obtain ⟨hexp, hidle, hblock⟩ := hrest
  obtain ⟨hdev, hen⟩ := hhalt
  refine ⟨deviceRead .ctrl s.dev s.free, deviceRead .resetWidth s.dev (redraw .ctrl s.free),
    afterTurns (afterTurns (afterTurns s.moves)), redraw .resetWidth (redraw .ctrl s.free),
    chosenDuration cfg.pulseDurationTicks (deviceRead .resetWidth s.dev (redraw .ctrl s.free)),
    (deviceRead_ctrl_en s.dev s.free).trans hen, (deviceRead_resetWidth_fields s.dev _).1, ?_⟩
  rw [exec_attach_of_enter s cfg ⟨hexp, hidle⟩ hctl hd]
  refine resume_stage rfl (act_takeOver_of_device _ _ false (by exact hdev) hen) rfl (by exact hstill) ?_
  refine (configure_of_device 5 cfg .attach 1 _ rfl nofun (by exact hdev) (by exact hp) hd
    (by exact ⟨hexp, .inl ⟨.inl ⟨hdev, hen⟩, hblock⟩⟩)).trans ?_
  simp [hidle, rwwWord, selDrive, selPol, newController, Config.maxHwHeartbeatMs]

/-- Settles O13: EN read as 1 puts the arm sequence before the configurator's; its mirror is the new controller's, so it
ends with the configured flags. -/
theorem attachRearmsRunningTimer : Obligations.AttachRearmsRunningTimer := by
  unfold Obligations.AttachRearmsRunningTimer
  intro s cfg hrest hp hdev hmoves hen hctl hd
  obtain ⟨hexp, hidle, hblock⟩ := hrest
  refine ⟨deviceRead .ctrl s.dev s.free, deviceRead .resetWidth s.dev (redraw .ctrl s.free),
    redraw .resetWidth (redraw .ctrl s.free),
    chosenDuration cfg.pulseDurationTicks (deviceRead .resetWidth s.dev (redraw .ctrl s.free)),
    (deviceRead_ctrl_en s.dev s.free).trans hen, (deviceRead_resetWidth_fields s.dev _).1, ?_⟩
  rw [exec_attach_of_enter s cfg ⟨hexp, hidle⟩ hctl hd]
  refine resume_stage rfl (act_takeOver_of_device _ _ true (by exact hdev) hen) rfl (by exact ⟨hexp, .inr hmoves⟩) ?_
  refine (arm_of_device 4 (reloadOf s.par.defaultTimeoutS) .attach 1 (configureProgram cfg) (newController s.par cfg) _
    rfl (by exact hdev) (by exact hexp) (by exact hblock) rfl (encCtrlFlags_mem cfg)).trans ?_
  rw [settle_of_pending _ rfl]
  refine (runCall_of_still 3 _ (by exact ⟨hexp, .inr (by simp [hmoves])⟩) rfl).trans ?_
  refine (configure_of_device 1 cfg .attach 5 _ rfl nofun (by exact hdev) (by exact hp) hd
    (by exact ⟨hexp, .inr (by simp [hmoves])⟩)).trans ?_
  simp [hidle, hmoves, rwwWord, selDrive, selPol, newController, Config.maxHwHeartbeatMs, restartWord, Controller.enable,
    maskEn, deviceRead]

/-- Settles O14: whatever the schedule, the arm sequence runs with the new controller's mirror, and the configurator
touches neither CTRL nor the controller. -/
theorem attachNeverLeavesRunningTimerDisabled : Obligations.AttachNeverLeavesRunningTimerDisabled := by
  unfold Obligations.AttachNeverLeavesRunningTimerDisabled
  intro s cfg hrest hp hdev hen hctl hd
  obtain ⟨hexp, hidle, hblock⟩ := hrest
  rw [exec_attach_of_enter s cfg ⟨hexp, hidle⟩ hctl hd]
  refine answers_stage rfl (act_takeOver_of_device _ _ true (by exact hdev) hen) rfl fun u hu hseq hexp' => ?_
  obtain ⟨⟨hctl', hpar, hiface, -, -, hblock'⟩, -⟩ := hu
  rw [arm_of_device 4 (reloadOf s.par.defaultTimeoutS) .attach 1 (configureProgram cfg) (newController s.par cfg) u hseq
    (hiface.trans hdev) hexp' (hblock' hblock) hctl' (encCtrlFlags_mem cfg), settle_of_pending _ rfl]
  refine answers_lapse rfl fun v hv hseq' _ => ?_
  obtain ⟨⟨hctl'', hpar', hiface', -, hctrl, -⟩, -⟩ := hv
  refine answers_mono (answers_configure hseq' nofun (hiface'.trans (hiface.trans hdev))
    (by rw [hpar']; exact hpar ▸ hp) hd) fun t ht => ?_
  obtain ⟨⟨hctl₃, -, -, -, hctrl₃, -⟩, -, -, -, hidle', hok⟩ := ht
  have hmirror : t.dev.ctrl = encCtrlFlags cfg ||| 1#32 := by rw [hctrl₃, hctrl]; rfl
  obtain ⟨hen', -⟩ := mirrorWords_or_en_bits _ (encCtrlFlags_mem cfg)
  exact ⟨hmirror, by rw [hmirror]; exact hen', by rw [hctl₃, hctl'']; rfl, hidle', hok⟩

end Sys2Proof.Machine
end

section
/-! PROOFS. The controller's operations on the device where they do not return at once (41_controller R115 c, R116), and
pings one after another (R114 b). -/

namespace Sys2Proof.Machine

/-! ## force_reset -/

section
variable (s : State) (c : Controller) (henter : CallMayEnter s) (hctl : s.ctl = some c)
include henter hctl

theorem exec_forceReset_of_enter :
    exec .forceReset s = resume maxTransactions (controllerStep
      { s with seq := .running .forceReset 0 (armProgram forceResetWord), result := none }) := by
  simp only [exec, execForceReset, beginForceReset, controllerTurn_of_enter s c _ henter hctl]
  rfl

theorem exec_setTimeout_of_enter (ts : Nat) :
    exec (.setTimeout ts) s = resume maxTransactions (controllerStep
      { s with
        ctl := some { c with timeout := ts }, result := none
        seq := .running .setTimeout 0 [.load (reloadOf ts), .restart] }) := by
  simp only [exec, execSetTimeout, beginSetTimeout, controllerTurn_of_enter s c _ henter hctl]
  rfl

end

/-- force_reset on the device, for every schedule: the arm sequence, then the wait. -/
theorem exec_forceReset_of_device (s : State) (c : Controller) (hrest : AtRest s) (hdev : s.iface = .device)
    (hctl : s.ctl = some c) (hword : c.ctrl ∈ mirrorWords) :
    exec .forceReset s = .next { s with
      dev := { s.dev with counter := 128000#32, reload := 128000#32, ctrl := c.ctrl ||| 1#32 }
      ctl := some { c with ctrl := c.ctrl ||| 1#32 }
      seq := .running .forceReset 4 [], blockUs := 1000000
      trace := s.trace ++ [.write .ctrl 0#32, .write .reloadValue 128000#32,
        .write .restart (s.par.restartMagic.setWidth 32), .write .ctrl (c.ctrl ||| 1#32)]
      result := none, moves := afterTurns (afterTurns (afterTurns s.moves)) } := by
  obtain ⟨hexp, hidle, hblock⟩ := hrest
  rw [exec_forceReset_of_enter s c ⟨hexp, hidle⟩ hctl]
  refine (arm_of_device 5 forceResetWord .forceReset 0 [] c _ rfl (by exact hdev) (by exact hexp) (by exact hblock)
    (by exact hctl) hword).trans ?_
  rw [settle_forceReset _ 4 rfl, runCall_of_not_pending 5 _ rfl]
  rfl

/-- Settles O20: with no turn scheduled the schedule stays empty. -/
theorem forceResetArmsAndBlocks : Obligations.ForceResetArmsAndBlocks := by
  unfold Obligations.ForceResetArmsAndBlocks
  intro s c hrest hdev hmoves hctl ⟨hword, _⟩
  rw [exec_forceReset_of_device s c hrest hdev hctl hword]
  simp [hmoves]

/-! ## The lost race -/

/-- Settles O19: the lapse after the first write passes the end of the countdown, and an expiry ends the call there. -/
theorem setTimeoutCanLoseTheRace : Obligations.SetTimeoutCanLoseTheRace := by
  unfold Obligations.SetTimeoutCanLoseTheRace
  intro s c ts hrest hctl hrun hlong
  obtain ⟨hexp, hidle, hblock⟩ := hrest
  have ⟨hdev, _⟩ := hrun
  let m : State := { s with
    dev := { s.dev with reload := reloadOf ts }, ctl := some { c with timeout := ts }
    trace := s.trace ++ [.write .reloadValue (reloadOf ts)]
    seq := .running .setTimeout 1 [.restart], result := none }
  obtain ⟨hcounter, hexpired⟩ := lapse_of_overrun m hrun hblock hlong
  have hsome : (lapse m).dev.expired ≠ none := by rw [hexpired]; nofun
  have hexec : exec (.setTimeout ts) s = .next (lapse m) := by
    rw [exec_setTimeout_of_enter s c ⟨hexp, hidle⟩ hctl,
      resume_controllerStep rfl (act_load_of_device _ _ (by exact hdev)), settle_of_pending _ rfl]
    exact (runCall_eq_next 7 m _).2 (.inr (.inl ⟨rfl, hsome, rfl⟩))
  exact ⟨lapse m, hexec, hsome, hcounter, lapse_dev_reload m, lapse_ctl m, lapse_trace m, lapse_result m⟩

/-! ## Pings -/

theorem execMany_one (i : Instr) (s : State) : execMany [i] s = exec i s := by
  rw [execMany]
  cases exec i s <;> rfl

/-- Settles O59: each ping copies the same reload value to the counter, and makes one entry. -/
theorem pingsAreIdempotentOnTheDevice : Obligations.PingsAreIdempotentOnTheDevice := by
  unfold Obligations.PingsAreIdempotentOnTheDevice
  intro n
  induction n with
  | zero =>
    intro s c henter hdev hctl
    exact ⟨_, (execMany_one .ping s).trans (pingReloadsCounter s c henter hdev hctl), rfl, rfl, rfl⟩
  | succ n ih =>
    intro s c henter hdev hctl
    obtain ⟨t, hmany, hdev', hctl', htrace⟩ := ih { s with
      dev := { s.dev with counter := s.dev.reload }
      trace := s.trace ++ [.write .restart (s.par.restartMagic.setWidth 32)]
      result := some .ok } c henter hdev hctl
    refine ⟨t, ?_, hdev', hctl', ?_⟩
    · rw [List.replicate_succ, execMany, pingReloadsCounter s c henter hdev hctl]
      exact hmany
    · rw [htrace, List.append_assoc, List.replicate_succ (n := n + 1)]
      rfl

end Sys2Proof.Machine
end

section
/-! PROOFS. The operations on the recording fake (40_register_interface R107, 95_test_vectors E7). -/

namespace Sys2Proof.Machine

/-! ## The controller's operations -/

/-- Nothing can happen between two transactions of a call on the fake. -/
theorem still_of_fake (s : State) (hrest : AtRest s) (hfake : s.iface = .fake) : Still s := by
  obtain ⟨hexp, -, hblock⟩ := hrest
  exact ⟨hexp, .inl ⟨.inr hfake, hblock⟩⟩

section
variable (s : State) (c : Controller) (hrest : AtRest s) (hfake : s.iface = .fake) (hctl : s.ctl = some c)
include hrest hfake hctl

theorem exec_start_of_fake (ts : Nat) :
    exec (.start ts) s = .next { s with
      store := { s.store with
        ctrl := c.ctrl ||| 1#32, reloadValue := reloadOf ts, restart := s.par.restartMagic.setWidth 32 }
      ctl := some { c with ctrl := c.ctrl ||| 1#32, timeout := ts }
      trace := s.trace ++ [.write .ctrl 0#32, .write .reloadValue (reloadOf ts),
        .write .restart (s.par.restartMagic.setWidth 32), .write .ctrl (c.ctrl ||| 1#32)]
      result := some .ok, moves := afterTurns (afterTurns (afterTurns s.moves)) } := by
  obtain ⟨hexp, hidle, hblock⟩ := hrest
  simp only [exec, execStart, beginStart, controllerTurn_of_enter s c _ ⟨hexp, hidle⟩ hctl]
  refine (arm_of_fake 5 (reloadOf ts) .start 0 [] { c with timeout := ts } _ rfl (by exact hfake) (by exact hexp)
    (by exact hblock) rfl).trans ?_
  rw [settle_last _ .start 4 rfl nofun, runCall_of_not_pending 5 _ rfl]
  simp [hidle, restartWord, Controller.enable, maskEn]

theorem exec_stop_of_fake :
    exec .stop s = .next { s with
      store := { s.store with ctrl := c.ctrl &&& ~~~1#32 }, ctl := some { c with ctrl := c.ctrl &&& ~~~1#32 }
      trace := s.trace ++ [.write .ctrl (c.ctrl &&& ~~~1#32)], result := some .ok } := by
  obtain ⟨hexp, hidle, -⟩ := hrest
  simp only [exec, execStop, beginStop, controllerTurn_of_enter s c _ ⟨hexp, hidle⟩ hctl]
  refine resume_last rfl (act_writeMirror_of_fake _ c.disable (by exact hfake) rfl) rfl nofun ?_
  simp [hidle, Controller.disable, maskEn]

theorem exec_ping_of_fake :
    exec .ping s = .next { s with
      store := { s.store with restart := s.par.restartMagic.setWidth 32 }
      trace := s.trace ++ [.write .restart (s.par.restartMagic.setWidth 32)], result := some .ok } := by
  obtain ⟨hexp, hidle, -⟩ := hrest
  simp only [exec, execPing, beginPing, controllerTurn_of_enter s c _ ⟨hexp, hidle⟩ hctl]
  refine resume_last rfl (act_restart_of_fake _ (by exact hfake)) rfl nofun ?_
  simp [hidle, restartWord]

theorem exec_setTimeout_of_fake (ts : Nat) :
    exec (.setTimeout ts) s = .next { s with
      store := { s.store with reloadValue := reloadOf ts, restart := s.par.restartMagic.setWidth 32 }
      ctl := some { c with timeout := ts }
      trace := s.trace ++ [.write .reloadValue (reloadOf ts), .write .restart (s.par.restartMagic.setWidth 32)]
      result := some .ok, moves := afterTurns s.moves } := by
  have hstill := still_of_fake s hrest hfake
  obtain ⟨hexp, hidle, -⟩ := hrest
  rw [exec_setTimeout_of_enter s c ⟨hexp, hidle⟩ hctl]
  refine resume_stage rfl (act_load_of_fake _ _ (by exact hfake)) rfl (by exact hstill) ?_
  refine resume_last rfl (act_restart_of_fake _ (by exact hfake)) rfl nofun ?_
  simp [hidle, restartWord]

theorem exec_forceReset_of_fake :
    exec .forceReset s = .next { s with
      store := { s.store with
        ctrl := c.ctrl ||| 1#32, reloadValue := 128000#32, restart := s.par.restartMagic.setWidth 32 }
      ctl := some { c with ctrl := c.ctrl ||| 1#32 }
      seq := .running .forceReset 4 [], blockUs := 1000000
      trace := s.trace ++ [.write .ctrl 0#32, .write .reloadValue 128000#32,
        .write .restart (s.par.restartMagic.setWidth 32), .write .ctrl (c.ctrl ||| 1#32)]
      result := none, moves := afterTurns (afterTurns (afterTurns s.moves)) } := by
  obtain ⟨hexp, hidle, hblock⟩ := hrest
  rw [exec_forceReset_of_enter s c ⟨hexp, hidle⟩ hctl]
  refine (arm_of_fake 5 forceResetWord .forceReset 0 [] c _ rfl (by exact hfake) (by exact hexp) (by exact hblock)
    (by exact hctl)).trans ?_
  rw [settle_forceReset _ 4 rfl, runCall_of_not_pending 5 _ rfl]
  rfl

end

/-- The fake has no counter, so TIME only lowers a wait. -/
theorem exec_time_of_fake (s : State) (hexp : s.dev.expired = none) (hfake : s.iface = .fake) :
    exec .time s = .next { s with blockUs := s.blockUs - 1 } := by
  rw [exec_time_of_not_due s hexp (not_due_of_halted s (.inr hfake)), passMicrosecond,
    tickCounter_of_halted s (.inr hfake)]
  rfl

/-- Settles O22: nothing can happen between the transactions, and each is a plain store. -/
theorem fakeRecordsOperationWrites : Obligations.FakeRecordsOperationWrites := by
  unfold Obligations.FakeRecordsOperationWrites
  intro s c ts hrest hfake hctl
  exact ⟨⟨_, exec_start_of_fake s c hrest hfake hctl ts⟩, exec_stop_of_fake s c hrest hfake hctl,
    exec_ping_of_fake s c hrest hfake hctl, ⟨_, exec_setTimeout_of_fake s c hrest hfake hctl ts⟩,
    ⟨_, exec_forceReset_of_fake s c hrest hfake hctl⟩,
    fun us => exec_time_of_fake { s with blockUs := us } hrest.1 hfake⟩

/-! ## The configurator and attach -/

/-- The arm sequence before other transactions, on the fake. -/
theorem arm_before_of_fake (n : Nat) (count : Word) (op : OpName) (k : Nat) (a : Action) (l : List Action)
    (c : Controller) (s : State) (hseq : s.seq = .running op k (armProgram count ++ a :: l)) (hfake : s.iface = .fake)
    (hexp : s.dev.expired = none) (hblock : s.blockUs = 0) (hctl : s.ctl = some c) :
    resume (n + 4) (controllerStep s) = resume n (controllerStep { s with
      store := { s.store with ctrl := c.ctrl ||| 1#32, reloadValue := count, restart := restartWord s.par }
      ctl := some c.enable
      trace := s.trace ++ [.write .ctrl 0#32, .write .reloadValue count, .write .restart (restartWord s.par),
        .write .ctrl (c.ctrl ||| 1#32)]
      seq := .running op (k + 4) (a :: l)
      moves := afterTurns (afterTurns (afterTurns (afterTurns s.moves))) }) := by
  rw [arm_of_fake (n + 1) count op k (a :: l) c s hseq hfake hexp hblock hctl, settle_of_pending _ rfl]
  exact runCall_of_still n _ ⟨hexp, .inl ⟨.inr hfake, hblock⟩⟩ rfl

section
variable (s : State) (hrest : AtRest s) (hfake : s.iface = .fake)
include hrest hfake

section
variable (c : Controller) (hctl : s.ctl = some c)
include hctl

theorem exec_setDriveMode_of_fake (b : Bool) :
    exec (.setDriveMode b) s = .next { s with
      store := { s.store with
        resetWidth := rwwWord (selDrive s.par b) 0#12 (s.store.resetWidth.extractLsb' 0 12) }
      trace := s.trace ++ [.read .resetWidth s.store.resetWidth,
        .write .resetWidth (rwwWord (selDrive s.par b) 0#12 (s.store.resetWidth.extractLsb' 0 12))]
      result := some .ok, latch := s.store.resetWidth &&& durMask, moves := afterTurns s.moves } := by
  have hstill := still_of_fake s hrest hfake
  obtain ⟨hexp, hidle, -⟩ := hrest
  rw [exec_setDriveMode_of_enter s c ⟨hexp, hidle⟩ hctl]
  refine (retag_of_fake 7 _ (selDrive s.par b) .setDriveMode 0 _ (by exact .inl ⟨b, rfl, rfl⟩) rfl nofun (by exact hfake)
    (by exact hstill)).trans ?_
  simp [hidle]

theorem exec_setPolarity_of_fake (b : Bool) :
    exec (.setPolarity b) s = .next { s with
      store := { s.store with
        resetWidth := rwwWord (selPol s.par b) 0#12 (s.store.resetWidth.extractLsb' 0 12) }
      trace := s.trace ++ [.read .resetWidth s.store.resetWidth,
        .write .resetWidth (rwwWord (selPol s.par b) 0#12 (s.store.resetWidth.extractLsb' 0 12))]
      result := some .ok, latch := s.store.resetWidth &&& durMask, moves := afterTurns s.moves } := by
  have hstill := still_of_fake s hrest hfake
  obtain ⟨hexp, hidle, -⟩ := hrest
  rw [exec_setPolarity_of_enter s c ⟨hexp, hidle⟩ hctl]
  refine (retag_of_fake 7 _ (selPol s.par b) .setPolarity 0 _ (by exact .inr ⟨b, rfl, rfl⟩) rfl nofun (by exact hfake)
    (by exact hstill)).trans ?_
  simp [hidle]

end

variable (cfg : ResolvedConfiguration) (hd : DurationOk cfg.pulseDurationTicks) (dur : BitVec 12)
  (hdur : dur = (cfg.pulseDurationTicks.map (BitVec.ofNat 12)).getD (s.store.resetWidth.extractLsb' 0 12))
include hd hdur

theorem exec_configureResetSignal_of_fake (c : Controller) (hctl : s.ctl = some c) :
    exec (.configureResetSignal cfg) s = .next { s with
      store := { s.store with resetWidth := rwwWord (selPol s.par cfg.activeHigh) 0#12 dur }
      trace := s.trace ++ [.read .resetWidth s.store.resetWidth,
        .write .resetWidth (rwwWord (selDrive s.par cfg.pushPull) 0#12 dur),
        .write .resetWidth (rwwWord (selPol s.par cfg.activeHigh) 0#12 dur)]
      result := some .ok, latch := chosenDuration cfg.pulseDurationTicks s.store.resetWidth
      moves := afterTurns (afterTurns s.moves) } := by
  have hstill := still_of_fake s hrest hfake
  obtain ⟨hexp, hidle, -⟩ := hrest
  rw [exec_configureResetSignal_of_enter s c ⟨hexp, hidle⟩ hctl cfg hd]
  refine (configure_of_fake 6 cfg .configureResetSignal 0 _ rfl nofun (by exact hfake) hd (by exact hstill)).trans ?_
  simp [hidle, hdur]

theorem exec_attach_of_stopped_fake (hctl : s.ctl = none) (hen : s.store.ctrl.getLsbD 0 = false) :
    exec (.attach cfg) s = .next { s with
      store := { s.store with resetWidth := rwwWord (selPol s.par cfg.activeHigh) 0#12 dur }
      ctl := some { ctrl := encCtrlFlags cfg, timeout := s.par.defaultTimeoutS, maxHwHeartbeatMs := 4294967 }
      trace := s.trace ++ [.read .ctrl s.store.ctrl, .read .resetWidth s.store.resetWidth,
        .write .resetWidth (rwwWord (selDrive s.par cfg.pushPull) 0#12 dur),
        .write .resetWidth (rwwWord (selPol s.par cfg.activeHigh) 0#12 dur)]
      result := some .ok, latch := chosenDuration cfg.pulseDurationTicks s.store.resetWidth
      moves := afterTurns (afterTurns (afterTurns s.moves)) } := by
  have hstill := still_of_fake s hrest hfake
  obtain ⟨hexp, hidle, hblock⟩ := hrest
  rw [exec_attach_of_enter s cfg ⟨hexp, hidle⟩ hctl hd]
  refine resume_stage rfl (act_takeOver_of_fake _ _ false (by exact hfake) hen) rfl (by exact hstill) ?_
  refine (configure_of_fake 5 cfg .attach 1 _ rfl nofun (by exact hfake) hd
    (by exact ⟨hexp, .inl ⟨.inr hfake, hblock⟩⟩)).trans ?_
  simp [hidle, hdur, newController, Config.maxHwHeartbeatMs]

theorem exec_attach_of_running_fake (hctl : s.ctl = none) (hen : s.store.ctrl.getLsbD 0 = true) :
    exec (.attach cfg) s = .next { s with
      store := { s.store with
        ctrl := encCtrlFlags cfg ||| 1#32, reloadValue := reloadOf s.par.defaultTimeoutS
        restart := s.par.restartMagic.setWidth 32, resetWidth := rwwWord (selPol s.par cfg.activeHigh) 0#12 dur }
      ctl := some {
        ctrl := encCtrlFlags cfg ||| 1#32, timeout := s.par.defaultTimeoutS, maxHwHeartbeatMs := 4294967 }
      trace := s.trace ++ [.read .ctrl s.store.ctrl,
        .write .ctrl 0#32, .write .reloadValue (reloadOf s.par.defaultTimeoutS),
        .write .restart (s.par.restartMagic.setWidth 32), .write .ctrl (encCtrlFlags cfg ||| 1#32),
        .read .resetWidth s.store.resetWidth,
        .write .resetWidth (rwwWord (selDrive s.par cfg.pushPull) 0#12 dur),
        .write .resetWidth (rwwWord (selPol s.par cfg.activeHigh) 0#12 dur)]
      result := some .ok, latch := chosenDuration cfg.pulseDurationTicks s.store.resetWidth
      moves := afterTurns (afterTurns (afterTurns (afterTurns (afterTurns (afterTurns (afterTurns s.moves)))))) } := by
  have hstill := still_of_fake s hrest hfake
  obtain ⟨hexp, hidle, hblock⟩ := hrest
  rw [exec_attach_of_enter s cfg ⟨hexp, hidle⟩ hctl hd]
  refine resume_stage rfl (act_takeOver_of_fake _ _ true (by exact hfake) hen) rfl (by exact hstill) ?_
  refine (arm_before_of_fake 3 (reloadOf s.par.defaultTimeoutS) .attach 1 _ _ (newController s.par cfg) _
    rfl (by exact hfake) (by exact hexp) (by exact hblock) rfl).trans ?_
  refine (configure_of_fake 1 cfg .attach 5 _ rfl nofun (by exact hfake) hd
    (by exact ⟨hexp, .inl ⟨.inr hfake, hblock⟩⟩)).trans ?_
  simp [hidle, hdur, newController, Config.maxHwHeartbeatMs, restartWord, Controller.enable, maskEn]

end

/-- Settles O23: as for O22; EN of the stored CTRL word decides whether attach makes the arm sequence. -/
theorem fakeRecordsConfiguratorAndAttach : Obligations.FakeRecordsConfiguratorAndAttach := by
  unfold Obligations.FakeRecordsConfiguratorAndAttach
  rintro s cfg dur old drv pol hrest hfake hd rfl hdur rfl rfl
  refine ⟨fun hctl => ?_, fun hctl hen => ?_, fun hctl hen => ?_⟩
  · obtain ⟨c, hc⟩ := Option.ne_none_iff_exists'.1 hctl
    exact ⟨⟨_, _, exec_setDriveMode_of_fake s hrest hfake c hc cfg.pushPull⟩,
      ⟨_, _, exec_setPolarity_of_fake s hrest hfake c hc cfg.activeHigh⟩,
      ⟨_, _, exec_configureResetSignal_of_fake s hrest hfake cfg hd dur hdur c hc⟩⟩
  · exact ⟨_, _, exec_attach_of_stopped_fake s hrest hfake cfg hd dur hdur hctl hen⟩
  · exact ⟨_, _, exec_attach_of_running_fake s hrest hfake cfg hd dur hdur hctl hen⟩

end Sys2Proof.Machine
end

section
/-! PROOFS. What holds of the operations together: the two shapes of the configurator (42_reset_signal R136), and that
every operation answers (41_controller R120, R121). -/

namespace Sys2Proof.Machine

/-! ## One read or two -/

@[simp] theorem writesOf_append (l l' : List Transaction) : writesOf (l ++ l') = writesOf l ++ writesOf l' := by
  induction l with
  | nil => rfl
  | cons e l ih => cases e <;> simp [writesOf, ih]

theorem rwwWord_low (sel : BitVec 8) (zero dur : BitVec 12) : (rwwWord sel zero dur).extractLsb' 0 12 = dur := by
  obtain ⟨-, -, hlow⟩ := rwwWord_fields sel zero dur
  exact hlow

theorem execMany_two {i j : Instr} {s u v : State} (hi : exec i s = .next u) (hj : exec j u = .next v) :
    execMany [i, j] s = .next v := by
  rw [execMany, hi]
  exact (execMany_one j u).trans hj

/-- set_drive_mode on the device, when nothing can happen inside it, with what it leaves of the schedule. -/
theorem exec_setDriveMode_of_still (s : State) (c : Controller) (b : Bool) (henter : CallMayEnter s)
    (hctl : s.ctl = some c) (hdev : s.iface = .device) (hp : s.par.Distinct) (hstill : Still s) :
    exec (.setDriveMode b) s = .next { s with
      dev := { s.dev with rwDrive := b }
      trace := s.trace ++ [.read .resetWidth (deviceRead .resetWidth s.dev s.free),
        .write .resetWidth (rwwWord (selDrive s.par b) 0#12 s.dev.rwDur)]
      result := some .ok, latch := deviceRead .resetWidth s.dev s.free &&& durMask
      moves := afterTurns s.moves, free := redraw .resetWidth s.free } := by
  rw [exec_setDriveMode_of_enter s c henter hctl b]
  refine (retag_drive_of_device 7 b .setDriveMode 0 _ rfl nofun (by exact hdev) (by exact hp) (by exact hstill)).trans ?_
  simp [henter.2]

/-- Settles O30: the second read sees the duration that the drive-mode write has left as it was. -/
theorem oneReadShapeEqualsTwoReadShape : Obligations.OneReadShapeEqualsTwoReadShape := by
  unfold Obligations.OneReadShapeEqualsTwoReadShape
  intro s cfg hrest hp hmoves hctl hnone
  have hd : DurationOk cfg.pulseDurationTicks := by rw [hnone]; nofun
  obtain ⟨c, hc⟩ := Option.ne_none_iff_exists'.1 hctl
  obtain hdev | hfake : s.iface = .device ∨ s.iface = .fake := by cases s.iface <;> simp
  · obtain ⟨w, ms, f, l, -, hone⟩ := configureWritesDriveThenPolarity s cfg hrest hp hdev hctl (.inr hmoves) hd
    have hstill : Still s := still_of_atRest s hrest (.inr hmoves)
    have ⟨hexp, hidle, hblock⟩ := hrest
    have hdrive := exec_setDriveMode_of_still s c cfg.pushPull ⟨hexp, hidle⟩ hc hdev hp hstill
    obtain ⟨-, w', ms', f', l', -, hpol⟩ := taggedUpdatesKeepDuration
      { s with
        dev := { s.dev with rwDrive := cfg.pushPull }
        trace := s.trace ++ [.read .resetWidth (deviceRead .resetWidth s.dev s.free),
          .write .resetWidth (rwwWord (selDrive s.par cfg.pushPull) 0#12 s.dev.rwDur)]
        result := some .ok, latch := deviceRead .resetWidth s.dev s.free &&& durMask
        moves := afterTurns s.moves, free := redraw .resetWidth s.free }
      cfg.activeHigh hrest hp hdev hctl (.inr (by simp [hmoves]))
    refine ⟨_, _, hone, execMany_two hdrive hpol, ?_, rfl, ?_⟩
    · simp [hnone]
    · simp [hnone, writesOf, rwwWord, selDrive]
  · have hone := exec_configureResetSignal_of_fake s hrest hfake cfg hd _ rfl c hc
    have hdrive := exec_setDriveMode_of_fake s hrest hfake c hc cfg.pushPull
    refine ⟨_, _, hone, execMany_two hdrive (exec_setPolarity_of_fake _ (by exact hrest) (by exact hfake) c
      (by exact hc) cfg.activeHigh), rfl, ?_, ?_⟩
    · simp [hnone, rwwWord_low]
    · simp [hnone, writesOf, rwwWord_low]

/-! ## Every operation answers -/

/-- The call has returned with this answer, at an operation boundary. -/
def Returned (r : CallResult) (t : State) : Prop := t.seq = .idle ∧ t.blockUs = 0 ∧ t.result = some r

theorem Configured.returned {dur : BitVec 12} {drive pol : Bool} {s t : State} (hblock : s.blockUs = 0)
    (h : Configured dur drive pol s t) : Returned .ok t := by
  obtain ⟨⟨-, -, -, -, -, hkept⟩, -, -, -, hidle, hok⟩ := h
  exact ⟨hidle, hkept hblock, hok⟩

section
variable (s : State) (c : Controller) (hrest : AtRest s) (hctl : s.ctl = some c)
include hrest hctl

theorem exec_start_returns (hsound : c.Sound) (ts : Nat) : Answers (Returned .ok) (exec (.start ts) s) := by
  have ⟨_, hidle, hblock⟩ := hrest
  obtain hdev | hfake : s.iface = .device ∨ s.iface = .fake := by cases s.iface <;> simp
  · obtain ⟨ms, h⟩ := startArmsTimer s c ts hrest hdev hctl hsound
    exact answers_of_next h ⟨hidle, hblock, rfl⟩
  · exact answers_of_next (exec_start_of_fake s c hrest hfake hctl ts) ⟨hidle, hblock, rfl⟩

theorem exec_stop_returns (hsound : c.Sound) : Answers (Returned .ok) (exec .stop s) := by
  have ⟨hexp, hidle, hblock⟩ := hrest
  obtain hdev | hfake : s.iface = .device ∨ s.iface = .fake := by cases s.iface <;> simp
  · exact answers_of_next (stopHaltsTimer s c ⟨hexp, hidle⟩ hdev hctl hsound) ⟨hidle, hblock, rfl⟩
  · exact answers_of_next (exec_stop_of_fake s c hrest hfake hctl) ⟨hidle, hblock, rfl⟩

theorem exec_ping_returns : Answers (Returned .ok) (exec .ping s) := by
  have ⟨hexp, hidle, hblock⟩ := hrest
  obtain hdev | hfake : s.iface = .device ∨ s.iface = .fake := by cases s.iface <;> simp
  · exact answers_of_next (pingReloadsCounter s c ⟨hexp, hidle⟩ hdev hctl) ⟨hidle, hblock, rfl⟩
  · exact answers_of_next (exec_ping_of_fake s c hrest hfake hctl) ⟨hidle, hblock, rfl⟩

theorem exec_setTimeout_returns (ts : Nat) : Answers (Returned .ok) (exec (.setTimeout ts) s) := by
  have ⟨hexp, hidle, hblock⟩ := hrest
  obtain hdev | hfake : s.iface = .device ∨ s.iface = .fake := by cases s.iface <;> simp
  · rw [exec_setTimeout_of_enter s c ⟨hexp, hidle⟩ hctl]
    refine answers_stage rfl (act_load_of_device _ _ (by exact hdev)) rfl fun u hu hseq _ => ?_
    obtain ⟨⟨-, -, hiface, -, -, hkept⟩, -⟩ := hu
    exact answers_of_next (resume_last hseq (act_restart_of_device _ (by exact hiface.trans hdev)) rfl nofun rfl)
      ⟨rfl, hkept hblock, rfl⟩
  · exact answers_of_next (exec_setTimeout_of_fake s c hrest hfake hctl ts) ⟨hidle, hblock, rfl⟩

theorem exec_forceReset_answers (hsound : c.Sound) : ∃ t, exec .forceReset s = .next t := by
  obtain hdev | hfake : s.iface = .device ∨ s.iface = .fake := by cases s.iface <;> simp
  · exact ⟨_, exec_forceReset_of_device s c hrest hdev hctl hsound.1⟩
  · exact ⟨_, exec_forceReset_of_fake s c hrest hfake hctl⟩

variable (hp : s.par.Distinct)
include hp

theorem exec_configureResetSignal_returns (cfg : ResolvedConfiguration) (hd : DurationOk cfg.pulseDurationTicks) :
    Answers (Returned .ok) (exec (.configureResetSignal cfg) s) := by
  have ⟨hexp, hidle, hblock⟩ := hrest
  obtain hdev | hfake : s.iface = .device ∨ s.iface = .fake := by cases s.iface <;> simp
  · exact answers_mono (exec_configureResetSignal_answers s c ⟨hexp, hidle⟩ hctl hdev hp cfg hd)
      fun _ ht => ht.returned hblock
  · exact answers_of_next (exec_configureResetSignal_of_fake s hrest hfake cfg hd _ rfl c hctl) ⟨hidle, hblock, rfl⟩

theorem exec_setDriveMode_returns (b : Bool) : Answers (Returned .ok) (exec (.setDriveMode b) s) := by
  have ⟨hexp, hidle, hblock⟩ := hrest
  obtain hdev | hfake : s.iface = .device ∨ s.iface = .fake := by cases s.iface <;> simp
  · exact answers_mono (exec_setDriveMode_answers s c ⟨hexp, hidle⟩ hctl hdev hp b) fun _ ht => ht.returned hblock
  · exact answers_of_next (exec_setDriveMode_of_fake s hrest hfake c hctl b) ⟨hidle, hblock, rfl⟩

theorem exec_setPolarity_returns (b : Bool) : Answers (Returned .ok) (exec (.setPolarity b) s) := by
  have ⟨hexp, hidle, hblock⟩ := hrest
  obtain hdev | hfake : s.iface = .device ∨ s.iface = .fake := by cases s.iface <;> simp
  · exact answers_mono (exec_setPolarity_answers s c ⟨hexp, hidle⟩ hctl hdev hp b) fun _ ht => ht.returned hblock
  · exact answers_of_next (exec_setPolarity_of_fake s hrest hfake c hctl b) ⟨hidle, hblock, rfl⟩

end

theorem durationOk_of_durationFits (d : Option Nat) (h : durationFits d = true) : DurationOk d := by
  rintro n rfl
  exact of_decide_eq_true h

/-- What an operation but force_reset has given back, at an operation boundary (41_controller R121). -/
def GivesBack (c : Controller) (i : Instr) (t : State) : Prop :=
  t.seq = .idle ∧ t.blockUs = 0 ∧
    (t.result = some .ok ∨
      (i = .currentTimeout ∧ t.result = some (.number c.timeout)) ∨
      (i = .maxTimeout ∧ t.result = some (.number 4294967)) ∨
      ∃ n, 4095 < n ∧ i = .validatePulseDuration (some n) ∧ t.result = some (.configurationError n))

theorem Returned.givesBack {c : Controller} {i : Instr} {t : State} (h : Returned .ok t) : GivesBack c i t := by
  obtain ⟨hidle, hblock, hresult⟩ := h
  exact ⟨hidle, hblock, .inl hresult⟩

/-- Settles O25: operation by operation, each by what it answers on the device and on the fake. -/
theorem operationsAlwaysReturn : Obligations.OperationsAlwaysReturn := by
  unfold Obligations.OperationsAlwaysReturn
  intro s c i hrest hp hctl hsound hlevel hattach hwf
  show ∃ t, exec i s = .next t ∧ (t.dev.expired = none → i ≠ .forceReset → GivesBack c i t)
  have hok (h : Answers (Returned .ok) (exec i s)) :
      ∃ t, exec i s = .next t ∧ (t.dev.expired = none → i ≠ .forceReset → GivesBack c i t) := by
    obtain ⟨t, ht, hreturned⟩ := h
    exact ⟨t, ht, fun hexp _ => (hreturned hexp).givesBack⟩
  have ⟨hexp, hidle, hblock⟩ := hrest
  obtain ⟨hcurrent, hmax⟩ := queriesReportControllerFields s c ⟨hexp, hidle⟩ hctl
  cases i <;> cases hlevel
  case attach cfg => exact absurd rfl (hattach cfg)
  case start ts => exact hok (exec_start_returns s c hrest hctl hsound ts)
  case stop => exact hok (exec_stop_returns s c hrest hctl hsound)
  case ping => exact hok (exec_ping_returns s c hrest hctl)
  case setTimeout ts => exact hok (exec_setTimeout_returns s c hrest hctl ts)
  case forceReset =>
    obtain ⟨t, ht⟩ := exec_forceReset_answers s c hrest hctl hsound
    exact ⟨t, ht, fun _ hne => absurd rfl hne⟩
  case configureResetSignal cfg =>
    exact hok (exec_configureResetSignal_returns s c hrest hctl hp cfg (durationOk_of_durationFits _ hwf))
  case setDriveMode b => exact hok (exec_setDriveMode_returns s c hrest hctl hp b)
  case setPolarity b => exact hok (exec_setPolarity_returns s c hrest hctl hp b)
  case currentTimeout => exact ⟨_, hcurrent, fun _ _ => ⟨hidle, hblock, .inr (.inl ⟨rfl, rfl⟩)⟩⟩
  case maxTimeout => exact ⟨_, hmax hsound, fun _ _ => ⟨hidle, hblock, .inr (.inr (.inl ⟨rfl, rfl⟩))⟩⟩
  case validatePulseDuration d =>
    obtain ⟨haccept, hreject⟩ := validationAcceptsUpTo4095 s d ⟨hexp, hidle⟩ (by simp [hctl])
    by_cases hd : DurationOk d
    · exact hok (answers_of_next (haccept hd) ⟨hidle, hblock, rfl⟩)
    · simp only [DurationOk, not_forall, Nat.not_le] at hd
      obtain ⟨n, rfl, hlong⟩ := hd
      exact ⟨_, hreject n rfl hlong, fun _ _ => ⟨hidle, hblock, .inr (.inr (.inr ⟨n, hlong, rfl, rfl⟩))⟩⟩

end Sys2Proof.Machine
end

section
/-! PROOFS. Runs of steps: the countdown with nobody else moving (43_counter R150, R153), and the steps that make up an
instruction (10_state R27). -/

namespace Sys2Proof.Machine

/-! ## The countdown -/

theorem toNat_sub_one (w : Word) (h : w ≠ 0#32) : (w - 1#32).toNat = w.toNat - 1 := by
  have hpos : w.toNat ≠ 0 := fun hzero => h (BitVec.eq_of_toNat_eq hzero)
  rw [BitVec.toNat_sub]
  have := w.isLt
  simp
  omega

/-- For that many steps nobody but the counter agent can move: there is nothing to call, or the caller of force_reset
waits longer. -/
def LeftAlone (k : Nat) (s : State) : Prop :=
  (s.seq = .idle ∧ s.inbox = []) ∨ ∃ j, s.seq = .running .forceReset j [] ∧ k ≤ s.blockUs

theorem LeftAlone.onlyCounter {k : Nat} {s : State} (h : LeftAlone (k + 1) s) : onlyCounter s = true := by
  obtain ⟨hidle, hinbox⟩ | ⟨j, hseq, hk⟩ := h
  · exact onlyCounter_of_silent s hidle hinbox
  · exact onlyCounter_of_waiting s s.blockUs (by omega) ⟨j, hseq, rfl⟩

/-- The state after `k` ticks of a running timer. -/
def ticked (k : Nat) (s : State) : State :=
  { s with dev := { s.dev with counter := s.dev.counter - BitVec.ofNat 32 k }, blockUs := s.blockUs - k }

theorem LeftAlone.ticked {k : Nat} {s : State} (j : Nat) (h : LeftAlone (k + j) s) : LeftAlone k (ticked j s) :=
  h.imp id fun ⟨i, hseq, hle⟩ => ⟨i, hseq, Nat.le_sub_of_add_le hle⟩

theorem LeftAlone.mono {k l : Nat} {s : State} (hle : k ≤ l) (h : LeftAlone l s) : LeftAlone k s :=
  h.imp id fun ⟨i, hseq, hl⟩ => ⟨i, hseq, hle.trans hl⟩

theorem ticked_zero (s : State) : ticked 0 s = s := by simp [ticked]

theorem ticked_succ (k : Nat) (s : State) : ticked (k + 1) s = ticked k (ticked 1 s) := by
  have hcounter : s.dev.counter - BitVec.ofNat 32 (k + 1) = s.dev.counter - 1#32 - BitVec.ofNat 32 k := by
    rw [BitVec.ofNat_add]
    ring
  simp [ticked, hcounter, Nat.sub_sub, Nat.add_comm]

theorem step_of_counting (s : State) (hrun : Running s) (honly : onlyCounter s = true) (hcount : s.dev.counter ≠ 0#32) :
    step s = .next (ticked 1 s) := by
  have ⟨_, hexp, _⟩ := hrun
  rw [step_of_onlyCounter s hexp honly, counterTurn_of_not_due s (not_due_of_counter_ne_zero s hcount), passMicrosecond,
    tickCounter_of_running s hrun hcount]
  rfl

/-- A running timer loses one a step. -/
theorem stepMany_of_counting (k : Nat) : ∀ s : State, Running s → LeftAlone k s → k ≤ s.dev.counter.toNat →
    stepMany k s = .next (ticked k s) := by
  induction k with
  | zero =>
    intro s _ _ _
    rw [ticked_zero]
    rfl
  | succ k ih =>
    intro s hrun halone hk
    have hcount : s.dev.counter ≠ 0#32 := by
      intro hzero
      rw [hzero] at hk
      simp at hk
    have hone : (ticked 1 s).dev.counter.toNat = s.dev.counter.toNat - 1 := toNat_sub_one _ hcount
    calc stepMany (k + 1) s
        = stepMany k (ticked 1 s) := stepMany_succ k s _ (step_of_counting s hrun halone.onlyCounter hcount)
      _ = .next (ticked k (ticked 1 s)) := ih _ hrun (halone.ticked 1) (by omega)
      _ = .next (ticked (k + 1) s) := by rw [← ticked_succ k s]

/-- After as many steps as the counter held, the next one is the expiry. -/
theorem stepMany_to_expiry (s : State) (hrun : Running s) (halone : LeftAlone (s.dev.counter.toNat + 1) s) :
    stepMany (s.dev.counter.toNat + 1) s = .next (takeExpiry (ticked s.dev.counter.toNat s)) := by
  have hzero : (ticked s.dev.counter.toNat s).dev.counter = 0#32 := by
    simp [ticked]
  have hdue : Due (ticked s.dev.counter.toNat s) := by
    obtain ⟨hdev, hexp, hen, -⟩ := hrun
    exact ⟨hdev, hexp, hen, hzero⟩
  have honly : onlyCounter (ticked s.dev.counter.toNat s) = true :=
    LeftAlone.onlyCounter (k := 0) (.ticked _ (halone.mono (by omega)))
  calc stepMany (s.dev.counter.toNat + 1) s
      = stepMany 1 (ticked s.dev.counter.toNat s) :=
        stepMany_add _ 1 s _ (stepMany_of_counting _ s hrun (halone.mono (by omega)) le_rfl)
    _ = stepMany 0 (counterTurn (ticked s.dev.counter.toNat s)) :=
        stepMany_succ 0 _ _ (step_of_onlyCounter _ hdue.2.1 honly)
    _ = .next (takeExpiry (ticked s.dev.counter.toNat s)) := by rw [counterTurn_of_due _ hdue, stepMany]

/-- The expiry, with the pulse of R164 written out. -/
theorem takeExpiry_eq (s : State) :
    takeExpiry s = { s with dev := { s.dev with
      expired := some (expiryActions s.dev)
      irqLine := s.dev.irqLine || s.dev.ctrl.getLsbD 2
      extPulse := if s.dev.ctrl.getLsbD 3
        then some { ticks := s.dev.rwDur, activeHigh := s.dev.rwPol, pushPull := s.dev.rwDrive }
        else s.dev.extPulse } } := by
  rw [← takeExpiry_extPulse]
  rfl

/-- Settles O38: a step is a tick while the counter is not zero, and then the expiry. -/
theorem runningTimerExpiresOnTime : Obligations.RunningTimerExpiresOnTime := by
  unfold Obligations.RunningTimerExpiresOnTime
  intro s hrun hidle hblock hinbox
  constructor
  · intro k hk
    rw [stepMany_of_counting k s hrun (.inl ⟨hidle, hinbox⟩) hk]
    simp [ticked, hblock]
  · refine ⟨expiryActions (ticked s.dev.counter.toNat s).dev, ?_⟩
    rw [stepMany_to_expiry s hrun (.inl ⟨hidle, hinbox⟩)]
    simp [takeExpiry_eq, ticked, hblock]

/-- A mirror word with EN resets some part of the system, and does not interrupt. -/
theorem expiryActions_of_mirror (d : Device) (w : Word) (hw : w ∈ mirrorWords) (hctrl : d.ctrl = w ||| 1#32) :
    expiryActions d = .actions (some (scopeOf d.ctrl)) false (pulseOf d) := by
  obtain ⟨-, hrst, hintr, -⟩ := mirrorWords_or_en_bits w hw
  rw [← hctrl] at hrst hintr
  rw [expiryActions_of_action d (.inl hrst), hrst, hintr, if_pos rfl]

/-- A timer armed with a mirror word and then left alone does not expire while it counts, and then resets. -/
theorem reset_after_countdown (s : State) (w : Word) (hw : w ∈ mirrorWords) (hctrl : s.dev.ctrl = w ||| 1#32)
    (hdev : s.iface = .device) (hexp : s.dev.expired = none) (halone : LeftAlone (s.dev.counter.toNat + 1) s) :
    (∀ k, k ≤ s.dev.counter.toNat → ∃ u, stepMany k s = .next u ∧ u.dev.expired = none) ∧
    ∃ u scope pulse, stepMany (s.dev.counter.toNat + 1) s = .next u ∧
      u.dev.expired = some (.actions (some scope) false pulse) ∧ u.result = s.result ∧ u.inbox = s.inbox := by
  obtain ⟨hen, -, -, hclk⟩ := mirrorWords_or_en_bits w hw
  have hrun : Running s := ⟨hdev, hexp, by rw [hctrl]; exact hen, by rw [hctrl]; exact hclk⟩
  constructor
  · intro k hk
    exact ⟨_, stepMany_of_counting k s hrun (halone.mono (by omega)) hk, hexp⟩
  · have hactions := expiryActions_of_mirror (ticked s.dev.counter.toNat s).dev w hw hctrl
    exact ⟨_, _, _, stepMany_to_expiry s hrun halone, congrArg some hactions, rfl, rfl⟩

/-- Settles O39: start leaves a timer that runs with the reload word in the counter. -/
theorem startThenSilenceResetsOnTime : Obligations.StartThenSilenceResetsOnTime := by
  unfold Obligations.StartThenSilenceResetsOnTime
  intro s c ts hrest hdev hctl hsound hinbox
  obtain ⟨t, hexec, hcounter, hctrl, hdev', hexp, hidle, hinbox'⟩ : ∃ t, exec (.start ts) s = .next t ∧
      t.dev.counter = reloadOf ts ∧ t.dev.ctrl = c.ctrl ||| 1#32 ∧ t.iface = .device ∧ t.dev.expired = none ∧
      t.seq = .idle ∧ t.inbox = [] := by
    obtain ⟨ms, hexec⟩ := startArmsTimer s c ts hrest hdev hctl hsound
    obtain ⟨hexp, hidle, -⟩ := hrest
    exact ⟨_, hexec, rfl, rfl, hdev, hexp, hidle, hinbox⟩
  have hticks : t.dev.counter.toNat = min (ts * 1000) 4294967 * 1000 := by
    rw [hcounter]
    exact reloadOf_toNat ts
  obtain ⟨hword, -⟩ := hsound
  obtain ⟨hcount, u, scope, pulse, hsteps, hexpired, -⟩ :=
    reset_after_countdown t c.ctrl hword hctrl hdev' hexp (.inl ⟨hidle, hinbox'⟩)
  rw [hticks] at hcount hsteps
  exact ⟨t, hexec, hcount, u, scope, pulse, hsteps, hexpired⟩

/-- Settles O40: the caller waits longer than the 128,000 ticks of the countdown, so nobody else can move before it ends. -/
theorem forceResetAlwaysEndsInReset : Obligations.ForceResetAlwaysEndsInReset := by
  unfold Obligations.ForceResetAlwaysEndsInReset
  intro s c hrest hdev hctl ⟨hword, _⟩
  obtain ⟨t, hexec, hcounter, hctrl, hdev', hexp, hseq, hblock, hresult, hinbox⟩ : ∃ t, exec .forceReset s = .next t ∧
      t.dev.counter = 128000#32 ∧ t.dev.ctrl = c.ctrl ||| 1#32 ∧ t.iface = .device ∧ t.dev.expired = none ∧
      t.seq = .running .forceReset 4 [] ∧ t.blockUs = 1000000 ∧ t.result = none ∧ t.inbox = s.inbox := by
    have hexec := exec_forceReset_of_device s c hrest hdev hctl hword
    obtain ⟨hexp, -⟩ := hrest
    exact ⟨_, hexec, rfl, rfl, hdev, hexp, rfl, rfl, rfl, rfl⟩
  have hticks : t.dev.counter.toNat = 128000 := by rw [hcounter]; rfl
  obtain ⟨-, u, scope, pulse, hsteps, hexpired, hresult', hinbox'⟩ :=
    reset_after_countdown t c.ctrl hword hctrl hdev' hexp (.inr ⟨4, hseq, by omega⟩)
  exact ⟨t, hexec, _, u, scope, pulse, by omega, hsteps, hexpired, hresult'.trans hresult, hinbox'.trans hinbox⟩

/-! ## The steps of an instruction -/

/-- With nothing scheduled the issuer's turn uses nothing up. -/
theorem afterIssuer_of_no_moves (s : State) (h : s.moves = []) : { s with moves := afterIssuer s.moves } = s := by
  cases s
  simp_all [afterIssuer]

/-- A step makes the next transaction of the operation in progress when no turn is scheduled. -/
theorem step_of_transaction {s m t : State} {op : OpName} {k : Nat} {a : Action} {l : List Action}
    (hexp : s.dev.expired = none) (hmoves : s.moves = []) (hseq : s.seq = .running op k (a :: l))
    (ha : act a { s with seq := .running op k l } = .next m) (ht : settle m = t) : step s = .next t := by
  rw [step_of_proceed s hexp (by simp [hseq]) (callerWaits_of_todo s (by simp [hseq])) (by rw [hmoves]; rfl),
    afterIssuer_of_no_moves s hmoves, controllerStep_cons s op k a l hseq, ha, settled_next, ht]

/-- Settles O49: the call enters with its first write, and each further step makes one more. -/
theorem startTakesOneStepPerWrite : Obligations.StartTakesOneStepPerWrite := by
  unfold Obligations.StartTakesOneStepPerWrite
  rintro s c ts rest s1 s2 s3 s4 ⟨hexp, hidle, hblock⟩ hdev hctl ⟨hword, -⟩ hmoves hinbox rfl rfl rfl rfl
  have hdef := mirrorWords_defined _ (mirrorWords_or_en _ hword)
  refine ⟨?_, ?_, ?_, ?_⟩
  · rw [(stepRunsDecodedInstruction s (.start ts) ⟨hexp, hidle⟩).1 _ rest hinbox rfl |>.1 hmoves]
    simp only [begin, beginStart, controllerTurn_of_enter { s with inbox := rest } c _ ⟨hexp, hidle⟩ hctl]
    rw [armProgram, call_cons, act_disable_of_device _ (by exact hdev)]
    rfl
  · exact step_of_transaction (by exact hexp) (by exact hmoves) rfl (act_load_of_device _ _ (by exact hdev)) rfl
  · exact step_of_transaction (by exact hexp) (by exact hmoves) rfl (act_restart_of_device _ (by exact hdev)) rfl
  · exact step_of_transaction (by exact hexp) (by exact hmoves) rfl
      (act_writeMirror_of_device _ { c with ctrl := c.ctrl ||| 1#32, timeout := ts } (by exact hdev) rfl hdef
        (.inr rfl)) rfl

end Sys2Proof.Machine
end

section
/-! PROOFS. The steps from a packet's entry on make up the whole instruction (10_state R27). -/

namespace Sys2Proof.Machine

/-- Turns overwrite the schedule of the state they start from. -/
theorem runTurns_moves (l ms : List Mover) : ∀ s : State, runTurns l { s with moves := ms } = runTurns l s := by
  induction l with
  | nil => exact fun _ => rfl
  | cons mv l ih =>
    intro s
    cases mv with
    | issuer => rfl
    | counter => simp only [runTurns, counterTurn_moves_comm, ih]

/-- A lapse that begins with the counter agent's turn is that turn, and unless it was an expiry the lapse of the rest. -/
theorem lapse_of_counterFirst (s : State) (ms : List Mover) (h : s.moves = .counter :: ms) :
    lapse s = if (counterTurn s).dev.expired.isSome then { counterTurn s with moves := ms }
      else lapse { counterTurn s with moves := ms } := by
  simp only [lapse, h, runTurns, runTurns_moves]

/-- A lapse up to the issuer's turn when that comes first. -/
theorem lapse_of_issuer (s : State) (h : counterFirst s.moves = false) : lapse s = { s with moves := afterIssuer s.moves } := by
  unfold lapse
  cases hmoves : s.moves with
  | nil => rfl
  | cons mv ms =>
    cases mv with
    | issuer => rfl
    | counter => simp [hmoves, counterFirst] at h

/-- What the machine does up to and with an operation's next transaction: the turns before it, and unless one is an expiry
the transaction. -/
def transact (s : State) : Answer :=
  if (lapse s).dev.expired.isSome then .next (lapse s) else controllerStep (lapse s)

theorem runCall_of_pending (n : Nat) (s : State) (h : pending s.seq = true) :
    runCall (n + 1) s =
      if (lapse s).dev.expired.isSome then .next (lapse s) else resume n (controllerStep (lapse s)) := by
  rw [runCall, if_pos h]
  rfl

/-- While an operation has a transaction to make it is running and its caller does not wait. -/
theorem pending_moves_on (s : State) (h : pending s.seq = true) : s.seq ≠ .idle ∧ callerWaits s = false := by
  constructor
  · intro hidle
    simp [hidle] at h
  · refine callerWaits_of_todo s fun hnil => ?_
    cases hseq : s.seq with
    | idle => simp [hseq] at h
    | running op k l =>
      rw [hseq, todo_running] at hnil
      simp [hseq, hnil] at h

theorem stepMany_one (s : State) : stepMany 1 s = step s := by
  cases hstep : step s <;> simp [stepMany, hstep]

/-- One step a turn, and one for the transaction. -/
theorem stepMany_transact (l : List Mover) : ∀ s : State, s.moves = l → s.dev.expired = none → pending s.seq = true →
    ∃ k, stepMany (k + 1) s = transact s := by
  have issuer : ∀ s : State, counterFirst s.moves = false → s.dev.expired = none → pending s.seq = true →
      ∃ k, stepMany (k + 1) s = transact s := by
    intro s hfirst hexp hpend
    obtain ⟨hbusy, hready⟩ := pending_moves_on s hpend
    refine ⟨0, (stepMany_one s).trans ?_⟩
    rw [transact, lapse_of_issuer s hfirst, step_of_proceed s hexp hbusy hready hfirst]
    simp [hexp]
  induction l with
  | nil => exact fun s hmoves => issuer s (by rw [hmoves]; rfl)
  | cons mv l ih =>
    cases mv with
    | issuer => exact fun s hmoves => issuer s (by rw [hmoves]; rfl)
    | counter =>
      intro s hmoves hexp hpend
      obtain ⟨hbusy, hready⟩ := pending_moves_on s hpend
      have hstep := step_of_counterFirst s l hexp (onlyCounter_of_busy s hbusy hready) hmoves
      cases hdue : (counterTurn s).dev.expired with
      | none =>
        obtain ⟨k, hk⟩ := ih { counterTurn s with moves := l } rfl hdue (by simpa using hpend)
        refine ⟨k + 1, (stepMany_succ _ s _ hstep).trans (hk.trans ?_)⟩
        simp [transact, lapse_of_counterFirst s l hmoves, hdue]
      | some r =>
        refine ⟨0, (stepMany_one s).trans (hstep.trans ?_)⟩
        simp [transact, lapse_of_counterFirst s l hmoves, hdue]

/-- The rest of an operation is a number of steps. -/
theorem stepMany_runCall (n : Nat) : ∀ s : State, s.dev.expired = none → ∃ k, stepMany k s = runCall n s := by
  induction n with
  | zero => exact fun s _ => ⟨0, rfl⟩
  | succ n ih =>
    intro s hexp
    cases hpend : pending s.seq with
    | false => exact ⟨0, by rw [runCall_of_not_pending _ _ hpend, stepMany]⟩
    | true =>
      obtain ⟨k, hk⟩ := stepMany_transact _ s rfl hexp hpend
      rw [runCall_of_pending n s hpend]
      unfold transact at hk
      split
      · next hdue => exact ⟨k + 1, by rw [hk, if_pos hdue]⟩
      · next hdue =>
        rw [if_neg hdue] at hk
        cases hstep : controllerStep (lapse s) with
        | next t =>
          have hexp' : t.dev.expired = none := by
            rw [controllerStep_expired _ t hstep]
            simpa using hdue
          obtain ⟨j, hj⟩ := ih t hexp'
          exact ⟨k + 1 + j, (stepMany_add _ j s t (hk.trans hstep)).trans hj⟩
        | fault f => exact ⟨k + 1, hk.trans hstep⟩
        | refused r => exact ⟨k + 1, hk.trans hstep⟩

/-- From the first step of a row on, the machine goes on to where `exec` puts it. -/
theorem stepMany_exec (i : Instr) (s m : State) (hi : i.level ≠ .agent) (hexp : m.dev.expired = none)
    (hstep : step s = begin i m) : ∃ n, stepMany (n + 1) s = exec i m := by
  have hone : stepMany 1 s = begin i m := (stepMany_one s).trans hstep
  obtain e | e := exec_eq_begin i m
  · exact ⟨0, hone.trans e.symm⟩
  · rw [e]
    cases hbegin : begin i m with
    | next t =>
      obtain ⟨hexp', -⟩ := begin_outputsKept i m t hi hbegin
      obtain ⟨k, hk⟩ := stepMany_runCall maxTransactions t (hexp'.trans hexp)
      exact ⟨k, (stepMany_succ k s t (hstep.trans hbegin)).trans hk⟩
    | fault f => exact ⟨0, hone.trans hbegin⟩
    | refused r => exact ⟨0, hone.trans hbegin⟩

/-- Settles O48: the packet's step is the first step of its row, and the rest of the operation is a step a turn and a step
a transaction. -/
theorem stepsMakeUpTheInstruction : Obligations.StepsMakeUpTheInstruction := by
  unfold Obligations.StepsMakeUpTheInstruction
  intro s pk rest i henter hinbox hdecode
  have hi := decode_level s.par pk i hdecode
  obtain ⟨hfree, hissuer⟩ := (stepRunsDecodedInstruction s i henter).1 pk rest hinbox hdecode
  obtain ⟨hexp, -⟩ := henter
  exact ⟨fun hmoves => stepMany_exec i s _ hi hexp (hfree hmoves),
    fun ms hmoves => stepMany_exec i s _ hi hexp (hissuer ms hmoves)⟩

end Sys2Proof.Machine
end

section
/-! PROOFS. Whether enabling reloads (P16) cannot be seen through the operations (43_counter R152): an operation that sets
EN in CTRL does it with the timer halted and the counter already at the reload value. -/

namespace Sys2Proof.Machine

/-! ## What enabling reloads can change -/

/-- The state with enabling set to reload or not (P16). -/
def withReloads (b : Bool) (s : State) : State := { s with par := { s.par with enableReloads := b } }

section enable_reloads

variable {b : Bool}

theorem counterTurn_withReloads (s : State) : counterTurn (withReloads b s) = withReloads b (counterTurn s) := by
  have hdue : expiryDue (withReloads b s) = expiryDue s := rfl
  unfold counterTurn
  rw [hdue]
  split
  · rfl
  · unfold passMicrosecond tickCounter tickCaller withReloads
    dsimp only
    (repeat' split) <;> rfl

theorem runTurns_withReloads (l : List Mover) :
    ∀ s : State, runTurns l (withReloads b s) = withReloads b (runTurns l s) := by
  induction l with
  | nil => exact fun _ => rfl
  | cons mv l ih =>
    intro s
    cases mv with
    | issuer => rfl
    | counter =>
      simp only [runTurns, counterTurn_withReloads, ih]
      split
      · next hdue => rw [if_pos (by exact hdue)]; rfl
      · next hdue => rw [if_neg (by exact hdue)]

theorem lapse_withReloads (s : State) : lapse (withReloads b s) = withReloads b (lapse s) :=
  runTurns_withReloads s.moves s

theorem settle_withReloads (s : State) : settle (withReloads b s) = withReloads b (settle s) := by
  unfold settle withReloads
  (repeat' split) <;> simp_all

/-- A write shows whether enabling reloads only if it sets EN in CTRL with the counter off the reload value. -/
theorem deviceWrite_withReloads (p : Config.Params) (r : Reg) (v : Word) (d : Device)
    (h : r = .ctrl → v.getLsbD 0 = false ∨ d.counter = d.reload) :
    deviceWrite { p with enableReloads := b } r v d = deviceWrite p r v d := by
  cases r with
  | ctrl =>
    have hcounter : ∀ reloads : Bool,
        (if !ctrlEn d.ctrl && ctrlEn v && reloads then d.reload else d.counter) = d.counter := by
      intro reloads
      obtain hen | heq := h rfl
      · simp only [ctrlEn, hen, Bool.and_false, Bool.false_and, Bool.false_eq_true, if_false]
      · rw [heq, ite_self]
    simp only [deviceWrite, devWriteCtrl, hcounter]
  | status | reloadValue | restart | resetWidth => rfl

theorem regWrite_withReloads {r : Reg} {v : Word} {s t : State}
    (hr : s.iface = .fake ∨ (r = .ctrl → v.getLsbD 0 = false ∨ s.dev.counter = s.dev.reload))
    (h : regWrite r v s = .next t) : regWrite r v (withReloads b s) = .next (withReloads b t) := by
  unfold regWrite at h ⊢
  refine (rowWrite_eq_next _ _ _ _ _).2 ?_
  obtain ⟨hdev, d, hd, rfl⟩ | ⟨hfake, rfl⟩ := (rowWrite_eq_next _ _ _ _ _).1 h
  · refine .inl ⟨hdev, d, ?_, rfl⟩
    obtain hfake | hr := hr
    · cases hdev.symm.trans hfake
    · exact (deviceWrite_withReloads s.par r v s.dev hr).trans hd
  · exact .inr ⟨hfake, rfl⟩

/-- The same for a transaction of an operation: only a write of the mirror can set EN. -/
theorem act_withReloads {a : Action} {s t : State}
    (ha : s.iface = .fake ∨ (a = .writeMirror → ¬ Armed s ∨ s.dev.counter = s.dev.reload))
    (h : act a s = .next t) : act a (withReloads b s) = .next (withReloads b t) := by
  cases a with
  | takeOver n =>
    cases h
    rfl
  | fetchDuration supplied =>
    cases h
    rfl
  | disable => exact regWrite_withReloads (.inr fun _ => .inl rfl) h
  | load count => exact regWrite_withReloads (r := .reloadValue) (.inr (by simp)) h
  | restart => exact regWrite_withReloads (r := .restart) (.inr (by simp)) h
  | tagDrive pushPull => exact regWrite_withReloads (r := .resetWidth) (.inr (by simp)) h
  | tagPolarity activeHigh => exact regWrite_withReloads (r := .resetWidth) (.inr (by simp)) h
  | writeMirror =>
    cases hctl : s.ctl with
    | none => simp [act, writeMirror, hctl] at h
    | some c =>
      have hmirror : ∀ u : State, u.ctl = some c → act .writeMirror u = regWrite .ctrl c.ctrl u := by
        intro u hu
        simp only [act, writeMirror, hu]
      rw [hmirror s hctl] at h
      rw [hmirror _ (by exact hctl)]
      refine regWrite_withReloads (ha.imp id fun hreload _ => (hreload rfl).imp (fun harmed => ?_) id) h
      exact Bool.eq_false_iff.2 fun hen => harmed ⟨c, hctl, hen⟩

/-! ## Why no operation shows it -/

/-- Transactions that write no mirror and hand over to none that do. -/
def NoMirrorWrite (l : List Action) : Prop := .writeMirror ∉ l ∧ ∀ n, .takeOver n ∉ l

theorem NoMirrorWrite.tail {a : Action} {l : List Action} (h : NoMirrorWrite (a :: l)) : NoMirrorWrite l := by
  obtain ⟨hmirror, htake⟩ := h
  exact ⟨fun hmem => hmirror (.tail _ hmem), fun n hmem => htake n (.tail _ hmem)⟩

/-- The transactions still to make do not show whether enabling reloads: there is no counter, or no mirror is written, or
the mirror written has EN clear, or the arm sequence stands at one of its four writes, with the timer halted after the
first and the counter reloaded after the third. -/
inductive HidesReload (s : State) : List Action → Prop where
  | fake {l : List Action} (hfake : s.iface = .fake) : HidesReload s l
  | noMirrorWrite {l : List Action} (hl : NoMirrorWrite l) : HidesReload s l
  | disarmed (harmed : ¬ Armed s) : HidesReload s [.writeMirror]
  | takeOver {l : List Action} (n : Nat) (hl : NoMirrorWrite l) : HidesReload s (.takeOver n :: l)
  | disable {l : List Action} (count : Word) (hl : NoMirrorWrite l) : HidesReload s (armProgram count ++ l)
  | load {l : List Action} (count : Word) (hl : NoMirrorWrite l) (hhalt : Halted s) :
      HidesReload s (.load count :: .restart :: .writeMirror :: l)
  | restart {l : List Action} (hl : NoMirrorWrite l) (hhalt : Halted s) : HidesReload s (.restart :: .writeMirror :: l)
  | writeMirror {l : List Action} (hl : NoMirrorWrite l) (hhalt : Halted s) (hcounter : s.dev.counter = s.dev.reload) :
      HidesReload s (.writeMirror :: l)

theorem HidesReload.congr {s t : State} {l : List Action} (hiface : t.iface = s.iface) (hdev : t.dev = s.dev)
    (hctl : t.ctl = s.ctl) (h : HidesReload s l) : HidesReload t l := by
  cases h with
  | fake hfake => exact .fake (hiface.trans hfake)
  | noMirrorWrite hl => exact .noMirrorWrite hl
  | disarmed harmed => exact .disarmed (by rwa [Armed, hctl])
  | takeOver n hl => exact .takeOver n hl
  | disable count hl => exact .disable count hl
  | load count hl hhalt => exact .load count hl (by rwa [Halted, hiface, hdev])
  | restart hl hhalt => exact .restart hl (by rwa [Halted, hiface, hdev])
  | writeMirror hl hhalt hcounter => exact .writeMirror hl (by rwa [Halted, hiface, hdev]) (by rwa [hdev])

/-- A halted counter stays where it is. -/
theorem counterTurn_counter_of_halted (s : State) (h : Halted s) : (counterTurn s).dev.counter = s.dev.counter := by
  rw [counterTurn_of_not_due s (not_due_of_halted s (.inl h)), passMicrosecond, tickCounter_of_halted s (.inl h)]
  rfl

theorem HidesReload.counterTurn {s : State} {l : List Action} (h : HidesReload s l) :
    HidesReload (counterTurn s) l := by
  cases h with
  | fake hfake => exact .fake (by simpa using hfake)
  | noMirrorWrite hl => exact .noMirrorWrite hl
  | disarmed harmed => exact .disarmed (by simpa [Armed] using harmed)
  | takeOver n hl => exact .takeOver n hl
  | disable count hl => exact .disable count hl
  | load count hl hhalt => exact .load count hl (by simpa [Halted] using hhalt)
  | restart hl hhalt => exact .restart hl (by simpa [Halted] using hhalt)
  | writeMirror hl hhalt hcounter =>
    exact .writeMirror hl (by simpa [Halted] using hhalt) (by
      rw [counterTurn_counter_of_halted s hhalt, counterTurn_dev_reload, hcounter])

theorem HidesReload.lapse {s : State} {l : List Action} (h : HidesReload s l) : HidesReload (lapse s) l :=
  lapse_invariant (HidesReload · l) (fun _ => .counterTurn) (fun _ _ => .congr rfl rfl rfl) s h

/-- The next transaction is none of those that show it. -/
theorem HidesReload.head {s : State} {a : Action} {l : List Action} (h : HidesReload s (a :: l)) :
    s.iface = .fake ∨ (a = .writeMirror → ¬ Armed s ∨ s.dev.counter = s.dev.reload) := by
  generalize heq : a :: l = l' at h
  cases h with
  | fake hfake => exact .inl hfake
  | noMirrorWrite hl =>
    subst heq
    obtain ⟨hmirror, -⟩ := hl
    exact .inr fun ha => absurd (ha ▸ .head _) hmirror
  | disarmed harmed => exact .inr fun _ => .inl harmed
  | writeMirror hl hhalt hcounter => exact .inr fun _ => .inr hcounter
  | takeOver | disable | load | restart =>
    refine .inr fun ha => ?_
    rw [ha] at heq
    cases heq

theorem NoMirrorWrite.nil : NoMirrorWrite [] := ⟨by simp, by simp⟩

/-- But for attach's read of CTRL, a transaction leaves the rest to make. -/
theorem act_todo {s t : State} {op : OpName} {k : Nat} {a : Action} {l : List Action} (hseq : s.seq = .running op k l)
    (h : act a s = .next t) (ha : ∀ n, a ≠ .takeOver n) : t.seq.todo = l := by
  obtain hadv | ⟨n, htake, -⟩ := act_seq a s t h
  · rw [hadv, hseq, advance_running, todo_running]
  · exact absurd htake (ha n)

/-- After the next transaction the rest still hides it. -/
theorem HidesReload.act {s t : State} {op : OpName} {k : Nat} {a : Action} {l : List Action}
    (h : HidesReload s (a :: l)) (hseq : s.seq = .running op k l) (ha : act a s = .next t) :
    HidesReload t t.seq.todo := by
  cases hiface : s.iface with
  | fake =>
    obtain ⟨-, hkept, -⟩ := act_frame a s t ha
    exact .fake (hkept.trans hiface)
  | device =>
    have htodo := act_todo hseq ha
    generalize heq : a :: l = l' at h
    cases h with
    | fake hfake => cases hiface.symm.trans hfake
    | noMirrorWrite hl =>
      subst heq
      have ⟨_, htake⟩ := hl
      rw [htodo fun n hn => htake n (hn ▸ .head _)]
      exact .noMirrorWrite hl.tail
    | takeOver n hl =>
      obtain ⟨rfl, rfl⟩ := List.cons.inj heq
      obtain hadv | ⟨m, -, -, hpush⟩ := act_seq _ s t ha
      · rw [hadv, hseq]
        exact .noMirrorWrite hl
      · rw [hpush, hseq]
        exact .disable _ hl
    | disarmed =>
      obtain ⟨rfl, rfl⟩ := List.cons.inj heq
      rw [htodo (by simp)]
      exact .noMirrorWrite .nil
    | disable count hl =>
      obtain ⟨rfl, rfl⟩ := List.cons.inj heq
      rw [htodo (by simp)]
      rw [act_disable_of_device s hiface] at ha
      cases ha
      exact .load count hl ⟨hiface, (rfl : (0#32 : Word).getLsbD 0 = false)⟩
    | load count hl hhalt =>
      obtain ⟨rfl, rfl⟩ := List.cons.inj heq
      rw [htodo (by simp)]
      rw [act_load_of_device count s hiface] at ha
      cases ha
      exact .restart hl hhalt
    | restart hl hhalt =>
      obtain ⟨rfl, rfl⟩ := List.cons.inj heq
      rw [htodo (by simp)]
      rw [act_restart_of_device s hiface] at ha
      cases ha
      exact .writeMirror hl hhalt rfl
    | writeMirror hl =>
      obtain ⟨rfl, rfl⟩ := List.cons.inj heq
      rw [htodo (by simp)]
      exact .noMirrorWrite hl

/-! ## The operations -/

theorem controllerStep_withReloads {s t : State} (hs : HidesReload s s.seq.todo) (h : controllerStep s = .next t) :
    controllerStep (withReloads b s) = .next (withReloads b t) ∧ HidesReload t t.seq.todo := by
  obtain ⟨hidle, rfl⟩ | ⟨op, k, hseq, rfl⟩ | ⟨op, k, a, l, m, hseq, ha, rfl⟩ := controllerStep_eq_next s t h
  · exact ⟨by simp only [controllerStep, withReloads, hidle], hs⟩
  · exact ⟨controllerStep_nil _ op k hseq, .noMirrorWrite .nil⟩
  · rw [hseq, todo_running] at hs
    have hnext : HidesReload { s with seq := .running op k l } (a :: l) := .congr (s := s) rfl rfl rfl hs
    constructor
    · rw [controllerStep_cons _ op k a l (by exact hseq), ← settle_withReloads, ← settled_next]
      exact congrArg settled (act_withReloads hnext.head ha)
    · rw [settle_todo]
      exact (hnext.act rfl ha).congr (settle_iface m) (settle_dev m) (settle_ctl m)

theorem runCall_withReloads (n : Nat) : ∀ s t : State, HidesReload s s.seq.todo → runCall n s = .next t →
    runCall n (withReloads b s) = .next (withReloads b t) := by
  induction n with
  | zero =>
    intro s t _ h
    cases h
    rfl
  | succ n ih =>
    intro s t hs h
    refine (runCall_eq_next n _ _).2 ?_
    rw [lapse_withReloads]
    obtain ⟨hdone, rfl⟩ | ⟨hpend, hexp, rfl⟩ | ⟨hpend, hexp, m, hstep, hrun⟩ := (runCall_eq_next n s t).1 h
    · exact .inl ⟨hdone, rfl⟩
    · exact .inr (.inl ⟨hpend, hexp, rfl⟩)
    · have hlapse : HidesReload (lapse s) (lapse s).seq.todo := by
        rw [lapse_seq]
        exact hs.lapse
      obtain ⟨hstep', hm⟩ := controllerStep_withReloads hlapse hstep
      exact .inr (.inr ⟨hpend, hexp, _, hstep', ih m t hm hrun⟩)

/-- Entering from a state gives the same next state either way, and one that goes on the same either way. -/
def EntersBlind (b : Bool) (k : State → Answer) (s : State) : Prop :=
  ∀ t, k s = .next t → k (withReloads b s) = .next (withReloads b t) ∧ HidesReload t t.seq.todo

theorem EntersBlind.complete {k : State → Answer} {s t : State} (hk : EntersBlind b k s) (h : complete (k s) = .next t) :
    complete (k (withReloads b s)) = .next (withReloads b t) := by
  obtain ⟨m, hm, hrun⟩ := (complete_eq_next _ _).1 h
  obtain ⟨henter, hhides⟩ := hk m hm
  exact (complete_eq_next _ _).2 ⟨_, henter, runCall_withReloads _ m t hhides hrun⟩

theorem EntersBlind.hostTurn {k : State → Answer} {s : State} (hk : EntersBlind b k s) :
    EntersBlind b (hostTurn · k) s := by
  intro t h
  obtain ⟨henter, h⟩ := (hostTurn_eq_next _ _ _).1 h
  obtain ⟨hnext, hhides⟩ := hk t h
  exact ⟨(hostTurn_eq_next _ _ _).2 ⟨henter, hnext⟩, hhides⟩

theorem EntersBlind.controllerTurn {k : Controller → State → Answer} {s : State}
    (hk : ∀ c, s.ctl = some c → EntersBlind b (k c) s) : EntersBlind b (controllerTurn · k) s := by
  intro t h
  obtain ⟨henter, c, hctl, h⟩ := (controllerTurn_eq_next _ _ _).1 h
  obtain ⟨hnext, hhides⟩ := hk c hctl t h
  exact ⟨(controllerTurn_eq_next _ _ _).2 ⟨henter, c, hctl, hnext⟩, hhides⟩

/-- A call of a sequence that hides it; `f` is what the operation does to the controller record before. -/
theorem EntersBlind.call {op : OpName} {prog : List Action} {s : State} (f : State → State)
    (hf : f (withReloads b s) = withReloads b (f s)) (h : HidesReload (f s) prog) :
    EntersBlind b (fun s => call op prog (f s)) s := by
  intro t hcall
  have hcalled : HidesReload { f s with seq := .running op 0 prog, result := none } prog :=
    .congr (s := f s) rfl rfl rfl h
  obtain ⟨hstep, hhides⟩ := controllerStep_withReloads (b := b) hcalled hcall
  refine ⟨?_, hhides⟩
  simp only [Machine.call, hf]
  exact hstep

theorem NoMirrorWrite.configureProgram (cfg : ResolvedConfiguration) : NoMirrorWrite (configureProgram cfg) :=
  ⟨by simp [Machine.configureProgram], by simp [Machine.configureProgram]⟩

/-- An instruction that only gives an answer does so either way. -/
theorem EntersBlind.answer {s : State} (r : CallResult) (h : s.seq = .idle) :
    EntersBlind b (fun s => .next { s with result := some r }) s := by
  intro t ht
  cases ht
  exact ⟨rfl, .noMirrorWrite (by rw [h]; exact .nil)⟩

theorem EntersBlind.stop {k : State → Answer} {s : State} (h : ∀ t, k s ≠ .next t) : EntersBlind b k s :=
  fun t ht => absurd ht (h t)

theorem EntersBlind.congr {k k' : State → Answer} {s : State} (hk : k s = k' s)
    (hk' : k (withReloads b s) = k' (withReloads b s)) (h : EntersBlind b k' s) : EntersBlind b k s := by
  unfold EntersBlind
  rw [hk, hk']
  exact h

/-- attach enters the same either way. -/
theorem beginAttach_blind (cfg : ResolvedConfiguration) {s : State} (hidle : s.seq = .idle) :
    EntersBlind b (beginAttach cfg) s := by
  unfold beginAttach
  refine .hostTurn ?_
  cases hctl : s.ctl with
  | some c => exact .stop (by simp [hctl])
  | none =>
    cases hd : durationError cfg.pulseDurationTicks with
    | some n =>
      exact .congr (k' := fun s => .next (raiseConfigurationError n s)) (by simp [hctl]) (by simp [withReloads, hctl])
        (.answer (.configurationError n) hidle)
    | none =>
      exact .congr (by simp [hctl]) (by simp [withReloads, hctl])
        (.call (op := .attach) (prog := .takeOver s.par.defaultTimeoutS :: configureProgram cfg)
          (fun s => { s with ctl := some (newController s.par cfg) }) rfl (.takeOver _ (.configureProgram cfg)))

/-- Every operation answers the same next state either way. -/
theorem exec_withReloads (i : Instr) {s t : State} (hi : i.level = .cmd) (hidle : s.seq = .idle) (h : exec i s = .next t) :
    exec i (withReloads b s) = .next (withReloads b t) := by
  cases i with
  | attach cfg => exact (beginAttach_blind cfg hidle).complete h
  | start ts =>
    refine EntersBlind.complete (.controllerTurn fun c _ => ?_) h
    exact .call (fun s => { s with ctl := some { c with timeout := ts } }) rfl (.disable _ .nil)
  | forceReset =>
    exact EntersBlind.complete (.controllerTurn fun c _ => .call id rfl (.disable _ .nil)) h
  | stop =>
    refine EntersBlind.complete (.controllerTurn fun c _ => ?_) h
    refine .call (fun s => { s with ctl := some c.disable }) rfl (.disarmed ?_)
    rintro ⟨c', hc', hen⟩
    cases hc'
    rw [disable_en] at hen
    cases hen
  | ping =>
    exact EntersBlind.complete (.controllerTurn fun c _ => .call id rfl (.noMirrorWrite (by simp [NoMirrorWrite]))) h
  | setTimeout ts =>
    refine EntersBlind.complete (.controllerTurn fun c _ => ?_) h
    exact .call (fun s => { s with ctl := some { c with timeout := ts } }) rfl (.noMirrorWrite (by simp [NoMirrorWrite]))
  | configureResetSignal cfg =>
    refine EntersBlind.complete (.controllerTurn fun c _ => ?_) h
    cases durationError cfg.pulseDurationTicks with
    | some n => exact .stop (by simp)
    | none => exact .call id rfl (.noMirrorWrite (.configureProgram cfg))
  | setDriveMode pushPull =>
    exact EntersBlind.complete (.controllerTurn fun c _ => .call id rfl (.noMirrorWrite (by simp [NoMirrorWrite]))) h
  | setPolarity activeHigh =>
    exact EntersBlind.complete (.controllerTurn fun c _ => .call id rfl (.noMirrorWrite (by simp [NoMirrorWrite]))) h
  | validatePulseDuration d =>
    have hblind : EntersBlind b (execValidatePulseDuration d) s := by
      refine .controllerTurn fun c _ => ?_
      cases durationError d <;> exact .answer _ hidle
    exact (hblind t h).1
  | currentTimeout =>
    exact (EntersBlind.controllerTurn (fun c _ => .answer _ hidle) t h).1
  | maxTimeout =>
    exact (EntersBlind.controllerTurn (fun c _ => .answer _ hidle) t h).1
  | _ => cases hi

end enable_reloads

/-- Settles O60: an operation sets EN in CTRL only with the timer halted and the counter reloaded, so it hides whether that
reloads. -/
theorem enableReloadsUnobservable : Obligations.EnableReloadsUnobservable := by
  unfold Obligations.EnableReloadsUnobservable
  intro s t i b hi ⟨_, hidle, _⟩ _ h
  exact exec_withReloads i hi hidle h

end Sys2Proof.Machine
end
